-- ==== Sys2Proof/Word.lean ====
section
/-! DEFINITION. The bit vectors the spec itself treats as bits (00_scope.md R13, R20): bytes of a stream, 32-bit bus
words, 64-bit registers, PIDs and channel numbers. -/

namespace Sys2Proof

/-- One byte of a stream or of a section buffer. -/
abbrev Byte := BitVec 8

/-- One word of the register bus (10_state.md R33), also a command word and a packet's header word. -/
abbrev Word := BitVec 32

/-- A 64-bit register, read as u64 or as i64 as its rule says (10_state.md R34). -/
abbrev DWord := BitVec 64

/-- A packet identifier, 0 to 8191 (00_scope.md R11, PID_BITS). -/
abbrev Pid := BitVec 13

/-- The CHAN field of a command word (30_encoding.md R130). -/
abbrev Chan := BitVec 4

end Sys2Proof
end

