-- ==== Sys2Proof/Config.lean ====
section
/-! DEFINITION. The constants of 00_scope.md R11. The implementation parameters of R12 are plain data of the state
(`HwParams` in Machine/State.lean), so that a claim about every state is a claim for every parameter. -/

namespace Sys2Proof.Config

/-- PKT_SIZE: bytes in a TS packet. -/
def pktSize : Nat := 188

/-- CHUNK_SIZE: bytes in a transport chunk. -/
def chunkSize : Nat := 1316

/-- SYNC_BYTE: the value the first byte of a packet must have. -/
def syncByte : Byte := 0x47#8

/-- PCR_MUL: PCR ticks = base * 300 + extension. -/
def pcrMul : Nat := 300

/-- NS_NUM: nanoseconds = ticks * 1000 / 27. -/
def nsNum : Nat := 1000

/-- NS_DEN: nanoseconds = ticks * 1000 / 27. -/
def nsDen : Nat := 27

/-- MAX_SECTION: the largest accepted section size, and the size of a filter's buffer. -/
def maxSection : Nat := 4096

/-- PCR_DELTA_CEIL_NS: the largest valid PCR delta, 500 ms. -/
def pcrDeltaCeilNs : Nat := 500000000

/-- TRK_ENTRY: bytes in a timestamp-track entry. -/
def trkEntry : Nat := 8

/-- CHECK_INTERVAL: chunks between pacing checks. -/
def checkInterval : Nat := 10

/-- LATE_BOUND_NS: the lateness that triggers a resync, 1 s. -/
def lateBoundNs : Nat := 1000000000

/-- NS_PER_S: the unit of the maximum playback duration. -/
def nsPerS : Nat := 1000000000

/-- BLK_ID (10_state.md R35): "TSC", spec revision 1. -/
def blkId : Word := 0x54534301#32

end Sys2Proof.Config
end

