-- ==== Sys2Proof/Syntax.lean ====
section
/-! DEFINITION. The instructions of TSCORE: one constructor per row of spec/opcode_table.json. A command is one word
written to CMD (30_encoding.md R130, R131). A packet class carries the whole packet: the decoded header fields and the
bytes the class reads as its operand (R134, R137; log entry 4). -/

namespace Sys2Proof

/-- The codec classification of 30_encoding.md R150. `none` is the code NONE: no codec assigned. -/
inductive Codec where
  | none | h264 | mpeg2Video | mpeg2Audio | aac | mp3 | mp4Audio | ac3
deriving DecidableEq, Repr

/-- The header fields of 30_encoding.md R134 that the packet class leaves free: all but sync_byte and AFC. -/
structure TsHdr where
  /-- transport_error_indicator, read by no rule (R136) -/
  tei : Bool
  /-- payload_unit_start_indicator -/
  pusi : Bool
  /-- transport_priority, read by no rule (R136) -/
  prio : Bool
  /-- the packet identifier -/
  pid : Pid
  /-- transport_scrambling_control, read by no rule (R136) -/
  tsc : BitVec 2
  /-- continuity_counter, read by no rule (R136) -/
  cc : BitVec 4
deriving DecidableEq, Repr

/-- The instructions: six commands and five packet classes. -/
inductive Instr where
  /-- NOP (R200) -/
  | nop
  /-- DMX_START (R201) -/
  | dmxStart
  /-- DMX_STOP (R202) -/
  | dmxStop
  /-- FLT_RESET (R203) -/
  | fltReset (pid : Pid)
  /-- DLV_START (R204) -/
  | dlvStart (chan : Chan)
  /-- DLV_STOP (R205) -/
  | dlvStop (chan : Chan)
  /-- TS_AF_PAYLOAD (R236); `body` is b[4 .. 187] -/
  | tsAfPayload (hdr : TsHdr) (body : List Byte)
  /-- TS_PAYLOAD (R237); `body` is b[4 .. 187] -/
  | tsPayload (hdr : TsHdr) (body : List Byte)
  /-- TS_AF_ONLY (R238); `body` is b[4 .. 187] -/
  | tsAfOnly (hdr : TsHdr) (body : List Byte)
  /-- TS_AFC_RESERVED (R239); `body` is b[4 .. 187] -/
  | tsAfcReserved (hdr : TsHdr) (body : List Byte)
  /-- TS_SYNC_FAULT (R233); `sync` is b[0], `rest` is b[1 .. 187] -/
  | tsSyncFault (sync : Byte) (rest : List Byte)
deriving DecidableEq, Repr

end Sys2Proof
end

