-- ==== Sys2Proof/WellFormed.lean ====
section
/-! DEFINITION. Which instructions the encodings admit. A command's fields fill their widths exactly (30_encoding.md
R133: CHAN 0 to 15 and PID 0 to 8191 all encode), so only packets can be ill-formed: by their length (R134) or by a
sync-fault packet that starts with SYNC_BYTE (R137). -/

namespace Sys2Proof

/-- The instruction is one the encodings of 30_encoding.md admit. -/
def Instr.wf : Instr → Bool
  | .nop => true
  | .dmxStart => true
  | .dmxStop => true
  | .fltReset _ => true
  | .dlvStart _ => true
  | .dlvStop _ => true
  | .tsAfPayload _ body => body.length == Config.pktSize - 4
  | .tsPayload _ body => body.length == Config.pktSize - 4
  | .tsAfOnly _ body => body.length == Config.pktSize - 4
  | .tsAfcReserved _ body => body.length == Config.pktSize - 4
  | .tsSyncFault sync rest => sync != Config.syncByte && rest.length == Config.pktSize - 1

end Sys2Proof
end

