-- ==== Sys2Proof/Decode.lean ====
section
/-! DEFINITION. Decoding and encoding, both written from 30_encoding.md: the command word (R130 to R133), the packet
header (R134 to R137), the stream types (R150 to R152), and the big-endian readers of stream data (20_memory.md R105). -/

namespace Sys2Proof

/-! ## Byte order and bits -/

/-- `beN` of 00_scope.md R13: the number whose most significant byte comes first. -/
def beNat (bs : List Byte) : Nat := bs.foldl (fun acc b => acc * 256 + b.toNat) 0

/-- Byte `i` of a sequence; 0 outside it (no rule reads there: 41 R235, 42 R268 and R270). -/
def byteAt (bs : List Byte) (i : Nat) : Byte := bs.getD i 0#8

/-- The `n` bytes of `v`, most significant first (20_memory.md R105). -/
def toBytesBE : (n : Nat) → Nat → List Byte
  | 0, _ => []
  | n + 1, v => toBytesBE n (v / 256) ++ [BitVec.ofNat 8 v]

/-- One bit as a word's bit 0. -/
def boolBit (b : Bool) : BitVec 1 := if b then 1#1 else 0#1

/-! ## Command words -/

/-- Why a command word is no command (30_encoding.md R132), or a byte string no packet (R134). -/
inductive DecodeError where
  /-- reason 1: the OPCODE is not in the map of R131 -/
  | reservedOpcode
  /-- reason 2: a reserved bit, or a field the opcode does not use, is nonzero -/
  | reservedBits
  /-- not 188 bytes -/
  | packetLength
deriving DecidableEq, Repr

/-- OPCODE of a command word (R133). -/
def cmdOpcode (w : Word) : Byte := w.extractLsb' 0 8

/-- CHAN of a command word (R133). -/
def cmdChan (w : Word) : Chan := w.extractLsb' 8 4

/-- PID of a command word (R133). -/
def cmdPid (w : Word) : Pid := w.extractLsb' 16 13

/-- The reserved bits 15:12 and 31:29 of a command word are 0 (R130). -/
def cmdReservedZero (w : Word) : Bool := w.extractLsb' 12 4 == 0#4 && w.extractLsb' 29 3 == 0#3

/-- The command decoder: the opcode map of R131, the reserved opcode first (R132). -/
def decodeCommand (w : Word) : Except DecodeError Instr :=
  let noChan := cmdChan w == 0#4
  let noPid := cmdPid w == 0#13
  let need (ok : Bool) (i : Instr) : Except DecodeError Instr :=
    if cmdReservedZero w && ok then .ok i else .error .reservedBits
  if cmdOpcode w = 0x00#8 then need (noChan && noPid) .nop
  else if cmdOpcode w = 0x01#8 then need (noChan && noPid) .dmxStart
  else if cmdOpcode w = 0x02#8 then need (noChan && noPid) .dmxStop
  else if cmdOpcode w = 0x03#8 then need noChan (.fltReset (cmdPid w))
  else if cmdOpcode w = 0x10#8 then need noPid (.dlvStart (cmdChan w))
  else if cmdOpcode w = 0x11#8 then need noPid (.dlvStop (cmdChan w))
  else .error .reservedOpcode

/-- The layout of R130: PID, CHAN and OPCODE in their places, every reserved bit 0. -/
def cmdWord (opcode : Byte) (chan : Chan) (pid : Pid) : Word :=
  (0#3 ++ pid ++ 0#4 ++ chan ++ opcode).cast (by decide)

/-! ## Packet headers -/

/-- The packet classes of 30_encoding.md R137. -/
inductive TsClass where
  | afPayload | payload | afOnly | afcReserved | syncFault
deriving DecidableEq, Repr

/-- The rows of R137 in order, the first match selecting the class. -/
def headerClass (h : Word) : TsClass :=
  let sync := Config.syncByte.setWidth 32 <<< 24
  if h &&& 0xFF000030#32 = sync ||| 0x30#32 then .afPayload
  else if h &&& 0xFF000030#32 = sync ||| 0x10#32 then .payload
  else if h &&& 0xFF000030#32 = sync ||| 0x20#32 then .afOnly
  else if h &&& 0xFF000030#32 = sync ||| 0x00#32 then .afcReserved
  else .syncFault

/-- The free header fields at their places in H (R134). -/
def headerFields (h : Word) : TsHdr where
  tei := h.getLsbD 23
  pusi := h.getLsbD 22
  prio := h.getLsbD 21
  pid := h.extractLsb' 8 13
  tsc := h.extractLsb' 6 2
  cc := h.extractLsb' 0 4

/-- H = be32(b[0], b[1], b[2], b[3]) (R134). -/
def headerWord (b : List Byte) : Word := BitVec.ofNat 32 (beNat (b.take 4))

/-- The packet-class decoder (R137) on a packet's bytes: total on every 188 bytes. -/
def decodePacket (b : List Byte) : Except DecodeError Instr :=
  if b.length = Config.pktSize then
    let h := headerWord b
    let f := headerFields h
    match headerClass h with
    | .afPayload => .ok (.tsAfPayload f (b.drop 4))
    | .payload => .ok (.tsPayload f (b.drop 4))
    | .afOnly => .ok (.tsAfOnly f (b.drop 4))
    | .afcReserved => .ok (.tsAfcReserved f (b.drop 4))
    | .syncFault => .ok (.tsSyncFault (byteAt b 0) (b.drop 1))
  else .error .packetLength

/-- The header word with SYNC_BYTE, the given AFC and the given fields (R134). -/
def tsHeaderWord (afc : BitVec 2) (f : TsHdr) : Word :=
  (Config.syncByte ++ boolBit f.tei ++ boolBit f.pusi ++ boolBit f.prio ++ f.pid ++ f.tsc ++ afc ++ f.cc).cast (by decide)

/-- The 188 bytes of a packet: its header word, big-endian, then its body. -/
def packetBytes (afc : BitVec 2) (f : TsHdr) (body : List Byte) : List Byte :=
  toBytesBE 4 (tsHeaderWord afc f).toNat ++ body

/-! ## Both decoders together -/

/-- What an instruction is stored as: one command word, or the bytes of one packet. -/
inductive Code where
  | command (w : Word)
  | packet (bytes : List Byte)
deriving DecidableEq, Repr

/-- The decoder of TSCORE: the command decoder on words, the packet-class decoder on packets. -/
def decode : Code → Except DecodeError Instr
  | .command w => decodeCommand w
  | .packet b => decodePacket b

/-- The encoder: the word or the bytes of an instruction, from the same tables (R131, R137). -/
def encode : Instr → Code
  | .nop => .command (cmdWord 0x00#8 0#4 0#13)
  | .dmxStart => .command (cmdWord 0x01#8 0#4 0#13)
  | .dmxStop => .command (cmdWord 0x02#8 0#4 0#13)
  | .fltReset pid => .command (cmdWord 0x03#8 0#4 pid)
  | .dlvStart chan => .command (cmdWord 0x10#8 chan 0#13)
  | .dlvStop chan => .command (cmdWord 0x11#8 chan 0#13)
  | .tsAfPayload f body => .packet (packetBytes 3#2 f body)
  | .tsPayload f body => .packet (packetBytes 1#2 f body)
  | .tsAfOnly f body => .packet (packetBytes 2#2 f body)
  | .tsAfcReserved f body => .packet (packetBytes 0#2 f body)
  | .tsSyncFault sync rest => .packet (sync :: rest)

/-! ## The host's view of one numbered instruction word -/

/-- The 188 bytes of the packet whose 32-bit words, first word least significant, are those of `w`; each word is
big-endian in the stream (R134). -/
def tableBytes : (words : Nat) → Nat → List Byte
  | 0, _ => []
  | n + 1, w => toBytesBE 4 w ++ tableBytes n (w / 2 ^ 32)

/-- Where the bits `w` of a table row stand as an instruction (log entry 4): a header word with SYNC_BYTE is a packet; a
command word of R131 is a command; every other word is the header of a packet that R137's last row matches. -/
def tableCode (nbits w : Nat) : Code :=
  let v := w % 2 ^ nbits
  if headerClass (BitVec.ofNat 32 v) = .syncFault then
    match decodeCommand (BitVec.ofNat 32 v) with
    | .ok _ => if v < 2 ^ 32 then .command (BitVec.ofNat 32 v) else .packet (tableBytes 47 v)
    | .error _ => .packet (tableBytes 47 v)
  else .packet (tableBytes 47 v)

/-- The instruction the decoder reads from an instruction whose bits are `w`, numbered as the opcode table does. -/
def decodeTableWord (nbits w : Nat) : Option Instr :=
  match decode (tableCode nbits w) with
  | .ok i => some i
  | .error _ => none

/-! ## Stream types -/

/-- The codes of FLT[p].CODEC (30_encoding.md R150). -/
def Codec.code : Codec → BitVec 3
  | .none => 0#3
  | .h264 => 1#3
  | .mpeg2Video => 2#3
  | .mpeg2Audio => 3#3
  | .aac => 4#3
  | .mp3 => 5#3
  | .mp4Audio => 6#3
  | .ac3 => 7#3

/-- The rows of the default STYPE_MAP other than the fixed row 0x1B (30_encoding.md R152). -/
def defaultStypeRows : List (Byte × Codec) :=
  [(0x02#8, .mpeg2Video), (0x04#8, .mpeg2Audio), (0x0F#8, .aac), (0x03#8, .mp3), (0x11#8, .mp4Audio), (0x81#8, .ac3)]

/-- STYPE_MAP under the given rows: 0x1B is H264 whatever they say (R151); a type in no row is NONE. -/
def stypeMap (rows : List (Byte × Codec)) (st : Byte) : Codec :=
  if st = 0x1B#8 then .h264 else (rows.lookup st).getD .none

end Sys2Proof
end

