-- ==== Sys2Proof/Machine/State.lean ====
section
/-! DEFINITION. The whole state of TSCORE as plain data (10_state.md R30), the environment's inputs and outputs, the
reasons a step can stop, and the state after reset (70_reset_and_hazards.md R450, R451). -/

namespace Sys2Proof.Machine

/-! ## Reasons a step can stop -/

/-- A model fault. -/
inductive Fault where
  /-- A section byte would be stored outside the filter's 4096-byte buffer. Raised by the section append (42 R264) in a
  state with POS at 4096 or above, which 20_memory.md R120 says is never reached. Safe: the machine stops. -/
  | filterOverrun
deriving DecidableEq, Repr

/-- A model refusal. -/
inductive Refusal where
  /-- Raised by an arm of `exec` whose instruction has no meaning yet. Safe: the machine stops. -/
  | notModelled (mnemonic : String)
  /-- Raised by a host access that is not an aligned 32-bit access: 20_memory.md R101 says the model refuses it
  (93 U13). Safe: the machine stops. -/
  | hostAccess
  /-- Raised when the scheduled answer is none that 00_scope.md R15 lets ENV give to the primitive the agent calls (a
  wrong number of bytes, or a write's answer to a read). Safe: the schedule is no run of TSCORE. -/
  | envAnswer
  /-- Raised when the schedule sets WALL_NS back, against the one law of 60_exceptions.md R430. Safe: the schedule is no
  run of TSCORE. -/
  | envClock
deriving DecidableEq, Repr

/-! ## Enumerations with the codes of the registers -/

/-- DMX_STATUS.STATE (R42); code 3 is never produced and has no constructor. -/
inductive DmxPhase where
  | idle | run | done
deriving DecidableEq, Repr

/-- DLV_STATUS.PHASE (R73, 45 R350); codes 6 and 7 are never produced and have no constructor. -/
inductive DlvPhase where
  | idle | fill | tsread | wait | write | done
deriving DecidableEq, Repr

/-- The termination causes of 60_exceptions.md R401; codes 7 to 15 are never produced and have no constructor. -/
inductive Term where
  | none | endOfSource | durationCap | cancelled | readFault | trackExhausted | syncAbort
deriving DecidableEq, Repr

/-- CMD_STATUS.REJ_REASON (R37); codes 5 to 15 are never produced and have no constructor. -/
inductive RejReason where
  | none | opcode | reservedBits | busy | channel
deriving DecidableEq, Repr

/-- The event bits IRQ_STATUS[9:0] (R38, 60 R400). -/
inductive IrqEvent where
  | cmdErr | dmxDone | syncFault | discont | secOvf | unkStype | secDiscard | malformed | table | trunc
deriving DecidableEq, Repr

/-- The event bits of DLV_EVT (R74, 60 R400). -/
inductive DlvEvent where
  | done | writeFault | resync
deriving DecidableEq, Repr

/-! ## Registers -/

/-- CMD_STATUS (R37). -/
structure CmdStatus where
  rejected : Bool
  rejOpcode : Byte
  rejReason : RejReason
deriving DecidableEq, Repr

/-- An index record (10_state.md R70, 30_encoding.md R155); `durationNs` is an i64. -/
structure IdxRecord where
  offset : DWord
  pcrNs : DWord
  durationNs : DWord
  keyframe : Bool
deriving DecidableEq, Repr

/-- A filter-table entry (R66) but for DATA, which is in `State.mem`. -/
structure Filter where
  seen : Bool
  invalid : Bool
  active : Bool
  size : BitVec 13
  pos : BitVec 13
  codec : Codec
deriving DecidableEq, Repr

/-- The names of the 64-bit DMX registers (R58 to R65). -/
inductive DmxWideReg where
  | offset | faultOff | pcrBaseNs | pcrPrevNs | durationNs | lastDeltaNs | bitrateBps | pcrPrevOff
deriving DecidableEq, Repr

/-- One `α` for each 64-bit DMX register: its value, or its shadow (20_memory.md R106). -/
structure DmxWide (α : Type) where
  offset : α
  faultOff : α
  pcrBaseNs : α
  pcrPrevNs : α
  durationNs : α
  lastDeltaNs : α
  bitrateBps : α
  pcrPrevOff : α
deriving DecidableEq, Repr

/-- The names of the 64-bit channel registers (R78 to R87). -/
inductive DlvWideReg where
  | chunks | bytes | epochWall | epochStream | firstTs | prevTs | lastGoodDelta | curTs | wakeNs | lastDelay
deriving DecidableEq, Repr

/-- One `α` for each 64-bit register of a channel: its value, or its shadow (20_memory.md R106). -/
structure DlvWide (α : Type) where
  chunks : α
  bytes : α
  epochWall : α
  epochStream : α
  firstTs : α
  prevTs : α
  lastGoodDelta : α
  curTs : α
  wakeNs : α
  lastDelay : α
deriving DecidableEq, Repr

/-- The DMX registers and the DMX hidden state (10_state.md sections 3 and 5). -/
structure Dmx where
  /-- DMX_CONFIG: bit 0 SYNC_POLICY, bit 1 KEYFRAME_MODE (R41) -/
  config : BitVec 2
  /-- DMX_STATUS.STATE (R42) -/
  phase : DmxPhase
  term : Term
  pmtValid : Bool
  pcrPidValid : Bool
  pcrSeen : Bool
  stopReq : Bool
  truncBytes : BitVec 8
  pmtPid : Pid
  pcrPid : Pid
  pktCount : Word
  syncFaults : Word
  discont : Word
  secOvf : Word
  unkStype : Word
  secDone : Word
  secDiscard : Word
  malformed : Word
  idxCount : Word
  /-- DMX_SEEN_PIDS (R54) -/
  seenPids : BitVec 14
  fltSel : Pid
  /-- the FLT_LEN shadow (R57) -/
  fltLenPos : BitVec 13
  fltLenSize : BitVec 13
  regs : DmxWide DWord
  shadow : DmxWide Word
  /-- SYNC_POLICY_L (R69) -/
  syncPolicyL : Bool
  /-- KEYFRAME_MODE_L (R69) -/
  keyframeModeL : Bool
  /-- IDX_L (R70); DMX_STATUS.IDX_FULL is whether it is full -/
  idxL : Option IdxRecord
deriving DecidableEq, Repr

/-- The registers and hidden state of one delivery channel (10_state.md sections 6 and 7). -/
structure Channel where
  /-- DLV_CONFIG: MAX_DURATION_S (R72) -/
  config : Word
  /-- DLV_STATUS.PHASE (R73) -/
  phase : DlvPhase
  term : Term
  stopReq : Bool
  epochValid : Bool
  residue : BitVec 11
  evt : BitVec 3
  evtEn : BitVec 3
  wfaults : Word
  resyncs : Word
  regs : DlvWide DWord
  shadow : DlvWide Word
  /-- MAX_DUR_L (R88) -/
  maxDurL : Word
  /-- RA, the read-ahead buffer (R89) -/
  ra : List Byte
deriving DecidableEq, Repr

/-- The implementation parameters of 00_scope.md R12 other than N_DLV, which is the number of channels. -/
structure HwParams where
  /-- RA_BUF_SIZE -/
  raBufSize : Nat
  /-- the rows of STYPE_MAP other than 0x1B -/
  stypeRows : List (Byte × Codec)
deriving DecidableEq, Repr

/-- The filter section buffers (20_memory.md R100 (b)): FLT[p].DATA[i] is at address 4096 * p + i. -/
abbrev Memory := List Host.Cell

/-! ## The environment: whose step is next, and what ENV answers (log entries 1, 16, 18) -/

/-- An answer of ENV to a port primitive (00_scope.md R15). -/
inductive PortAns where
  /-- ENV has not answered: the primitive holds -/
  | unanswered
  | bytes (b : List Byte)
  | eos (k : Nat)
  | fault
  /-- OK, a write's answer -/
  | ok
deriving DecidableEq, Repr

/-- One scheduled step of one agent, with what ENV draws for it. -/
inductive Action where
  /-- HOST: MemRead(addr, width) -/
  | hostRead (addr : BitVec 12) (width : Nat)
  /-- HOST: MemWrite(addr, width, v) -/
  | hostWrite (addr : BitVec 12) (width : Nat) (v : Word)
  /-- DMX; ENV answers its read of TS_IN with `ans` -/
  | dmx (ans : PortAns)
  /-- DLV[c]; ENV answers the port primitive of its phase with `ans` -/
  | dlv (c : Nat) (ans : PortAns)
  /-- ENV: the take step on IDX_OUT (44 R331) -/
  | take
  /-- ENV: WALL_NS moves to `ns` (60 R430) -/
  | wall (ns : DWord)
  /-- the platform: hardware reset (70 R450) -/
  | reset
deriving DecidableEq, Repr

/-- What stands outside TSCORE's own state: the schedule, the wall clock and what the output ports have delivered. -/
structure Env where
  /-- the steps still to come, next first -/
  sched : List Action
  /-- WALL_NS -/
  wallNs : DWord
  /-- the records IDX_OUT has delivered, oldest first -/
  idxOut : List IdxRecord
  /-- the chunks the sinks have taken, oldest first, each with its channel -/
  chOut : List (Nat × List Byte)
  /-- the words the host's reads have returned, oldest first -/
  hostRd : List Word
deriving DecidableEq, Repr

/-! ## The state -/

/-- The state of TSCORE (10_state.md R30) with its parameters and its environment. -/
structure State where
  hw : HwParams
  cmdStatus : CmdStatus
  /-- IRQ_STATUS[9:0] -/
  irqEvents : BitVec 10
  irqEnable : Word
  dmx : Dmx
  /-- FLT as a sparse list: PID and entry, rising, no entry at its reset value (R68) -/
  flt : List (Nat × Filter)
  /-- the filters' DATA -/
  mem : Memory
  /-- CH[0 .. N_DLV-1] -/
  ch : List Channel
  env : Env
deriving DecidableEq, Repr

/-! ## Reset values (70_reset_and_hazards.md R450, R451) -/

/-- The reset value of a filter-table entry (R66). -/
def Filter.reset : Filter where
  seen := false
  invalid := false
  active := false
  size := 0#13
  pos := 0#13
  codec := .none

/-- The same value for every 64-bit DMX register or shadow. -/
def DmxWide.const {α : Type} (v : α) : DmxWide α where
  offset := v
  faultOff := v
  pcrBaseNs := v
  pcrPrevNs := v
  durationNs := v
  lastDeltaNs := v
  bitrateBps := v
  pcrPrevOff := v

/-- The same value for every 64-bit channel register or shadow. -/
def DlvWide.const {α : Type} (v : α) : DlvWide α where
  chunks := v
  bytes := v
  epochWall := v
  epochStream := v
  firstTs := v
  prevTs := v
  lastGoodDelta := v
  curTs := v
  wakeNs := v
  lastDelay := v

/-- DMX after reset. -/
def Dmx.reset : Dmx where
  config := 0#2
  phase := .idle
  term := .none
  pmtValid := false
  pcrPidValid := false
  pcrSeen := false
  stopReq := false
  truncBytes := 0#8
  pmtPid := 0#13
  pcrPid := 0#13
  pktCount := 0#32
  syncFaults := 0#32
  discont := 0#32
  secOvf := 0#32
  unkStype := 0#32
  secDone := 0#32
  secDiscard := 0#32
  malformed := 0#32
  idxCount := 0#32
  seenPids := 0#14
  fltSel := 0#13
  fltLenPos := 0#13
  fltLenSize := 0#13
  regs := .const 0#64
  shadow := .const 0#32
  syncPolicyL := false
  keyframeModeL := false
  idxL := Option.none

/-- A channel after reset. -/
def Channel.reset : Channel where
  config := 0#32
  phase := .idle
  term := .none
  stopReq := false
  epochValid := false
  residue := 0#11
  evt := 0#3
  evtEn := 0#3
  wfaults := 0#32
  resyncs := 0#32
  regs := .const 0#64
  shadow := .const 0#32
  maxDurL := 0#32
  ra := []

/-- TSCORE right after reset, for `n` channels, the given parameters and the given environment. -/
def State.resetWith (n : Nat) (hw : HwParams) (env : Env) : State where
  hw := hw
  cmdStatus := { rejected := false, rejOpcode := 0#8, rejReason := .none }
  irqEvents := 0#10
  irqEnable := 0#32
  dmx := .reset
  flt := []
  mem := []
  ch := List.replicate n .reset
  env := env

/-- RA_BUF_SIZE 4096 and the default STYPE_MAP (DESIGN CHOICE, log entries 6 and 7). -/
def HwParams.default : HwParams where
  raBufSize := 4096
  stypeRows := defaultStypeRows

/-- Nothing scheduled, WALL_NS 0, nothing delivered yet (DESIGN CHOICE, log entries 1, 16 and 18). -/
def Env.initial : Env where
  sched := []
  wallNs := 0#64
  idxOut := []
  chOut := []
  hostRd := []

/-- The machine right after reset, with N_DLV = 2 (DESIGN CHOICE, log entry 5). -/
def State.reset : State := State.resetWith 2 .default .initial

end Sys2Proof.Machine
end

