-- ==== Sys2Proof/Machine/Flags.lean ====
section
/-! DEFINITION. Flags and status words. TSCORE has no condition codes (10_state.md R91): its flags are the event bits of
60_exceptions.md R400, the status bits of CMD_STATUS, DMX_STATUS and DLV_STATUS, and the interrupt line of R420. -/

namespace Sys2Proof.Machine

/-! ## Codes -/

/-- DMX_STATUS.STATE (10_state.md R42). -/
def DmxPhase.code : DmxPhase → BitVec 2
  | .idle => 0#2
  | .run => 1#2
  | .done => 2#2

/-- DLV_STATUS.PHASE (10_state.md R73). -/
def DlvPhase.code : DlvPhase → BitVec 3
  | .idle => 0#3
  | .fill => 1#3
  | .tsread => 2#3
  | .wait => 3#3
  | .write => 4#3
  | .done => 5#3

/-- The phases in which a channel's session runs (45 R351). -/
def DlvPhase.running : DlvPhase → Bool
  | .idle => false
  | .fill => true
  | .tsread => true
  | .wait => true
  | .write => true
  | .done => false

/-- TERM (60_exceptions.md R401). -/
def Term.code : Term → BitVec 4
  | .none => 0#4
  | .endOfSource => 1#4
  | .durationCap => 2#4
  | .cancelled => 3#4
  | .readFault => 4#4
  | .trackExhausted => 5#4
  | .syncAbort => 6#4

/-- REJ_REASON (10_state.md R37). -/
def RejReason.code : RejReason → BitVec 4
  | .none => 0#4
  | .opcode => 1#4
  | .reservedBits => 2#4
  | .busy => 3#4
  | .channel => 4#4

/-- The bit of IRQ_STATUS that latches the event (10_state.md R38). -/
def IrqEvent.bit : IrqEvent → Nat
  | .cmdErr => 0
  | .dmxDone => 1
  | .syncFault => 2
  | .discont => 3
  | .secOvf => 4
  | .unkStype => 5
  | .secDiscard => 6
  | .malformed => 7
  | .table => 8
  | .trunc => 9

/-- The bit of DLV_EVT that latches the event (10_state.md R74). -/
def DlvEvent.bit : DlvEvent → Nat
  | .done => 0
  | .writeFault => 1
  | .resync => 2

/-! ## Raising and clearing events -/

/-- `raise Event(E)` for the events latched in IRQ_STATUS (00_scope.md R16, 60 R400). The caller's rule goes on after it
(log entry 10), and counts the event itself. -/
def State.raise (s : State) (e : IrqEvent) : State :=
  { s with irqEvents := s.irqEvents ||| 1#10 <<< e.bit }

/-- The event is latched in IRQ_STATUS. -/
def State.latched (s : State) (e : IrqEvent) : Bool := s.irqEvents.getLsbD e.bit

/-- `raise Event(E)` for the events latched in a channel's DLV_EVT. -/
def Channel.raise (k : Channel) (e : DlvEvent) : Channel :=
  { k with evt := k.evt ||| 1#3 <<< e.bit }

/-- The event is latched in DLV_EVT. -/
def Channel.latched (k : Channel) (e : DlvEvent) : Bool := k.evt.getLsbD e.bit

/-- The W1C write of 10_state.md R33: the bits written 1 are cleared, the others kept. -/
def w1c {n : Nat} (old v : BitVec n) : BitVec n := old &&& ~~~v

/-! ## Status words -/

/-- A field `v` of a 32-bit register at bit `lo`. -/
def fieldAt {n : Nat} (v : BitVec n) (lo : Nat) : Word := v.setWidth 32 <<< lo

/-- A flag of a 32-bit register at bit `lo`. -/
def flagAt (b : Bool) (lo : Nat) : Word := fieldAt (boolBit b) lo

/-- CMD_STATUS (10_state.md R37). -/
def CmdStatus.word (c : CmdStatus) : Word :=
  flagAt c.rejected 0 ||| fieldAt c.rejOpcode 8 ||| fieldAt c.rejReason.code 16

/-- DMX_STATUS.IDX_FULL: the index latch holds a record (10_state.md R70). -/
def Dmx.idxFull (d : Dmx) : Bool := d.idxL.isSome

/-- DMX_STATUS (10_state.md R42). -/
def Dmx.statusWord (d : Dmx) : Word :=
  fieldAt d.phase.code 0 ||| fieldAt d.term.code 4 ||| flagAt d.pmtValid 8 ||| flagAt d.pcrPidValid 9
    ||| flagAt d.pcrSeen 10 ||| flagAt d.idxFull 11 ||| flagAt d.stopReq 12 ||| fieldAt d.truncBytes 16

/-- DLV_STATUS (10_state.md R73). -/
def Channel.statusWord (k : Channel) : Word :=
  fieldAt k.phase.code 0 ||| fieldAt k.term.code 4 ||| flagAt k.stopReq 8 ||| flagAt k.epochValid 9
    ||| fieldAt k.residue 16

/-- FLT_INFO of one filter (10_state.md R56). -/
def Filter.infoWord (f : Filter) : Word :=
  flagAt f.seen 0 ||| flagAt f.invalid 1 ||| flagAt f.active 2 ||| fieldAt f.codec.code 4

/-- FLT_LEN from its shadow (10_state.md R57). -/
def Dmx.fltLenWord (d : Dmx) : Word := fieldAt d.fltLenPos 0 ||| fieldAt d.fltLenSize 16

/-! ## The interrupt line (60_exceptions.md R420) -/

/-- The channel has an enabled event latched: its summary bit of IRQ_STATUS (10_state.md R38). -/
def Channel.summary (k : Channel) : Bool := k.evt &&& k.evtEn != 0#3

/-- The summary bits of the channels `ks`, the first of them channel `c`: bit 16 + c and up. -/
def summaryBits : List Channel → Nat → Word
  | [], _ => 0#32
  | k :: ks, c => flagAt k.summary (16 + c) ||| summaryBits ks (c + 1)

/-- IRQ_STATUS as the host reads it (10_state.md R38). -/
def State.irqStatusWord (s : State) : Word := fieldAt s.irqEvents 0 ||| summaryBits s.ch 0

/-- The IRQ output: an enabled bit of IRQ_STATUS is set (60_exceptions.md R420). -/
def State.irq (s : State) : Bool := s.irqStatusWord &&& s.irqEnable != 0#32

/-- The writable bits of IRQ_ENABLE for `n` channels: 9:0, and 16 + c for c < n (10_state.md R39). -/
def irqEnableMask (n : Nat) : Word := 0x3FF#32 ||| BitVec.ofNat 32 (2 ^ n - 1) <<< 16

/-- HW_CFG for `n` channels (10_state.md R40). -/
def hwCfgWord (n : Nat) : Word := fieldAt (BitVec.ofNat 5 n) 0 ||| fieldAt Config.syncByte 8

end Sys2Proof.Machine
end

