-- ==== Sys2Proof/Machine/Ops.lean ====
section
/-! DEFINITION. The named operations over the state: sparse tables in canonical form, the filter table and its buffers,
the Int arithmetic of 00_scope.md R13, command acceptance and rejection (40 R199), and termination (60 R402), which is
TSCORE's only diversion of an agent (it has no trap: log entry 23). -/

namespace Sys2Proof.Machine

/-! ## Sparse tables: keys rising, no entry equal to what an unlisted key reads as -/

/-- What key `a` reads as; `d` where it is not listed. -/
def sparseGet {α : Type} (d : α) : List (Nat × α) → Nat → α
  | [], _ => d
  | (k, v) :: m, a => if a < k then d else if a = k then v else sparseGet d m a

/-- The table with `v` at key `a`; the entry goes away where `v` is what an unlisted key reads as. -/
def sparsePut {α : Type} [DecidableEq α] (d : α) (a : Nat) (v : α) : List (Nat × α) → List (Nat × α)
  | [] => if v = d then [] else [(a, v)]
  | (k, w) :: m =>
    if a < k then (if v = d then (k, w) :: m else (a, v) :: (k, w) :: m)
    else if a = k then (if v = d then m.dropWhile (fun e => decide (e.1 ≤ a)) else (a, v) :: m)
    else (k, w) :: sparsePut d a v m

/-- Every key is at least `lo` and below `hi`, the keys rise strictly, and no value is `d`. -/
def sparseWf {α : Type} [DecidableEq α] (d : α) (lo hi : Nat) : List (Nat × α) → Bool
  | [] => true
  | (k, v) :: m => decide (lo ≤ k) && decide (k < hi) && decide (v ≠ d) && sparseWf d (k + 1) hi m

/-- Addresses of the filter buffers: 8192 buffers of 4096 bytes (20_memory.md R100 (b)). -/
def memorySize : Nat := 8192 * Config.maxSection

/-- What a byte of a filter buffer that nothing has written reads as (DESIGN CHOICE, log entry 8). -/
def unwrittenByte : Byte := 0#8

/-- The canonical form of the filter buffers. -/
def Memory.wf (m : Memory) : Bool := sparseWf unwrittenByte 0 memorySize m

/-- One byte of the filter buffers. -/
def Memory.read (m : Memory) (a : Nat) : Byte := sparseGet unwrittenByte m a

/-- The filter buffers with `v` at `a`. -/
def Memory.write (m : Memory) (a : Nat) (v : Byte) : Memory := sparsePut unwrittenByte a v m

/-! ## The filter table (10_state.md R66, R68) -/

/-- The address of FLT[p].DATA[i]. -/
def dataAddr (p : Pid) (i : Nat) : Nat := Config.maxSection * p.toNat + i

/-- FLT[p]. -/
def State.filter (s : State) (p : Pid) : Filter := sparseGet Filter.reset s.flt p.toNat

/-- FLT[p] <- f. -/
def State.setFilter (s : State) (p : Pid) (f : Filter) : State :=
  { s with flt := sparsePut Filter.reset p.toNat f s.flt }

/-- The canonical form of the filter table. -/
def fltWf (t : List (Nat × Filter)) : Bool := sparseWf Filter.reset 0 8192 t

/-- FLT[p].DATA[i]. -/
def State.data (s : State) (p : Pid) (i : Nat) : Byte := Memory.read s.mem (dataAddr p i)

/-- FLT[p].DATA[i] <- x; a fault outside the 4096 bytes of the buffer (20_memory.md R120, log entry 9). -/
def State.writeData (s : State) (p : Pid) (i : Nat) (x : Byte) : Except Fault State :=
  if i < Config.maxSection then .ok { s with mem := Memory.write s.mem (dataAddr p i) x }
  else .error .filterOverrun

/-- FLT[p].DATA[0 .. n-1]. -/
def State.sectionBytes (s : State) (p : Pid) (n : Nat) : List Byte := (List.range n).map (s.data p)

/-! ## Updates of one part -/

/-- The DMX part becomes `d`. -/
def State.setDmx (s : State) (d : Dmx) : State := { s with dmx := d }

/-- Channel `c` becomes `k`. -/
def State.setCh (s : State) (c : Nat) (k : Channel) : State := { s with ch := s.ch.set c k }

/-- The environment becomes `e`. -/
def State.setEnv (s : State) (e : Env) : State := { s with env := e }

/-- N_DLV (00_scope.md R12). -/
def State.nDlv (s : State) : Nat := s.ch.length

/-- `Now()`: WALL_NS sampled in this step (00_scope.md R15). -/
def State.now (s : State) : DWord := s.env.wallNs

/-! ## Int arithmetic (00_scope.md R13) -/

/-- `wrap64`: the i64 congruent to `x` modulo 2^64. -/
def wrap64 (x : Int) : Int := (BitVec.ofInt 64 x).toInt

/-- `uwrap64`: the 64-bit register that holds `x` modulo 2^64. It also stores an i64. -/
def uwrap64 (x : Int) : DWord := BitVec.ofInt 64 x

/-- `ticks_to_ns` on Int, truncating toward zero. -/
def ticksToNs (t : Int) : Int := (t * Config.nsNum).tdiv Config.nsDen

/-- A register read as u64. -/
def u64 (v : DWord) : Int := v.toNat

/-- A register read as i64. -/
def i64 (v : DWord) : Int := v.toInt

/-! ## Commands (40_host_commands.md R199) -/

/-- `reject(r)` of the command word with the given OPCODE. -/
def State.reject (s : State) (opcode : Byte) (r : RejReason) : State :=
  { s with cmdStatus := { rejected := true, rejOpcode := opcode, rejReason := r } }.raise .cmdErr

/-- `accept`: only REJECTED changes. -/
def State.accept (s : State) : State :=
  { s with cmdStatus := { s.cmdStatus with rejected := false } }

/-! ## Termination (60_exceptions.md R402) and its return, the START of a new session (R404) -/

/-- `terminate(DMX, T)`. -/
def State.terminateDmx (s : State) (t : Term) : State :=
  { s with dmx := { s.dmx with phase := .done, term := t, stopReq := false } }.raise .dmxDone

/-- `terminate(DLV[c], T)` on the channel. -/
def Channel.terminate (k : Channel) (t : Term) : Channel :=
  { k with phase := .done, term := t, stopReq := false, ra := [] }.raise .done

/-- A DMX session begins (40 R201 after `accept`, less the filter table): the configuration is latched, every session
register is 0, and the latch and the registers that R201 and 70 R453 do not name keep their values. DMX_SEEN_PIDS is 0
because every SEEN is (R54, log entry 11). -/
def Dmx.start (d : Dmx) : Dmx :=
  { d with
    phase := .run
    term := .none
    pmtValid := false
    pcrPidValid := false
    pcrSeen := false
    stopReq := false
    truncBytes := 0#8
    pmtPid := 0#13
    pcrPid := 0#13
    pktCount := 0#32
    syncFaults := 0#32
    discont := 0#32
    secOvf := 0#32
    unkStype := 0#32
    secDone := 0#32
    secDiscard := 0#32
    malformed := 0#32
    idxCount := 0#32
    seenPids := 0#14
    regs := .const 0#64
    syncPolicyL := d.config.getLsbD 0
    keyframeModeL := d.config.getLsbD 1 }

/-- A channel session begins (40 R204 after `accept`): the configuration is latched and every session register is 0;
DLV_EVT, DLV_EVT_EN, DLV_CONFIG and the shadows keep their values. -/
def Channel.start (k : Channel) : Channel :=
  { k with
    phase := .fill
    term := .none
    stopReq := false
    epochValid := false
    residue := 0#11
    wfaults := 0#32
    resyncs := 0#32
    regs := .const 0#64
    maxDurL := k.config
    ra := [] }

/-- The hardware reset of 70 R450: every register, latch, shadow and buffer at its reset value. The parameters are the
hardware's own; ports and wall clock are outside TSCORE (R452). -/
def State.hardReset (s : State) : State := State.resetWith s.nDlv s.hw s.env

/-! ## Counted events of DMX: each counts itself once and raises its event (60_exceptions.md R400) -/

/-- DMX_MALFORMED and MALFORMED (10_state.md R52). -/
def State.noteMalformed (s : State) : State :=
  (s.setDmx { s.dmx with malformed := s.dmx.malformed + 1#32 }).raise .malformed

/-- DMX_SEC_DISCARD and SEC_DISCARD (10_state.md R51). -/
def State.noteSecDiscard (s : State) : State :=
  (s.setDmx { s.dmx with secDiscard := s.dmx.secDiscard + 1#32 }).raise .secDiscard

/-- DMX_SEC_OVF and SEC_OVF (10_state.md R48). -/
def State.noteSecOvf (s : State) : State :=
  (s.setDmx { s.dmx with secOvf := s.dmx.secOvf + 1#32 }).raise .secOvf

/-- DMX_UNK_STYPE and UNK_STYPE (10_state.md R49). -/
def State.noteUnkStype (s : State) : State :=
  (s.setDmx { s.dmx with unkStype := s.dmx.unkStype + 1#32 }).raise .unkStype

/-- DMX_SEC_DONE and TABLE (10_state.md R50). -/
def State.noteTable (s : State) : State :=
  (s.setDmx { s.dmx with secDone := s.dmx.secDone + 1#32 }).raise .table

/-- DMX_DISCONT and DISCONT (10_state.md R47). -/
def State.noteDiscont (s : State) : State :=
  (s.setDmx { s.dmx with discont := s.dmx.discont + 1#32 }).raise .discont

/-- DMX_SYNC_FAULTS, DMX_FAULT_OFF and SYNC_FAULT (10_state.md R46, R59). -/
def State.noteSyncFault (s : State) (off : DWord) : State :=
  (s.setDmx { s.dmx with
    syncFaults := s.dmx.syncFaults + 1#32
    regs := { s.dmx.regs with faultOff := off } }).raise .syncFault

/-! ## Outcomes -/

/-- The outcome of an instruction whose operations may fault. -/
def finish : Except Fault State → Host.Outcome State Fault Refusal
  | .ok s => .next s
  | .error f => .fault f

end Sys2Proof.Machine
end

