-- ==== Sys2Proof/Machine/Operands.lean ====
section
/-! DEFINITION. The operand forms of a packet: the adaptation field and its PCR (30_encoding.md R138, R139, 41 R235),
the payload (R236 to R238), and the fields of the sections, track entries and records (R140 to R143, R153, R155). -/

namespace Sys2Proof.Machine

/-! ## The adaptation field -/

/-- What AFDecode answers (41 R235); `malformed` is whether it raises MALFORMED. -/
structure Af where
  afOk : Bool
  pcrPresent : Bool
  rai : Bool
  base : BitVec 33
  ext : BitVec 9
  /-- PS, where the payload starts in the packet -/
  ps : Nat
  malformed : Bool
deriving DecidableEq, Repr

/-- The result for a packet without an adaptation field (41 R237). -/
def Af.absent : Af where
  afOk := true
  pcrPresent := false
  rai := false
  base := 0#33
  ext := 0#9
  ps := 4
  malformed := false

/-- b[i] of a packet whose bytes from b[4] on are `body`. -/
def packetByte (body : List Byte) (i : Nat) : Byte := byteAt body (i - 4)

/-- `P = be48(b[6], .., b[11])` (30_encoding.md R139). -/
def pcrField (body : List Byte) : BitVec 48 := BitVec.ofNat 48 (beNat ((body.drop 2).take 6))

/-- `AFDecode` (41 R235) on a packet's bytes from b[4] on. -/
def afDecode (body : List Byte) : Af :=
  let l := (packetByte body 4).toNat
  let flags := packetByte body 5
  if 183 < l then
    { Af.absent with afOk := false, ps := 188, malformed := true }
  else if l = 0 then
    { Af.absent with ps := 5 }
  else if !flags.getLsbD 4 then
    { Af.absent with rai := flags.getLsbD 6, ps := 5 + l }
  else if l < 7 then
    { Af.absent with rai := flags.getLsbD 6, ps := 5 + l, malformed := true }
  else
    { Af.absent with
      pcrPresent := true
      rai := flags.getLsbD 6
      base := (pcrField body).extractLsb' 15 33
      ext := (pcrField body).extractLsb' 0 9
      ps := 5 + l }

/-- b[PS .. 187]. -/
def payloadFrom (ps : Nat) (body : List Byte) : List Byte := body.drop (ps - 4)

/-! ## Sections -/

/-- The 13-bit PID in two bytes, the high one first, its bits 7:5 ignored (30_encoding.md R142, R143). -/
def pid13 (hi lo : Byte) : Pid := (hi ++ lo).extractLsb' 0 13

/-- The 12-bit length in two bytes, the high one first, its bits 7:4 ignored (30_encoding.md R141, R143). -/
def len12 (hi lo : Byte) : BitVec 12 := (hi ++ lo).extractLsb' 0 12

/-- The section size `3 + section_length` (30_encoding.md R141). -/
def sectionSize (d1 d2 : Byte) : BitVec 13 := 3#13 + (len12 d1 d2).setWidth 13

/-! ## The timestamp track and the index record -/

/-- `ts = be64(t[0], .., t[7])` (30_encoding.md R153). -/
def trackEntry (t : List Byte) : DWord := BitVec.ofNat 64 (beNat t)

/-- The 32-byte form of an index record (30_encoding.md R155). -/
def IdxRecord.bytes (r : IdxRecord) : List Byte :=
  toBytesBE 8 r.offset.toNat ++ toBytesBE 8 r.pcrNs.toNat ++ toBytesBE 8 r.durationNs.toNat
    ++ [(boolBit r.keyframe).setWidth 8] ++ List.replicate 7 0#8

/-- The decimal digits of `n`, as ASCII bytes, given more fuel than digits. -/
def decimal : (fuel : Nat) → Nat → List Byte
  | 0, _ => []
  | f + 1, n =>
    if n < 10 then [BitVec.ofNat 8 (48 + n)] else decimal f (n / 10) ++ [BitVec.ofNat 8 (48 + n % 10)]

/-- A signed decimal number, as ASCII bytes. -/
def signedDecimal (n : Int) : List Byte :=
  if n < 0 then 45#8 :: decimal 20 n.natAbs else decimal 20 n.natAbs

/-- An ASCII string as bytes. -/
def ascii (t : String) : List Byte := t.toList.map (fun c => BitVec.ofNat 8 c.toNat)

/-- `"k":`, a key of the JSON form. -/
def jsonKey (k : String) : List Byte := 34#8 :: ascii k ++ [34#8, 58#8]

/-- The JSON line of an index record, the host-side convention of 44 R335: keys d, p, o, k, no spaces, one line feed
(123 and 125 are the braces). -/
def IdxRecord.jsonLine (r : IdxRecord) : List Byte :=
  [123#8] ++ jsonKey "d" ++ signedDecimal (i64 r.durationNs) ++ [44#8]
    ++ jsonKey "p" ++ decimal 20 r.pcrNs.toNat ++ [44#8]
    ++ jsonKey "o" ++ decimal 20 r.offset.toNat ++ [44#8]
    ++ jsonKey "k" ++ ascii (if r.keyframe then "true" else "false") ++ [125#8, 10#8]

end Sys2Proof.Machine
end

