-- ==== Sys2Proof/Machine/Delivery.lean ====
section
/-! DEFINITION. The delivery channel (45_delivery_scheduler.md): one phase step of one channel, on that channel alone
(R377). -/

namespace Sys2Proof.Machine

/-- What a step of a channel comes to. -/
inductive ChanStep where
  /-- the channel has no enabled step (00_scope.md R9) -/
  | hold
  /-- the scheduled answer is none that R15 lets ENV give to this step's primitive -/
  | badAnswer
  /-- the channel's next state, and the chunk its sink took, if any -/
  | go (k : Channel) (sent : Option (List Byte))
deriving DecidableEq, Repr

/-- `t2ns` (R359). -/
def t2ns (x : Int) : Int := (wrap64 (x * Config.nsNum)).tdiv Config.nsDen

/-- The stream time since `origin`, in ns (R359, R365). -/
def streamNs (ts origin : DWord) : Int := t2ns (wrap64 (u64 ts - u64 origin))

/-- The delay of a check point: stream time ahead of wall time (R359). -/
def checkDelay (k : Channel) (ts now : DWord) : Int :=
  wrap64 (streamNs ts k.regs.epochStream - wrap64 (u64 now - u64 k.regs.epochWall))

/-- The duration cap is set and passed (R359, R362). -/
def capPassed (k : Channel) (ts : DWord) : Bool :=
  k.maxDurL != 0#32 && decide ((k.maxDurL.toNat * Config.nsPerS : Int) < streamNs ts k.regs.firstTs)

/-- The resync (R364): the epoch is the pair sampled at this check. -/
def Channel.resync (k : Channel) (ts now : DWord) : Channel :=
  { k with
    regs := { k.regs with epochWall := now, epochStream := ts }
    resyncs := k.resyncs + 1#32
    phase := .write }.raise .resync

/-- Check (R359): cap, throttle, resync, in this order. -/
def Channel.check (k : Channel) (ts now : DWord) : Channel :=
  if capPassed k ts then k.terminate .durationCap
  else
    let delay := checkDelay k ts now
    let k1 := { k with regs := { k.regs with lastDelay := uwrap64 delay } }
    if 0 < delay then
      { k1 with regs := { k1.regs with wakeNs := uwrap64 (u64 now + delay) }, phase := .wait }
    else if delay < -(Config.lateBoundNs : Int) then k1.resync ts now
    else { k1 with phase := .write }

/-- The epoch capture of chunk 0 (R355, R356). -/
def Channel.captureEpoch (k : Channel) (ts now : DWord) : Channel :=
  { k with
    regs := { k.regs with epochWall := now, epochStream := ts, firstTs := ts, prevTs := ts }
    epochValid := true
    phase := .write }

/-- LAST_GOOD_DELTA and PREV_TS (R355, R357). -/
def Channel.noteTs (k : Channel) (ts : DWord) : Channel :=
  { k with regs := { k.regs with
    lastGoodDelta := if k.regs.prevTs.toNat ≤ ts.toNat then ts - k.regs.prevTs else k.regs.lastGoodDelta
    prevTs := ts } }

/-- A chunk's timestamp has been read (R355). -/
def Channel.timestamp (k : Channel) (ts now : DWord) : Channel :=
  let k1 := { k with regs := { k.regs with curTs := ts } }
  if k.regs.chunks = 0#64 then k1.captureEpoch ts now
  else if k.regs.chunks.toNat % Config.checkInterval = 0 then (k1.noteTs ts).check ts now
  else { k1.noteTs ts with phase := .write }

/-- The phase that follows when RA holds `n` bytes (R353, R374). -/
def phaseFor (n : Nat) : DlvPhase := if Config.chunkSize ≤ n then .tsread else .fill

/-- FILL (R353). -/
def Channel.fillStep (k : Channel) (raBufSize : Nat) : PortAns → ChanStep
  | .unanswered => .hold
  | .bytes b =>
    if 1 ≤ b.length ∧ k.ra.length + b.length ≤ raBufSize then
      .go { k with ra := k.ra ++ b, phase := phaseFor (k.ra ++ b).length } none
    else .badAnswer
  | .eos n =>
    if n = 0 then .go ({ k with residue := BitVec.ofNat 11 k.ra.length }.terminate .endOfSource) none
    else .badAnswer
  | .fault => .go (k.terminate .readFault) none
  | .ok => .badAnswer

/-- TSREAD (R355). -/
def Channel.tsreadStep (k : Channel) (now : DWord) : PortAns → ChanStep
  | .unanswered => .hold
  | .bytes t =>
    if t.length = Config.trkEntry then .go (k.timestamp (trackEntry t) now) none else .badAnswer
  | .eos j => if j < Config.trkEntry then .go (k.terminate .trackExhausted) none else .badAnswer
  | .fault => .go (k.terminate .readFault) none
  | .ok => .badAnswer

/-- WAIT (R372): enabled from WALL_NS ≥ WAKE_NS on. -/
def Channel.waitStep (k : Channel) (now : DWord) : ChanStep :=
  if k.regs.wakeNs.toNat ≤ now.toNat then .go { k with phase := .write } none else .hold

/-- The chunk is consumed, taken or not (R374). -/
def Channel.consume (k : Channel) : Channel :=
  { k with
    ra := k.ra.drop Config.chunkSize
    regs := { k.regs with chunks := uwrap64 (u64 k.regs.chunks + 1) }
    phase := phaseFor (k.ra.drop Config.chunkSize).length }

/-- A chunk write answered OK (R374). -/
def Channel.writeOk (k : Channel) : Channel :=
  { k with regs := { k.regs with bytes := uwrap64 (u64 k.regs.bytes + Config.chunkSize) } }.consume

/-- A chunk write answered FAULT (R374). -/
def Channel.writeFault (k : Channel) : Channel :=
  ({ k with wfaults := k.wfaults + 1#32 }.raise .writeFault).consume

/-- WRITE (R374). -/
def Channel.writeStep (k : Channel) : PortAns → ChanStep
  | .unanswered => .hold
  | .ok => .go k.writeOk (some (k.ra.take Config.chunkSize))
  | .fault => .go k.writeFault none
  | .bytes _ => .badAnswer
  | .eos _ => .badAnswer

/-- The step selection of a channel (R351): the cancel step of R360 before the step of the phase. An answer to a
primitive that is not called (a cancelled read or write, a WAIT) never reaches the channel. -/
def Channel.step (k : Channel) (raBufSize : Nat) (now : DWord) (ans : PortAns) : ChanStep :=
  if k.phase.running && k.stopReq then .go (k.terminate .cancelled) none
  else
    match k.phase with
    | .idle => .hold
    | .fill => k.fillStep raBufSize ans
    | .tsread => k.tsreadStep now ans
    | .wait => k.waitStep now
    | .write => k.writeStep ans
    | .done => .hold

end Sys2Proof.Machine
end

