-- ==== Sys2Proof/Machine/Commands.lean ====
section
/-! DEFINITION. The six host commands (40_host_commands.md R199 to R205). -/

namespace Sys2Proof.Machine

/-- NOP (R200). -/
def execNop (s : State) : Host.Outcome State Fault Refusal := .next s.accept

/-- DMX_START (R201). -/
def execDmxStart (s : State) : Host.Outcome State Fault Refusal :=
  if s.dmx.phase = .run ∨ s.dmx.idxFull then .next (s.reject 0x01#8 .busy)
  else .next { s.accept with dmx := s.dmx.start, flt := [] }

/-- DMX_STOP (R202). -/
def execDmxStop (s : State) : Host.Outcome State Fault Refusal :=
  if s.dmx.phase = .run then .next (s.accept.setDmx { s.dmx with stopReq := true })
  else .next s.accept

/-- FLT_RESET (R203): SEEN and CODEC are kept. -/
def execFltReset (pid : Pid) (s : State) : Host.Outcome State Fault Refusal :=
  .next (s.accept.setFilter pid
    { s.filter pid with invalid := false, active := false, size := 0#13, pos := 0#13 })

/-- DLV_START (R204): the channel range is checked before the session (R199). -/
def execDlvStart (chan : Chan) (s : State) : Host.Outcome State Fault Refusal :=
  match s.ch[chan.toNat]? with
  | none => .next (s.reject 0x10#8 .channel)
  | some k =>
    if k.phase.running then .next (s.reject 0x10#8 .busy)
    else .next (s.accept.setCh chan.toNat k.start)

/-- DLV_STOP (R205). -/
def execDlvStop (chan : Chan) (s : State) : Host.Outcome State Fault Refusal :=
  match s.ch[chan.toNat]? with
  | none => .next (s.reject 0x11#8 .channel)
  | some k =>
    if k.phase.running then .next (s.accept.setCh chan.toNat { k with stopReq := true })
    else .next s.accept

end Sys2Proof.Machine
end

