-- ==== Sys2Proof/Machine/Clock.lean ====
section
/-! DEFINITION. The PCR clock tracker (43_clock_tracker.md) and the index builder (44_index_builder.md). -/

namespace Sys2Proof.Machine

/-! ## The clock tracker -/

/-- PcrToNs (R301). -/
def pcrToNs (base : BitVec 33) (ext : BitVec 9) : DWord :=
  uwrap64 (ticksToNs (base.toNat * Config.pcrMul + ext.toNat))

/-- The delta of a later PCR (R303). -/
def pcrDelta (d : Dmx) (ns : DWord) : Int := u64 ns - u64 d.regs.pcrPrevNs

/-- The delta is a discontinuity (R303, R304). -/
def isDiscontinuity (delta : Int) : Bool := delta < 0 || (Config.pcrDeltaCeilNs : Int) < delta

/-- BITRATE_BPS for a valid positive delta (R307). -/
def bitrate (dist delta : Int) : DWord := uwrap64 ((dist * 8 * 1000000000).tdiv delta)

/-- The first PCR of the session (R302). -/
def Dmx.firstPcr (d : Dmx) (ns off : DWord) : Dmx :=
  { d with pcrSeen := true, regs := { d.regs with pcrBaseNs := ns, pcrPrevNs := ns, pcrPrevOff := off } }

/-- R308: every later PCR becomes the previous one. -/
def Dmx.setPrev (d : Dmx) (ns off : DWord) : Dmx :=
  { d with regs := { d.regs with pcrPrevNs := ns, pcrPrevOff := off } }

/-- A valid delta (R306), with the bitrate of R307 where it is positive. -/
def Dmx.validDelta (d : Dmx) (delta : Int) (off : DWord) : Dmx :=
  { d with regs := { d.regs with
    durationNs := uwrap64 (i64 d.regs.durationNs + delta)
    lastDeltaNs := uwrap64 delta
    bitrateBps := if 0 < delta then bitrate (u64 off - u64 d.regs.pcrPrevOff) delta else d.regs.bitrateBps } }

/-- The duration part of a discontinuity (R305): the last trusted delta is applied. -/
def Dmx.frozenDelta (d : Dmx) : Dmx :=
  { d with regs := { d.regs with durationNs := uwrap64 (i64 d.regs.durationNs + i64 d.regs.lastDeltaNs) } }

/-- ClockTrack (R302, R303, R308). -/
def State.clockTrack (s : State) (ns off : DWord) : State :=
  if s.dmx.pcrSeen then
    let delta := pcrDelta s.dmx ns
    if isDiscontinuity delta then
      (s.setDmx (s.dmx.frozenDelta.setPrev ns off)).noteDiscont
    else s.setDmx ((s.dmx.validDelta delta off).setPrev ns off)
  else s.setDmx (s.dmx.firstPcr ns off)

/-! ## The index builder -/

/-- IndexEmit (44 R330). -/
def State.indexEmit (s : State) (off ns dur : DWord) (rai : Bool) : State :=
  s.setDmx { s.dmx with
    idxL := some { offset := off, pcrNs := ns, durationNs := dur, keyframe := !s.dmx.keyframeModeL && rai }
    idxCount := s.dmx.idxCount + 1#32 }

/-- The take step on IDX_OUT (44 R331): the latch's record goes to the consumer. Without a record it is not enabled and
nothing happens (log entry 2). -/
def State.takeRecord (s : State) : State :=
  match s.dmx.idxL with
  | some r => { s with dmx := { s.dmx with idxL := none }, env := { s.env with idxOut := s.env.idxOut ++ [r] } }
  | none => s

end Sys2Proof.Machine
end

