-- ==== Sys2Proof/Machine/Sections.lean ====
section
/-! DEFINITION. The section reassembler and the PAT and PMT parsers (42_section_reassembler.md). -/

namespace Sys2Proof.Machine

/-- `is_section_pid` (R260). -/
def State.isSectionPid (s : State) (p : Pid) : Bool :=
  p == 0#13 || (s.dmx.pmtValid && p == s.dmx.pmtPid)

/-! ## The table parsers -/

/-- The walk of ParsePAT (R267) from offset `off`: the PID of the first entry with a nonzero program number. The fuel is
at least the number of entries. -/
def patWalk (d : List Byte) (size : Nat) : (fuel : Nat) → (off : Nat) → Option Pid
  | 0, _ => none
  | fuel + 1, off =>
    if off + 4 + 4 ≤ size then
      if byteAt d off ++ byteAt d (off + 1) ≠ 0#16 then some (pid13 (byteAt d (off + 2)) (byteAt d (off + 3)))
      else patWalk d size fuel (off + 4)
    else none

/-- ParsePAT (R267). -/
def State.parsePat (s : State) (d : List Byte) (size : Nat) : State :=
  match patWalk d size size 8 with
  | some pid => s.setDmx { s.dmx with pmtPid := pid, pmtValid := true }
  | none => s

/-- One elementary-stream entry of ParsePMT (R269): its codec, or UNK_STYPE. -/
def State.pmtEntry (s : State) (st : Byte) (epid : Pid) : State :=
  let c := stypeMap s.hw.stypeRows st
  if c = .none then s.noteUnkStype
  else s.setFilter epid { s.filter epid with codec := c }

/-- The walk of ParsePMT (R269) over the elementary-stream entries from offset `off`. -/
def pmtWalk (d : List Byte) (size : Nat) : (fuel : Nat) → (off : Nat) → State → State
  | 0, _, s => s
  | fuel + 1, off, s =>
    if off + 5 + 4 ≤ size then
      pmtWalk d size fuel (off + 5 + (len12 (byteAt d (off + 3)) (byteAt d (off + 4))).toNat)
        (s.pmtEntry (byteAt d off) (pid13 (byteAt d (off + 1)) (byteAt d (off + 2))))
    else s

/-- ParsePMT (R269). -/
def State.parsePmt (s : State) (d : List Byte) (size : Nat) : State :=
  if size < 16 then s.noteMalformed
  else
    pmtWalk d size size (12 + (len12 (byteAt d 10) (byteAt d 11)).toNat)
      (s.setDmx { s.dmx with pcrPid := pid13 (byteAt d 8) (byteAt d 9), pcrPidValid := true })

/-! ## Accumulation -/

/-- Dispatch (R266): the parser of the PID, then the cleared filter. -/
def State.dispatch (s : State) (p : Pid) : State :=
  let size := (s.filter p).size.toNat
  let d := s.sectionBytes p size
  let s1 := s.noteTable
  let s2 := if p = 0#13 then s1.parsePat d size else s1.parsePmt d size
  s2.setFilter p { s2.filter p with active := false, pos := 0#13, size := 0#13 }

/-- Overflow (R265): the filter is invalid, SIZE and POS keep their values. -/
def State.overflow (s : State) (p : Pid) : State :=
  (s.setFilter p { s.filter p with invalid := true, active := false }).noteSecOvf

/-- What AppendByte (R264) does once the byte is stored and POS advanced: the size after the third byte, and at the
section's end the dispatch. -/
def State.appended (s : State) (p : Pid) : State :=
  let f := s.filter p
  if f.size = 0#13 ∧ f.pos = 3#13 then
    let size := sectionSize (s.data p 1) (s.data p 2)
    let s1 := s.setFilter p { f with size := size }
    if Config.maxSection < size.toNat then s1.overflow p
    else if f.pos = size then s1.dispatch p
    else s1
  else if f.size ≠ 0#13 ∧ f.pos = f.size then s.dispatch p
  else s

/-- AppendByte (R264). -/
def State.appendByte (s : State) (p : Pid) (x : Byte) : Except Fault State :=
  match s.writeData p (s.filter p).pos.toNat x with
  | .ok s1 => .ok ((s1.setFilter p { s1.filter p with pos := (s1.filter p).pos + 1#13 }).appended p)
  | .error e => .error e

/-- Append (R263): bytes after the section's end are dropped. -/
def State.append (s : State) (p : Pid) : List Byte → Except Fault State
  | [] => .ok s
  | x :: xs =>
    if (s.filter p).active then
      match s.appendByte p x with
      | .ok s1 => s1.append p xs
      | .error e => .error e
    else .ok s

/-- The filter of a payload-start packet before its first section byte: nothing in progress, size unknown (R261). -/
def Filter.cleared (f : Filter) : Filter := { f with active := false, size := 0#13, pos := 0#13 }

/-- SectionInput (R261). -/
def State.sectionInput (s : State) (p : Pid) (pusi : Bool) (payload : List Byte) : Except Fault State :=
  let f := s.filter p
  if f.invalid then .ok s
  else if pusi then
    let s1 := if f.active then s.noteSecDiscard else s
    let n := (byteAt payload 0).toNat
    if payload.length < 1 + n then .ok (s1.setFilter p f.cleared).noteMalformed
    else (s1.setFilter p { f.cleared with active := true }).append p (payload.drop (1 + n))
  else if f.active then s.append p payload
  else .ok s

end Sys2Proof.Machine
end

