-- ==== Sys2Proof/Machine/Packets.lean ====
section
/-! DEFINITION. The packet framer: the five packet classes of 41_packet_framer.md, the prologue every packet shares
(R232), and the ends of the input (R241, R242). -/

namespace Sys2Proof.Machine

/-- The packet prologue (R232): DMX_OFFSET and DMX_PKT_COUNT move past the packet. -/
def State.prologue (s : State) : State :=
  s.setDmx { s.dmx with
    pktCount := s.dmx.pktCount + 1#32
    regs := { s.dmx.regs with offset := uwrap64 (u64 s.dmx.regs.offset + Config.pktSize) } }

/-- First sight of a PID (R234). -/
def State.markSeen (s : State) (p : Pid) : State :=
  if (s.filter p).seen then s
  else
    (s.setFilter p { s.filter p with seen := true }).setDmx { s.dmx with seenPids := s.dmx.seenPids + 1#14 }

/-- The PCR part of `process` (R240): clock tracker, then index builder with the duration after tracking. -/
def State.trackPcr (s : State) (af : Af) (off : DWord) : State :=
  if af.pcrPresent then
    let ns := pcrToNs af.base af.ext
    let s1 := s.clockTrack ns off
    s1.indexEmit off ns s1.dmx.regs.durationNs af.rai
  else s

/-- The section part of `process` (R240); `[]` is both no payload and an empty one, which never enter it. -/
def State.sectionPart (s : State) (p : Pid) (pusi : Bool) (payload : List Byte) : Except Fault State :=
  if payload ≠ [] ∧ s.isSectionPid p then s.sectionInput p pusi payload else .ok s

/-- `process` (R240). -/
def State.process (s : State) (p : Pid) (pusi : Bool) (payload : List Byte) (af : Af) (off : DWord) :
    Except Fault State :=
  match s.sectionPart p pusi payload with
  | .ok s1 => .ok (s1.trackPcr af off)
  | .error e => .error e

/-- AFDecode's event (R235). -/
def State.afEvents (s : State) (af : Af) : State := if af.malformed then s.noteMalformed else s

/-- What every packet with a good sync byte does before its class (R232, R234). -/
def State.received (s : State) (p : Pid) : State := s.prologue.markSeen p

/-- TS_AF_PAYLOAD (R236). -/
def execTsAfPayload (hdr : TsHdr) (body : List Byte) (s : State) : Host.Outcome State Fault Refusal :=
  let af := afDecode body
  finish (((s.received hdr.pid).afEvents af).process hdr.pid hdr.pusi
    (if af.afOk then payloadFrom af.ps body else []) af s.dmx.regs.offset)

/-- TS_PAYLOAD (R237). -/
def execTsPayload (hdr : TsHdr) (body : List Byte) (s : State) : Host.Outcome State Fault Refusal :=
  finish ((s.received hdr.pid).process hdr.pid hdr.pusi body Af.absent s.dmx.regs.offset)

/-- TS_AF_ONLY (R238). -/
def execTsAfOnly (hdr : TsHdr) (body : List Byte) (s : State) : Host.Outcome State Fault Refusal :=
  let af := afDecode body
  finish (((s.received hdr.pid).afEvents af).process hdr.pid hdr.pusi [] af s.dmx.regs.offset)

/-- TS_AFC_RESERVED (R239): the PID is seen, the packet is otherwise ignored. -/
def execTsAfcReserved (hdr : TsHdr) (_body : List Byte) (s : State) : Host.Outcome State Fault Refusal :=
  .next (s.received hdr.pid)

/-- TS_SYNC_FAULT (R233): skip the packet, or end the session under SYNC_POLICY_L = 1. -/
def execTsSyncFault (_sync : Byte) (_rest : List Byte) (s : State) : Host.Outcome State Fault Refusal :=
  let s1 := s.prologue.noteSyncFault s.dmx.regs.offset
  .next (if s1.dmx.syncPolicyL then s1.terminateDmx .syncAbort else s1)

/-- EOS(k) on TS_IN (R241). -/
def State.dmxEos (s : State) (k : Nat) : State :=
  let s1 := if 0 < k then (s.setDmx { s.dmx with truncBytes := BitVec.ofNat 8 k }).raise .trunc else s
  s1.terminateDmx .endOfSource

/-- FAULT on TS_IN (R242). -/
def State.dmxReadFault (s : State) : State := s.terminateDmx .readFault

end Sys2Proof.Machine
end

