-- ==== Sys2Proof/Machine/Dispatch.lean ====
section
/-! DEFINITION. One arm per instruction. -/

namespace Sys2Proof.Machine

/-- The meaning of an instruction. -/
def exec (i : Instr) (s : State) : Host.Outcome State Fault Refusal :=
  match i with
  | .nop => Sys2Proof.Machine.execNop s
  | .dmxStart => Sys2Proof.Machine.execDmxStart s
  | .dmxStop => Sys2Proof.Machine.execDmxStop s
  | .fltReset pid => Sys2Proof.Machine.execFltReset pid s
  | .dlvStart chan => Sys2Proof.Machine.execDlvStart chan s
  | .dlvStop chan => Sys2Proof.Machine.execDlvStop chan s
  | .tsAfPayload hdr body => Sys2Proof.Machine.execTsAfPayload hdr body s
  | .tsPayload hdr body => Sys2Proof.Machine.execTsPayload hdr body s
  | .tsAfOnly hdr body => Sys2Proof.Machine.execTsAfOnly hdr body s
  | .tsAfcReserved hdr body => Sys2Proof.Machine.execTsAfcReserved hdr body s
  | .tsSyncFault sync rest => Sys2Proof.Machine.execTsSyncFault sync rest s

end Sys2Proof.Machine
end

