-- ==== Sys2Proof/Machine/Registers.lean ====
section
/-! DEFINITION. The register space (20_memory.md R100 to R112): the map of offsets, MemRead with the snapshot protocol,
and MemWrite to every register but CMD (40_host_commands.md R206 to R208). -/

namespace Sys2Proof.Machine

/-- The registers of one channel's block (10_state.md R72 to R87). -/
inductive ChReg where
  | config | status | evt | evtEn | wfaults | resyncs
  | lo (r : DlvWideReg)
  | hi (r : DlvWideReg)
  | reserved
deriving DecidableEq, Repr

/-- The registers of the register space (20_memory.md R102). -/
inductive Reg where
  | blkId | cmd | cmdStatus | irqStatus | irqEnable | hwCfg
  | dmxConfig | dmxStatus | dmxPmtPid | dmxPcrPid | dmxPktCount | dmxSyncFaults | dmxDiscont | dmxSecOvf | dmxUnkStype
  | dmxSecDone | dmxSecDiscard | dmxMalformed | dmxIdxCount | dmxSeenPids | fltSel | fltInfo | fltLen
  | dmxLo (r : DmxWideReg)
  | dmxHi (r : DmxWideReg)
  | ch (c : Nat) (r : ChReg)
  | reserved
deriving DecidableEq, Repr

/-! ## The map -/

/-- The global and DMX registers at their offsets (10_state.md R35 to R65). -/
def globalMap : List (Nat × Reg) :=
  [(0x000, .blkId), (0x004, .cmd), (0x008, .cmdStatus), (0x00C, .irqStatus), (0x010, .irqEnable), (0x014, .hwCfg),
   (0x040, .dmxConfig), (0x044, .dmxStatus), (0x048, .dmxPmtPid), (0x04C, .dmxPcrPid), (0x050, .dmxPktCount),
   (0x054, .dmxSyncFaults), (0x058, .dmxDiscont), (0x05C, .dmxSecOvf), (0x060, .dmxUnkStype), (0x064, .dmxSecDone),
   (0x068, .dmxSecDiscard), (0x06C, .dmxMalformed), (0x070, .dmxIdxCount), (0x074, .dmxSeenPids), (0x078, .fltSel),
   (0x07C, .fltInfo), (0x080, .dmxLo .offset), (0x084, .dmxHi .offset), (0x088, .dmxLo .faultOff),
   (0x08C, .dmxHi .faultOff), (0x090, .dmxLo .pcrBaseNs), (0x094, .dmxHi .pcrBaseNs), (0x098, .dmxLo .pcrPrevNs),
   (0x09C, .dmxHi .pcrPrevNs), (0x0A0, .dmxLo .durationNs), (0x0A4, .dmxHi .durationNs), (0x0A8, .dmxLo .lastDeltaNs),
   (0x0AC, .dmxHi .lastDeltaNs), (0x0B0, .dmxLo .bitrateBps), (0x0B4, .dmxHi .bitrateBps), (0x0B8, .fltLen),
   (0x0C0, .dmxLo .pcrPrevOff), (0x0C4, .dmxHi .pcrPrevOff)]

/-- The registers of a channel at their offsets from B(c) (10_state.md R72 to R87). -/
def channelMap : List (Nat × ChReg) :=
  [(0x00, .config), (0x04, .status), (0x08, .evt), (0x0C, .evtEn), (0x10, .wfaults), (0x14, .resyncs),
   (0x18, .lo .chunks), (0x1C, .hi .chunks), (0x20, .lo .bytes), (0x24, .hi .bytes), (0x28, .lo .epochWall),
   (0x2C, .hi .epochWall), (0x30, .lo .epochStream), (0x34, .hi .epochStream), (0x38, .lo .firstTs),
   (0x3C, .hi .firstTs), (0x40, .lo .prevTs), (0x44, .hi .prevTs), (0x48, .lo .lastGoodDelta),
   (0x4C, .hi .lastGoodDelta), (0x50, .lo .curTs), (0x54, .hi .curTs), (0x58, .lo .wakeNs), (0x5C, .hi .wakeNs),
   (0x60, .lo .lastDelay), (0x64, .hi .lastDelay)]

/-- B(c) (10_state.md R71). -/
def channelBase (c : Nat) : Nat := 0x100 + 0x80 * c

/-- The register at a byte offset, with `n` channels; what no row names is reserved (20_memory.md R102, R103). -/
def regAt (n : Nat) (a : Nat) : Reg :=
  if a < 0x100 then (globalMap.lookup a).getD .reserved
  else
    let c := (a - 0x100) / 0x80
    if c < n then .ch c ((channelMap.lookup ((a - 0x100) % 0x80)).getD .reserved) else .reserved

/-- The offset of a named register (30_encoding.md R156): its row of the map, from B(c) for a channel's; none for
`reserved`, which names no one offset. -/
def Reg.offset : Reg → Option Nat
  | .ch c r => (channelMap.find? (fun e => e.2 == r)).map (fun e => channelBase c + e.1)
  | r => (globalMap.find? (fun e => e.2 == r)).map (fun e => e.1)

/-- An access the bus carries: a whole aligned word (20_memory.md R101). -/
def accessOk (a width : Nat) : Bool := width == 4 && a % 4 == 0

/-! ## 64-bit registers by name -/

/-- The entry of a 64-bit DMX register. -/
def DmxWide.get {α : Type} (w : DmxWide α) : DmxWideReg → α
  | .offset => w.offset
  | .faultOff => w.faultOff
  | .pcrBaseNs => w.pcrBaseNs
  | .pcrPrevNs => w.pcrPrevNs
  | .durationNs => w.durationNs
  | .lastDeltaNs => w.lastDeltaNs
  | .bitrateBps => w.bitrateBps
  | .pcrPrevOff => w.pcrPrevOff

/-- The entry of one register becomes `v`. -/
def DmxWide.set {α : Type} (w : DmxWide α) (v : α) : DmxWideReg → DmxWide α
  | .offset => { w with offset := v }
  | .faultOff => { w with faultOff := v }
  | .pcrBaseNs => { w with pcrBaseNs := v }
  | .pcrPrevNs => { w with pcrPrevNs := v }
  | .durationNs => { w with durationNs := v }
  | .lastDeltaNs => { w with lastDeltaNs := v }
  | .bitrateBps => { w with bitrateBps := v }
  | .pcrPrevOff => { w with pcrPrevOff := v }

/-- The entry of a 64-bit channel register. -/
def DlvWide.get {α : Type} (w : DlvWide α) : DlvWideReg → α
  | .chunks => w.chunks
  | .bytes => w.bytes
  | .epochWall => w.epochWall
  | .epochStream => w.epochStream
  | .firstTs => w.firstTs
  | .prevTs => w.prevTs
  | .lastGoodDelta => w.lastGoodDelta
  | .curTs => w.curTs
  | .wakeNs => w.wakeNs
  | .lastDelay => w.lastDelay

/-- The entry of one register becomes `v`. -/
def DlvWide.set {α : Type} (w : DlvWide α) (v : α) : DlvWideReg → DlvWide α
  | .chunks => { w with chunks := v }
  | .bytes => { w with bytes := v }
  | .epochWall => { w with epochWall := v }
  | .epochStream => { w with epochStream := v }
  | .firstTs => { w with firstTs := v }
  | .prevTs => { w with prevTs := v }
  | .lastGoodDelta => { w with lastGoodDelta := v }
  | .curTs => { w with curTs := v }
  | .wakeNs => { w with wakeNs := v }
  | .lastDelay => { w with lastDelay := v }

/-- Bits 31:0 of a 64-bit register (10_state.md R34). -/
def loHalf (v : DWord) : Word := v.extractLsb' 0 32

/-- Bits 63:32 of a 64-bit register (10_state.md R34). -/
def hiHalf (v : DWord) : Word := v.extractLsb' 32 32

/-! ## MemRead -/

/-- The word a channel's register reads as (10_state.md R72 to R87). -/
def Channel.readWord (k : Channel) : ChReg → Word
  | .config => k.config
  | .status => k.statusWord
  | .evt => fieldAt k.evt 0
  | .evtEn => fieldAt k.evtEn 0
  | .wfaults => k.wfaults
  | .resyncs => k.resyncs
  | .lo r => loHalf (k.regs.get r)
  | .hi r => k.shadow.get r
  | .reserved => 0#32

/-- The word a register reads as (10_state.md R35 to R87, 20_memory.md R103, R106). -/
def State.readWord (s : State) : Reg → Word
  | .blkId => Config.blkId
  | .cmd => 0#32
  | .cmdStatus => s.cmdStatus.word
  | .irqStatus => s.irqStatusWord
  | .irqEnable => s.irqEnable
  | .hwCfg => hwCfgWord s.nDlv
  | .dmxConfig => fieldAt s.dmx.config 0
  | .dmxStatus => s.dmx.statusWord
  | .dmxPmtPid => fieldAt s.dmx.pmtPid 0
  | .dmxPcrPid => fieldAt s.dmx.pcrPid 0
  | .dmxPktCount => s.dmx.pktCount
  | .dmxSyncFaults => s.dmx.syncFaults
  | .dmxDiscont => s.dmx.discont
  | .dmxSecOvf => s.dmx.secOvf
  | .dmxUnkStype => s.dmx.unkStype
  | .dmxSecDone => s.dmx.secDone
  | .dmxSecDiscard => s.dmx.secDiscard
  | .dmxMalformed => s.dmx.malformed
  | .dmxIdxCount => s.dmx.idxCount
  | .dmxSeenPids => fieldAt s.dmx.seenPids 0
  | .fltSel => fieldAt s.dmx.fltSel 0
  | .fltInfo => (s.filter s.dmx.fltSel).infoWord
  | .fltLen => s.dmx.fltLenWord
  | .dmxLo r => loHalf (s.dmx.regs.get r)
  | .dmxHi r => s.dmx.shadow.get r
  | .ch c r =>
    match s.ch[c]? with
    | some k => k.readWord r
    | none => 0#32
  | .reserved => 0#32

/-- The side effect of a read: the shadows of R106, and nothing else (20_memory.md R111). -/
def State.snapshot (s : State) : Reg → State
  | .dmxLo r => s.setDmx { s.dmx with shadow := s.dmx.shadow.set (hiHalf (s.dmx.regs.get r)) r }
  | .fltInfo =>
    s.setDmx { s.dmx with
      fltLenPos := (s.filter s.dmx.fltSel).pos
      fltLenSize := (s.filter s.dmx.fltSel).size }
  | .ch c (.lo r) =>
    match s.ch[c]? with
    | some k => s.setCh c { k with shadow := k.shadow.set (hiHalf (k.regs.get r)) r }
    | none => s
  | _ => s

/-! ## MemWrite -/

/-- A write to a channel's register (40 R206 to R208): DLV_CONFIG and DLV_EVT_EN store their writable bits, DLV_EVT
clears the bits written 1, every other register ignores it. -/
def Channel.writeWord (k : Channel) (v : Word) : ChReg → Channel
  | .config => { k with config := v }
  | .evt => { k with evt := w1c k.evt (v.extractLsb' 0 3) }
  | .evtEn => { k with evtEn := v.extractLsb' 0 3 }
  | _ => k

/-- A write to a register other than CMD (40 R206 to R208). -/
def State.writeWord (s : State) (v : Word) : Reg → State
  | .irqStatus => { s with irqEvents := w1c s.irqEvents (v.extractLsb' 0 10) }
  | .irqEnable => { s with irqEnable := v &&& irqEnableMask s.nDlv }
  | .dmxConfig => s.setDmx { s.dmx with config := v.extractLsb' 0 2 }
  | .fltSel => s.setDmx { s.dmx with fltSel := v.extractLsb' 0 13 }
  | .ch c r =>
    match s.ch[c]? with
    | some k => s.setCh c (k.writeWord v r)
    | none => s
  | _ => s

end Sys2Proof.Machine
end

