-- ==== Sys2Proof/Machine/Agents.lean ====
section
/-! DEFINITION. One step of each agent of 00_scope.md R7: a host access, a DMX step, a channel step, ENV's steps, and the
platform's reset. An agent with no enabled step that is scheduled leaves the state as it is (R9, log entry 2). -/

namespace Sys2Proof.Machine

/-! ## HOST -/

/-- The reason of a command word's rejection by the decoder (30_encoding.md R132). -/
def DecodeError.reason : DecodeError → RejReason
  | .reservedOpcode => .opcode
  | .reservedBits => .reservedBits
  | .packetLength => .reservedBits

/-- A MemWrite of `w` to CMD (40_host_commands.md R199). -/
def State.command (s : State) (w : Word) : Host.Outcome State Fault Refusal :=
  match decodeCommand w with
  | .ok i => exec i s
  | .error e => .next (s.reject (cmdOpcode w) (DecodeError.reason e))

/-- MemRead(addr, width): the word is returned to the host, and the shadows change as R106 says. -/
def State.hostRead (s : State) (addr : BitVec 12) (width : Nat) : Host.Outcome State Fault Refusal :=
  if accessOk addr.toNat width then
    let r := regAt s.nDlv addr.toNat
    let s1 := s.snapshot r
    .next (s1.setEnv { s1.env with hostRd := s1.env.hostRd ++ [s.readWord r] })
  else .refused .hostAccess

/-- MemWrite(addr, width, v). -/
def State.hostWrite (s : State) (addr : BitVec 12) (width : Nat) (v : Word) : Host.Outcome State Fault Refusal :=
  if accessOk addr.toNat width then
    match regAt s.nDlv addr.toNat with
    | .cmd => s.command v
    | r => .next (s.writeWord v r)
  else .refused .hostAccess

/-! ## DMX -/

/-- DMX's read step has been answered with `ans` (41 R231). -/
def State.dmxRead (s : State) : PortAns → Host.Outcome State Fault Refusal
  | .unanswered => .next s
  | .bytes b =>
    match decodePacket b with
    | .ok i => exec i s
    | .error _ => .refused .envAnswer
  | .eos k => if k < Config.pktSize then .next (s.dmxEos k) else .refused .envAnswer
  | .fault => .next s.dmxReadFault
  | .ok => .refused .envAnswer

/-- The step selection of DMX (41 R230): cancel, hold on the full latch, read. -/
def State.dmxStep (s : State) (ans : PortAns) : Host.Outcome State Fault Refusal :=
  if s.dmx.phase ≠ .run then .next s
  else if s.dmx.stopReq then .next (s.terminateDmx .cancelled)
  else if s.dmx.idxFull then .next s
  else s.dmxRead ans

/-! ## DLV -/

/-- A step of DLV[c] (45 R351); a number that is no channel names no agent. -/
def State.dlvStep (s : State) (c : Nat) (ans : PortAns) : Host.Outcome State Fault Refusal :=
  match s.ch[c]? with
  | none => .next s
  | some k =>
    match k.step s.hw.raBufSize s.now ans with
    | .hold => .next s
    | .badAnswer => .refused .envAnswer
    | .go k1 none => .next (s.setCh c k1)
    | .go k1 (some chunk) =>
      .next ((s.setCh c k1).setEnv { s.env with chOut := s.env.chOut ++ [(c, chunk)] })

/-! ## ENV and the platform -/

/-- WALL_NS moves to `ns`; it never decreases (60 R430). -/
def State.wallStep (s : State) (ns : DWord) : Host.Outcome State Fault Refusal :=
  if s.env.wallNs.toNat ≤ ns.toNat then .next (s.setEnv { s.env with wallNs := ns }) else .refused .envClock

/-- One scheduled step. -/
def State.act (s : State) : Action → Host.Outcome State Fault Refusal
  | .hostRead addr width => s.hostRead addr width
  | .hostWrite addr width v => s.hostWrite addr width v
  | .dmx ans => s.dmxStep ans
  | .dlv c ans => s.dlvStep c ans
  | .take => .next s.takeRecord
  | .wall ns => s.wallStep ns
  | .reset => .next s.hardReset

/-- The schedule is `l`. -/
def State.setSched (s : State) (l : List Action) : State := s.setEnv { s.env with sched := l }

/-- The next scheduled step leaves the schedule and happens (log entry 1); with nothing scheduled every agent holds. -/
def State.advance (s : State) : Host.Outcome State Fault Refusal :=
  match s.env.sched with
  | [] => .next s
  | a :: rest => (s.setSched rest).act a

/-! ## Placing one instruction where the next step fetches it -/

/-- The state with the instruction as its next step (log entry 3): a command as the host's next write to CMD; a packet as
the answer to DMX's next read, DMX running with no stop request and an empty latch (41 R230). -/
def State.placed (s : State) : Code → State
  | .command w => s.setSched (.hostWrite 0x004#12 4 w :: s.env.sched)
  | .packet b =>
    (s.setDmx { s.dmx with phase := .run, stopReq := false, idxL := none }).setSched (.dmx (.bytes b) :: s.env.sched)

end Sys2Proof.Machine
end

