-- ==== Sys2Proof/Machine/Step.lean ====
section
/-! DEFINITION. The step function of TSCORE and the placing of one instruction. -/

namespace Sys2Proof.Machine

/-- One atomic step of the agent the schedule names (20_memory.md R110). -/
def step (s : State) : Host.Outcome State Fault Refusal := s.advance

/-- The state whose very next step fetches and runs the instruction with bits `w`, numbered as the opcode table does. -/
def State.withFetchWord (s : State) (nbits w : Nat) : State := s.placed (tableCode nbits w)

end Sys2Proof.Machine
end

