-- ==== Sys2Proof/Safety.lean ====
section
/-! DEFINITION. The terms in which claims speak: what a run that goes on is, and the invariants of the state that the spec
states (10_state.md, 42 R272). -/

namespace Sys2Proof.Machine

/-- The outcome is a next state. -/
def Completes (o : Host.Outcome State Fault Refusal) : Prop := ∃ t, o = .next t

/-- The step the schedule names next. -/
def State.nextAction (s : State) : Option Action := s.env.sched.head?

/-- The state once the next scheduled step has left the schedule. -/
def State.popped (s : State) : State := s.setSched s.env.sched.tail

/-! ## Sessions (00_scope.md R17) -/

/-- A DMX session is over. -/
def State.dmxOver (s : State) : Prop := s.dmx.phase = .done

/-- A channel session is over. -/
def Channel.over (k : Channel) : Prop := k.phase = .done

/-! ## Invariants -/

/-- 42 R272, clauses (a) to (e), of one filter. -/
abbrev Filter.ok (f : Filter) : Prop :=
  (f.invalid = true → f.active = false) ∧
  (f.active = false ∧ f.invalid = false → f.pos = 0#13 ∧ f.size = 0#13) ∧
  (f.active = true ∧ f.size = 0#13 → f.pos.toNat ≤ 2) ∧
  (f.active = true ∧ f.size ≠ 0#13 →
    (3 ≤ f.size.toNat ∧ f.size.toNat ≤ 4096) ∧ 3 ≤ f.pos.toNat ∧ f.pos.toNat < f.size.toNat) ∧
  (f.invalid = true → f.pos = 3#13 ∧ (f.size = 4097#13 ∨ f.size = 4098#13))

/-- 42 R272 of every filter. -/
def State.FiltersOk (s : State) : Prop := ∀ p : Pid, (s.filter p).ok

/-- The sparse tables are in canonical form. -/
abbrev State.TablesWf (s : State) : Prop := Memory.wf s.mem = true ∧ fltWf s.flt = true

/-- DMX_SEEN_PIDS is the number of PIDs with SEEN = 1 (10_state.md R54). -/
def State.SeenCounted (s : State) : Prop :=
  s.dmx.seenPids.toNat = (Finset.univ.filter (fun p : Pid => (s.filter p).seen = true)).card

/-- What 10_state.md R42, R63, 43 R302 and 44 R330 say of the DMX registers at every step boundary. -/
abbrev Dmx.ok (d : Dmx) : Prop :=
  (d.term = .none ↔ d.phase ≠ .done) ∧
  (d.stopReq = true → d.phase = .run) ∧
  d.truncBytes.toNat ≤ 187 ∧
  (0 ≤ d.regs.lastDeltaNs.toInt ∧ d.regs.lastDeltaNs.toInt ≤ 500000000) ∧
  (d.pcrSeen = false → d.regs.durationNs = 0#64 ∧ d.regs.lastDeltaNs = 0#64 ∧ d.idxL = none)

/-- What 10_state.md R73, R89 and 45 R350 to R374 say of a channel at every step boundary, with a read-ahead buffer of
`raBufSize` bytes. -/
abbrev Channel.ok (raBufSize : Nat) (k : Channel) : Prop :=
  (k.phase = .tsread ∨ k.phase = .wait ∨ k.phase = .write → 1316 ≤ k.ra.length) ∧
  (k.phase = .fill → k.ra.length < 1316) ∧
  (k.phase = .idle ∨ k.phase = .done → k.ra = []) ∧
  k.ra.length ≤ raBufSize ∧
  (k.term = .none ↔ k.phase ≠ .done) ∧
  (k.stopReq = true → k.phase.running = true) ∧
  k.residue.toNat ≤ 1315 ∧
  (k.phase = .wait ∨ k.phase = .write → k.epochValid = true) ∧
  (k.phase.running = true ∧ k.regs.chunks ≠ 0#64 → k.epochValid = true)

/-- Every channel is as `Channel.ok` says. -/
def State.ChannelsOk (s : State) : Prop := ∀ k ∈ s.ch, k.ok s.hw.raBufSize

/-- 45 R375 at every step boundary, modulo the width of DLV_WFAULTS: every completed write that did not fault counts 1316
bytes. -/
abbrev Channel.BytesCounted (k : Channel) : Prop :=
  k.regs.bytes.setWidth 32 + 1316#32 * k.wfaults = 1316#32 * k.regs.chunks.setWidth 32

/-- The reserved bits of IRQ_ENABLE are 0 (10_state.md R39). -/
abbrev State.EnableOk (s : State) : Prop := s.irqEnable &&& ~~~(irqEnableMask s.nDlv) = 0#32

/-! ## The section bytes of a packet (42 R261) -/

/-- The section bytes a payload offers to its filter: after the pointer field and what it skips in a payload-start
packet, the whole payload otherwise. -/
def sectionOffer (pusi : Bool) (payload : List Byte) : List Byte :=
  if pusi then payload.drop (1 + (byteAt payload 0).toNat) else payload

/-- What becomes of a section of `held` bytes so far on PID `p`, its size read as `size` from byte 2 on, in the state `s`
before its bytes are stored and the state `t` after (42 R264 to R266): it goes on; it overflows; or it is complete, and the
parser of its PID has run on it, cut to its size. -/
def SectionOutcome (s t : State) (p : Pid) (held : List Byte) (size : Nat) : Prop :=
  (held.length < 3 ∨ (size ≤ 4096 ∧ held.length < size) →
    (∀ q, t.filter q =
      if q = p then { s.filter p with
        active := true
        pos := BitVec.ofNat 13 held.length
        size := BitVec.ofNat 13 (if held.length < 3 then 0 else size) }
      else s.filter q) ∧
    t = { s with flt := t.flt, mem := t.mem } ∧ t.sectionBytes p held.length = held) ∧
  (3 ≤ held.length → 4096 < size →
    (∀ q, t.filter q =
      if q = p then { s.filter p with active := false, invalid := true, pos := 3#13, size := BitVec.ofNat 13 size }
      else s.filter q) ∧
    t = { s with
      flt := t.flt
      mem := t.mem
      dmx := { s.dmx with secOvf := s.dmx.secOvf + 1#32 }
      irqEvents := s.irqEvents ||| 0x10#10 }) ∧
  (3 ≤ held.length → size ≤ 4096 → size ≤ held.length →
    let u := if p = 0#13 then s.parsePat (held.take size) size else s.parsePmt (held.take size) size
    (∀ q, t.filter q =
      if q = p then { u.filter p with active := false, pos := 0#13, size := 0#13 } else u.filter q) ∧
    t = { u with
      flt := t.flt
      mem := t.mem
      dmx := { u.dmx with secDone := s.dmx.secDone + 1#32 }
      irqEvents := u.irqEvents ||| 0x100#10 })

/-- The size of a section from its first three bytes (30_encoding.md R141). -/
def sizeOf3 (held : List Byte) : Nat := 3 + ((byteAt held 1).toNat % 16 * 256 + (byteAt held 2).toNat)

/-- Where in DATA the offered bytes start: a new section at 0, a continued one at POS. -/
def offerStart (pusi : Bool) (f : Filter) : Nat := if pusi then 0 else f.pos.toNat

/-! ## What every received packet does (41 R232, R234) -/

/-- The DMX registers after the prologue of R232 and the first-sight rule of R234 for a packet on PID `p`. -/
def State.countedDmx (s : State) (p : Pid) : Dmx :=
  { s.dmx with
    pktCount := s.dmx.pktCount + 1#32
    seenPids := if (s.filter p).seen then s.dmx.seenPids else s.dmx.seenPids + 1#14
    regs := { s.dmx.regs with offset := s.dmx.regs.offset + 188#64 } }

/-- Of the filters, only SEEN of PID `p` has changed, and it is 1 (R234). -/
def OnlySeen (s t : State) (p : Pid) : Prop :=
  ∀ q, t.filter q = if q = p then { s.filter q with seen := true } else s.filter q

/-- The PCR in nanoseconds that a packet's bytes from b[4] on carry (30_encoding.md R139, 43 R301). -/
def pcrNs (body : List Byte) : Nat :=
  (beNat ((body.drop 2).take 6) / 2 ^ 15 * 300 + beNat ((body.drop 2).take 6) % 2 ^ 9) * 1000 / 27

/-- The packet, given by its bytes from b[4] on, carries a PCR the framer decodes (41 R235). -/
def HasPcr (body : List Byte) : Prop :=
  7 ≤ (byteAt body 0).toNat ∧ (byteAt body 0).toNat ≤ 183 ∧ (byteAt body 1).getLsbD 4 = true

/-- The random_access_indicator of a packet with a PCR (30_encoding.md R138). -/
def raiOf (body : List Byte) : Bool := (byteAt body 1).getLsbD 6

/-- The elementary-stream entries of a PMT section from offset `off` on: stream type and PID (42 R269). The fuel is at
least the number of entries. -/
def pmtEntries (d : List Byte) (size : Nat) : (fuel : Nat) → (off : Nat) → List (Byte × Pid)
  | 0, _ => []
  | fuel + 1, off =>
    if off + 5 ≤ size - 4 then
      (byteAt d off, ((byteAt d (off + 1)).extractLsb' 0 5 ++ byteAt d (off + 2)))
        :: pmtEntries d size fuel
          (off + 5 + ((byteAt d (off + 3)).toNat % 16 * 256 + (byteAt d (off + 4)).toNat))
    else []

end Sys2Proof.Machine
end

