-- ==== Sys2Proof/Certificates/Slice0/Obligations.lean ====
section
/-! DEFINITION. The statements for the provers. Each docstring names the rule of the spec it formalises, or says that it
rests on the model's own choice and names the log entry. In all of them the step the schedule names next
(`State.nextAction`), the schedule without it (`State.popped`) and a step that changes nothing else for an agent that holds
are the model's form of an interleaving (log entries 1 and 2), and hardware reset is one such step (log entry 17). -/

open Sys2Proof Sys2Proof.Machine

/-! ## Encoding -/

/-- Decoding the encoding of a well-formed instruction gives it back: no bit of an encoding is dropped
(30_encoding.md sections 1 and 2). -/
def Obligations.DecodeOfEncodeIsIdentity : Prop :=
  ∀ i : Instr, i.wf = true → decode (encode i) = .ok i

/-- Every word or packet that decodes has one meaning: encoding the instruction gives the same code back, and the
instruction is well-formed (30_encoding.md sections 1 and 2). -/
def Obligations.EncodeOfDecodeIsIdentity : Prop :=
  ∀ (c : Code) (i : Instr), decode c = .ok i → encode i = c ∧ i.wf = true

/-- The vectors of 95_test_vectors.md, whole: each of the 19 command words of V1 decodes to its command, or is refused for
its reason 1 or 2; each of the 13 header words of V2 has its class and, where it has a good sync byte, its PID, PUSI and CC
(with TEI, priority and scrambling as its bits have them). -/
def Obligations.VectorWordsDecode : Prop :=
  [0x00000000#32, 0x00000001#32, 0x00000002#32, 0x10000003#32, 0x1FFF0003#32, 0x00000010#32, 0x00000110#32,
      0x00000210#32, 0x00000011#32, 0x00000F11#32].map decodeCommand =
    [.ok .nop, .ok .dmxStart, .ok .dmxStop, .ok (.fltReset 0x1000#13), .ok (.fltReset 0x1FFF#13), .ok (.dlvStart 0#4),
      .ok (.dlvStart 1#4), .ok (.dlvStart 2#4), .ok (.dlvStop 0#4), .ok (.dlvStop 15#4)] ∧
  [0x00000005#32, 0x000000FF#32, 0x000010FF#32].map decodeCommand = .replicate 3 (.error .reservedOpcode) ∧
  [0x00000103#32, 0x00001001#32, 0x00010000#32, 0x00010010#32, 0x20000003#32, 0x00001210#32].map decodeCommand =
    .replicate 6 (.error .reservedBits) ∧
  [0x47000030#32, 0x47400010#32, 0x47500010#32, 0x47010020#32, 0x47010000#32, 0x471FFF1F#32, 0x47E01F1F#32,
      0x470000F0#32, 0x4700003F#32].map (fun h => (headerClass h, headerFields h)) =
    [(.afPayload, ⟨false, false, false, 0#13, 0#2, 0#4⟩),
      (.payload, ⟨false, true, false, 0#13, 0#2, 0#4⟩),
      (.payload, ⟨false, true, false, 0x1000#13, 0#2, 0#4⟩),
      (.afOnly, ⟨false, false, false, 0x100#13, 0#2, 0#4⟩),
      (.afcReserved, ⟨false, false, false, 0x100#13, 0#2, 0#4⟩),
      (.payload, ⟨false, false, false, 0x1FFF#13, 0#2, 15#4⟩),
      (.payload, ⟨true, true, true, 0x01F#13, 0#2, 15#4⟩),
      (.afPayload, ⟨false, false, false, 0#13, 3#2, 0#4⟩),
      (.afPayload, ⟨false, false, false, 0#13, 0#2, 15#4⟩)] ∧
  [0x00000000#32, 0xB8000030#32, 0x48000010#32, 0xFF470010#32].map headerClass = .replicate 4 .syncFault

/-- 30_encoding.md R132: a write to CMD of a word whose OPCODE is not in the map of R131 is rejected with reason 1; else,
of a word with a nonzero reserved bit or a nonzero field the opcode does not use, with reason 2. CMD_STATUS and the
CMD_ERR bit change, nothing else. -/
def Obligations.BadCommandWordsAreRejected : Prop :=
  ∀ (s : State) (w : Word), s.nextAction = some (.hostWrite 0x004#12 4 w) →
    let op := w.extractLsb' 0 8
    let known := op ∈ [0x00#8, 0x01#8, 0x02#8, 0x03#8, 0x10#8, 0x11#8]
    let clean := w.extractLsb' 12 4 = 0#4 ∧ w.extractLsb' 29 3 = 0#3 ∧
      (op ∈ [0x10#8, 0x11#8] ∨ w.extractLsb' 8 4 = 0#4) ∧ (op = 0x03#8 ∨ w.extractLsb' 16 13 = 0#13)
    let rejected (r : RejReason) : State :=
      { s.popped with cmdStatus := ⟨true, op, r⟩, irqEvents := s.irqEvents ||| 1#10 }
    (¬ known → step s = .next (rejected .opcode)) ∧
    (known → ¬ clean → step s = .next (rejected .reservedBits))

/-- 30_encoding.md R135 and R137, with the byte and bit places of R134: the first byte and the AFC bits of a packet select
its class, every 188 bytes decode, and the class carries the header's other fields. -/
def Obligations.HeaderBytesSelectTheClass : Prop :=
  ∀ b : List Byte, b.length = 188 →
    let hdr : TsHdr :=
      { tei := (byteAt b 1).getLsbD 7
        pusi := (byteAt b 1).getLsbD 6
        prio := (byteAt b 1).getLsbD 5
        pid := (byteAt b 1).extractLsb' 0 5 ++ byteAt b 2
        tsc := (byteAt b 3).extractLsb' 6 2
        cc := (byteAt b 3).extractLsb' 0 4 }
    let afc := (byteAt b 3).extractLsb' 4 2
    (byteAt b 0 = 0x47#8 ∧ afc = 3#2 → decodePacket b = .ok (.tsAfPayload hdr (b.drop 4))) ∧
    (byteAt b 0 = 0x47#8 ∧ afc = 1#2 → decodePacket b = .ok (.tsPayload hdr (b.drop 4))) ∧
    (byteAt b 0 = 0x47#8 ∧ afc = 2#2 → decodePacket b = .ok (.tsAfOnly hdr (b.drop 4))) ∧
    (byteAt b 0 = 0x47#8 ∧ afc = 0#2 → decodePacket b = .ok (.tsAfcReserved hdr (b.drop 4))) ∧
    (byteAt b 0 ≠ 0x47#8 → decodePacket b = .ok (.tsSyncFault (byteAt b 0) (b.drop 1)))

/-! ## A step runs the decoded instruction -/

/-- The next scheduled step runs the instruction its word or packet decodes to, on the state whose schedule has moved past
it: a command as the host's write to CMD, a packet as the answer to the read of a DMX that is running, not stopping and
with an empty latch (41 R230, 40 R199; the schedule is the model's own form, log entry 1). -/
def Obligations.StepRunsTheDecodedInstruction : Prop :=
  ∀ (s : State) (i : Instr) (rest : List Action),
    (∀ w, s.env.sched = .hostWrite 0x004#12 4 w :: rest → decodeCommand w = .ok i →
      step s = exec i (s.setSched rest)) ∧
    (∀ b, s.env.sched = .dmx (.bytes b) :: rest → s.dmx.phase = .run → s.dmx.stopReq = false → s.dmx.idxL = none →
      decodePacket b = .ok i → step s = exec i (s.setSched rest))

/-! ## Commands -/

/-- 40 R200: NOP clears REJECTED and does nothing else; its word is 0; OPCODE 0 with any other bit set is rejected with
reason 2. -/
def Obligations.NopOnlyAccepts : Prop :=
  decodeCommand 0#32 = .ok .nop ∧
  ∀ s : State,
    exec .nop s = .next { s with cmdStatus := { s.cmdStatus with rejected := false } } ∧
    ∀ w : Word, w.extractLsb' 0 8 = 0#8 → w ≠ 0#32 →
      s.command w = .next { s with cmdStatus := ⟨true, 0#8, .reservedBits⟩, irqEvents := s.irqEvents ||| 1#10 }

/-- DMX_START (40 R201): accepted when no session runs and the latch is empty, it latches the configuration, clears the
filter table, the session registers and the status, and runs; everything else, the buffers among it, is kept. While a
session runs or the latch is full it is rejected with reason 3. That DMX_SEEN_PIDS is cleared, which R201's list leaves
out, is the model's reading of 10_state.md R54 (log entry 11). -/
def Obligations.DmxStartBeginsAFreshSession : Prop :=
  ∀ s : State,
    (s.dmx.phase ≠ .run → s.dmx.idxL = none →
      ∃ t, exec .dmxStart s = .next t ∧ (∀ p, t.filter p = Filter.reset) ∧
        t = { s with
          cmdStatus := { s.cmdStatus with rejected := false }
          flt := t.flt
          dmx :=
            { config := s.dmx.config, phase := .run, term := .none, pmtValid := false, pcrPidValid := false,
              pcrSeen := false, stopReq := false, truncBytes := 0#8, pmtPid := 0#13, pcrPid := 0#13,
              pktCount := 0#32, syncFaults := 0#32, discont := 0#32, secOvf := 0#32, unkStype := 0#32,
              secDone := 0#32, secDiscard := 0#32, malformed := 0#32, idxCount := 0#32, seenPids := 0#14,
              fltSel := s.dmx.fltSel, fltLenPos := s.dmx.fltLenPos, fltLenSize := s.dmx.fltLenSize,
              regs := .const 0#64, shadow := s.dmx.shadow, syncPolicyL := s.dmx.config.getLsbD 0,
              keyframeModeL := s.dmx.config.getLsbD 1, idxL := none } }) ∧
    (s.dmx.phase = .run ∨ s.dmx.idxL ≠ none →
      exec .dmxStart s = .next { s with cmdStatus := ⟨true, 0x01#8, .busy⟩, irqEvents := s.irqEvents ||| 1#10 })

/-- 40 R202: DMX_STOP, word 2, is always accepted; in RUN it sets STOP_REQ, and the next DMX step, whatever TS_IN answers
and whether or not the latch is full, ends the session with CANCELLED; in IDLE and DONE it has no other effect. Any other
word with OPCODE 2 is rejected with reason 2. -/
def Obligations.DmxStopCancelsAtTheNextStep : Prop :=
  decodeCommand 0x00000002#32 = .ok .dmxStop ∧
  (∀ (s : State) (w : Word), w.extractLsb' 0 8 = 0x02#8 → w ≠ 0x00000002#32 →
    s.command w = .next { s with cmdStatus := ⟨true, 0x02#8, .reservedBits⟩, irqEvents := s.irqEvents ||| 1#10 }) ∧
  ∀ s : State,
    let accepted : State := { s with cmdStatus := { s.cmdStatus with rejected := false } }
    (s.dmx.phase ≠ .run → exec .dmxStop s = .next accepted) ∧
    (s.dmx.phase = .run →
      exec .dmxStop s = .next { accepted with dmx := { s.dmx with stopReq := true } } ∧
      ∀ ans, State.dmxStep { accepted with dmx := { s.dmx with stopReq := true } } ans =
        .next { accepted with
          dmx := { s.dmx with phase := .done, term := .cancelled, stopReq := false }
          irqEvents := s.irqEvents ||| 2#10 })

/-- 40 R203: FLT_RESET, word (p << 16) | 3, in every state clears INVALID, ACTIVE, SIZE and POS of its PID, keeps SEEN and
CODEC, and changes no other filter, no buffer byte and no counter; the reset filter takes nothing from a packet that does
not start a payload. Another word with OPCODE 3 is rejected with reason 2. -/
def Obligations.FltResetReenablesThePid : Prop :=
  (∀ p : Pid, decodeCommand (p.setWidth 32 <<< 16 ||| 0x03#32) = .ok (.fltReset p)) ∧
  (∀ (s : State) (w : Word), w.extractLsb' 0 8 = 0x03#8 → w.extractLsb' 8 8 ≠ 0#8 ∨ w.extractLsb' 29 3 ≠ 0#3 →
    s.command w = .next { s with cmdStatus := ⟨true, 0x03#8, .reservedBits⟩, irqEvents := s.irqEvents ||| 1#10 }) ∧
  ∀ (s : State) (p : Pid), ∃ t, exec (.fltReset p) s = .next t ∧
    (∀ payload, t.sectionInput p false payload = .ok t) ∧
    (∀ q, t.filter q =
      if q = p then { s.filter q with invalid := false, active := false, size := 0#13, pos := 0#13 }
      else s.filter q) ∧
    t = { s with cmdStatus := { s.cmdStatus with rejected := false }, flt := t.flt }

/-- 40 R204: DLV_START, word (c << 8) | 0x10, on a channel that is IDLE or DONE latches its configuration, empties RA,
zeroes its session registers and enters FILL, leaving its events, enables, configuration and shadows and everything else
as they are; a channel number not below N_DLV is rejected with reason 4 and a running channel with reason 3. -/
def Obligations.DlvStartBeginsAFreshSession : Prop :=
  (∀ c : Chan, decodeCommand (c.setWidth 32 <<< 8 ||| 0x10#32) = .ok (.dlvStart c)) ∧
  ∀ (s : State) (c : Chan),
    let rejected (r : RejReason) : State :=
      { s with cmdStatus := ⟨true, 0x10#8, r⟩, irqEvents := s.irqEvents ||| 1#10 }
    (s.nDlv ≤ c.toNat → exec (.dlvStart c) s = .next (rejected .channel)) ∧
    (∀ k, s.ch[c.toNat]? = some k → k.phase ∉ [DlvPhase.idle, .done] →
      exec (.dlvStart c) s = .next (rejected .busy)) ∧
    (∀ k, s.ch[c.toNat]? = some k → k.phase ∈ [DlvPhase.idle, .done] →
      exec (.dlvStart c) s = .next { s with
        cmdStatus := { s.cmdStatus with rejected := false }
        ch := s.ch.set c.toNat
          { config := k.config, phase := .fill, term := .none, stopReq := false, epochValid := false,
            residue := 0#11, evt := k.evt, evtEn := k.evtEn, wfaults := 0#32, resyncs := 0#32,
            regs := .const 0#64, shadow := k.shadow, maxDurL := k.config, ra := [] } })

/-- 40 R205: DLV_STOP, word (c << 8) | 0x11, on a running channel sets STOP_REQ, and the channel's next step, whatever is
answered, ends its session with CANCELLED; on an IDLE or DONE channel it is accepted with no other effect; a channel
number not below N_DLV is rejected with reason 4, and another word with OPCODE 0x11 with reason 2. -/
def Obligations.DlvStopCancelsAtTheNextStep : Prop :=
  (∀ c : Chan, decodeCommand (c.setWidth 32 <<< 8 ||| 0x11#32) = .ok (.dlvStop c)) ∧
  (∀ (s : State) (w : Word), w.extractLsb' 0 8 = 0x11#8 → w.extractLsb' 12 20 ≠ 0#20 →
    s.command w = .next { s with cmdStatus := ⟨true, 0x11#8, .reservedBits⟩, irqEvents := s.irqEvents ||| 1#10 }) ∧
  ∀ (s : State) (c : Chan),
    let accepted : State := { s with cmdStatus := { s.cmdStatus with rejected := false } }
    (s.nDlv ≤ c.toNat →
      exec (.dlvStop c) s =
        .next { s with cmdStatus := ⟨true, 0x11#8, .channel⟩, irqEvents := s.irqEvents ||| 1#10 }) ∧
    (∀ k, s.ch[c.toNat]? = some k → k.phase ∈ [DlvPhase.idle, .done] → exec (.dlvStop c) s = .next accepted) ∧
    (∀ k, s.ch[c.toNat]? = some k → k.phase ∉ [DlvPhase.idle, .done] →
      exec (.dlvStop c) s = .next { accepted with ch := s.ch.set c.toNat { k with stopReq := true } } ∧
      ∀ ans, State.dlvStep { accepted with ch := s.ch.set c.toNat { k with stopReq := true } } c.toNat ans =
        .next { accepted with
          ch := s.ch.set c.toNat
            { k with phase := .done, term := .cancelled, stopReq := false, evt := k.evt ||| 1#3, ra := [] } })

/-! ## Packet classes -/

/-- 41 R239 (with R232 and R234): a TS_AFC_RESERVED packet, of header H with H AND 0xFF000030 = 0x47000000, counts itself
and marks its PID seen; its other bytes, the filters' sections, the buffers, the events, the channels and every other
register are left alone. -/
def Obligations.AfcReservedOnlyMarksSeen : Prop :=
  (∀ h : Word, headerClass h = .afcReserved ↔ h &&& 0xFF000030#32 = 0x47000000#32) ∧
  ∀ (s : State) (hdr : TsHdr) (body : List Byte), ∃ t, exec (.tsAfcReserved hdr body) s = .next t ∧
    OnlySeen s t hdr.pid ∧ t = { s with dmx := s.countedDmx hdr.pid, flt := t.flt }

/-- 41 R233: a packet whose header H has a bad sync byte is counted, its offset recorded and SYNC_FAULT raised; under
SYNC_POLICY_L = 0 nothing else changes, under 1 the session also ends with SYNC_ABORT. No PID is marked seen and no buffer
byte changes. -/
def Obligations.SyncFaultSkipsOrAborts : Prop :=
  (∀ h : Word, headerClass h = .syncFault ↔ h.extractLsb' 24 8 ≠ 0x47#8) ∧
  ∀ (s : State) (sync : Byte) (rest : List Byte),
    let d : Dmx :=
      { s.dmx with
        pktCount := s.dmx.pktCount + 1#32
        syncFaults := s.dmx.syncFaults + 1#32
        regs := { s.dmx.regs with offset := s.dmx.regs.offset + 188#64, faultOff := s.dmx.regs.offset } }
    (s.dmx.syncPolicyL = false →
      exec (.tsSyncFault sync rest) s = .next { s with dmx := d, irqEvents := s.irqEvents ||| 4#10 }) ∧
    (s.dmx.syncPolicyL = true →
      exec (.tsSyncFault sync rest) s = .next { s with
        dmx := { d with phase := .done, term := .syncAbort, stopReq := false }
        irqEvents := s.irqEvents ||| 4#10 ||| 2#10 })

/-- TS_AF_ONLY without a PCR the framer decodes (41 R238, R235): a field longer than 183, or a PCR flag in a field of 1 to
6 bytes, is one MALFORMED event; an empty field, or one without the PCR flag, is none. Beyond that the packet only counts
itself and marks its PID seen. -/
def Obligations.AfOnlyWithoutPcr : Prop :=
  ∀ (s : State) (hdr : TsHdr) (body : List Byte),
    let l := (byteAt body 0).toNat
    let pcrFlag := (byteAt body 1).getLsbD 4
    (183 < l ∨ (1 ≤ l ∧ l < 7 ∧ pcrFlag = true) →
      ∃ t, exec (.tsAfOnly hdr body) s = .next t ∧ OnlySeen s t hdr.pid ∧
        t = { s with
          dmx := { s.countedDmx hdr.pid with malformed := s.dmx.malformed + 1#32 }
          irqEvents := s.irqEvents ||| 0x80#10
          flt := t.flt }) ∧
    (l = 0 ∨ (1 ≤ l ∧ l ≤ 183 ∧ pcrFlag = false) →
      ∃ t, exec (.tsAfOnly hdr body) s = .next t ∧ OnlySeen s t hdr.pid ∧
        t = { s with dmx := s.countedDmx hdr.pid, flt := t.flt })

/-- TS_AF_ONLY with a PCR (41 R238, R240): the packet completes; beyond counting itself and marking its PID seen it
changes only the clock registers and DMX_DISCONT with its event bit (43), and the index latch and count (44); no filter
section, no buffer byte, no channel. -/
def Obligations.AfOnlyWithPcrFrame : Prop :=
  ∀ (s : State) (hdr : TsHdr) (body : List Byte), HasPcr body →
    ∃ t, exec (.tsAfOnly hdr body) s = .next t ∧ OnlySeen s t hdr.pid ∧
      t = { s with
        flt := t.flt
        irqEvents := t.irqEvents
        dmx := { s.countedDmx hdr.pid with
          pcrSeen := true
          discont := t.dmx.discont
          idxCount := s.dmx.idxCount + 1#32
          idxL := t.dmx.idxL
          regs := { (s.countedDmx hdr.pid).regs with
            pcrBaseNs := t.dmx.regs.pcrBaseNs
            pcrPrevNs := BitVec.ofNat 64 (pcrNs body)
            durationNs := t.dmx.regs.durationNs
            lastDeltaNs := t.dmx.regs.lastDeltaNs
            bitrateBps := t.dmx.regs.bitrateBps
            pcrPrevOff := s.dmx.regs.offset } } } ∧
      (t.irqEvents = s.irqEvents ∨ t.irqEvents = s.irqEvents ||| 8#10)

/-- The first PCR of a session (43 R302, 44 R330): it is the base and the previous PCR, the duration and the last delta
stay, and the record carries the packet's offset, the PCR, the duration and the keyframe bit. Where the DMX registers are
as their invariant says (`Dmx.ok`), the duration, the last delta and the record's duration are 0. For both classes that
carry an adaptation field; the filter of the packet's PID as 42 R272 says. -/
def Obligations.FirstPcrSetsTheBase : Prop :=
  ∀ (s : State) (hdr : TsHdr) (body : List Byte) (i : Instr),
    i = .tsAfOnly hdr body ∨ i = .tsAfPayload hdr body → (s.filter hdr.pid).ok → HasPcr body →
    s.dmx.pcrSeen = false →
    ∃ t, exec i s = .next t ∧ t.dmx.pcrSeen = true ∧
      t.dmx.regs = { s.dmx.regs with
        offset := s.dmx.regs.offset + 188#64
        pcrBaseNs := BitVec.ofNat 64 (pcrNs body)
        pcrPrevNs := BitVec.ofNat 64 (pcrNs body)
        pcrPrevOff := s.dmx.regs.offset } ∧
      t.dmx.discont = s.dmx.discont ∧ t.dmx.idxCount = s.dmx.idxCount + 1#32 ∧
      t.dmx.idxL = some
        { offset := s.dmx.regs.offset
          pcrNs := BitVec.ofNat 64 (pcrNs body)
          durationNs := s.dmx.regs.durationNs
          keyframe := !s.dmx.keyframeModeL && raiOf body } ∧
      (s.dmx.ok → t.dmx.regs.durationNs = 0#64 ∧ t.dmx.regs.lastDeltaNs = 0#64 ∧
        ∀ r, t.dmx.idxL = some r → r.durationNs = 0#64)

/-- A later PCR with a valid delta (43 R303, R306 to R308, 44 R330): the duration grows by the delta modulo 2^64, the
delta is the last trusted one, the bitrate is the truncated quotient of bits and delta where the delta is positive and
unchanged where it is 0, and the record carries the new duration. -/
def Obligations.ValidDeltaAccumulates : Prop :=
  ∀ (s : State) (hdr : TsHdr) (body : List Byte) (i : Instr),
    i = .tsAfOnly hdr body ∨ i = .tsAfPayload hdr body → (s.filter hdr.pid).ok → HasPcr body →
    s.dmx.pcrSeen = true →
    let delta : Int := pcrNs body - s.dmx.regs.pcrPrevNs.toNat
    let dist : Int := s.dmx.regs.offset.toNat - s.dmx.regs.pcrPrevOff.toNat
    0 ≤ delta → delta ≤ 500000000 →
    ∃ t, exec i s = .next t ∧
      t.dmx.regs = { s.dmx.regs with
        offset := s.dmx.regs.offset + 188#64
        pcrPrevNs := BitVec.ofNat 64 (pcrNs body)
        pcrPrevOff := s.dmx.regs.offset
        durationNs := s.dmx.regs.durationNs + BitVec.ofInt 64 delta
        lastDeltaNs := BitVec.ofInt 64 delta
        bitrateBps :=
          if delta = 0 then s.dmx.regs.bitrateBps
          else BitVec.ofInt 64 (Int.tdiv (dist * 8000000000) delta) } ∧
      t.dmx.discont = s.dmx.discont ∧
      t.dmx.idxL = some
        { offset := s.dmx.regs.offset
          pcrNs := BitVec.ofNat 64 (pcrNs body)
          durationNs := s.dmx.regs.durationNs + BitVec.ofInt 64 delta
          keyframe := !s.dmx.keyframeModeL && raiOf body }

/-- A later PCR with a discontinuity (43 R303, R305, R308, 44 R330): the last trusted delta is applied and kept, the
bitrate stays, DMX_DISCONT counts it and DISCONT is latched, the new PCR becomes the previous one, and the record is
still made. -/
def Obligations.DiscontinuityAppliesTheLastDelta : Prop :=
  ∀ (s : State) (hdr : TsHdr) (body : List Byte) (i : Instr),
    i = .tsAfOnly hdr body ∨ i = .tsAfPayload hdr body → (s.filter hdr.pid).ok → HasPcr body →
    s.dmx.pcrSeen = true →
    ((pcrNs body : Int) < s.dmx.regs.pcrPrevNs.toNat ∨ 500000000 < (pcrNs body : Int) - s.dmx.regs.pcrPrevNs.toNat) →
    ∃ t, exec i s = .next t ∧
      t.dmx.regs = { s.dmx.regs with
        offset := s.dmx.regs.offset + 188#64
        pcrPrevNs := BitVec.ofNat 64 (pcrNs body)
        pcrPrevOff := s.dmx.regs.offset
        durationNs := s.dmx.regs.durationNs + s.dmx.regs.lastDeltaNs } ∧
      t.dmx.discont = s.dmx.discont + 1#32 ∧ t.latched .discont = true ∧
      t.dmx.idxL = some
        { offset := s.dmx.regs.offset
          pcrNs := BitVec.ofNat 64 (pcrNs body)
          durationNs := s.dmx.regs.durationNs + s.dmx.regs.lastDeltaNs
          keyframe := !s.dmx.keyframeModeL && raiOf body }

/-- 43 R301 and R304: the PCR in nanoseconds is the truncated quotient, at most 95_443_717_696_703, so no register wraps;
a delta of 0 and of 500_000_000 is valid, of -1 and of 500_000_001 a discontinuity. -/
def Obligations.PcrConversionAndDeltaBounds : Prop :=
  (∀ (base : BitVec 33) (ext : BitVec 9),
    (pcrToNs base ext).toNat = (base.toNat * 300 + ext.toNat) * 1000 / 27 ∧
    base.toNat * 300 + ext.toNat ≤ 2576980377811 ∧
    (base.toNat * 300 + ext.toNat) * 1000 / 27 ≤ 95443717696703) ∧
  isDiscontinuity 0 = false ∧ isDiscontinuity 500000000 = false ∧
  isDiscontinuity 500000001 = true ∧ isDiscontinuity (-1) = true

/-- The two classes with a payload complete whenever the filter of their PID is as 42 R272 says, keep that, and leave
alone all but: the packet counters and the PID's SEEN (41 R232, R234); the section counters, the program-table registers,
the PID's filter and other filters' CODEC (42); the clock and index registers when an adaptation field carries a PCR
(43, 44); and the buffer bytes from where the offered section bytes start, at most one for each. Event bits are only
set. A payload that is dropped leaves the buffers, the codecs, the program tables and their counters alone. -/
def Obligations.PayloadPacketsComplete : Prop :=
  ∀ (s : State) (hdr : TsHdr) (body : List Byte) (i : Instr) (payload : List Byte),
    (i = .tsPayload hdr body ∧ payload = body) ∨
    (i = .tsAfPayload hdr body ∧
      payload = if (byteAt body 0).toNat ≤ 183 then body.drop (1 + (byteAt body 0).toNat) else []) →
    (s.filter hdr.pid).ok →
    ∃ t, exec i s = .next t ∧ (t.filter hdr.pid).ok ∧ (t.filter hdr.pid).seen = true ∧
      t.hw = s.hw ∧ t.cmdStatus = s.cmdStatus ∧ t.irqEnable = s.irqEnable ∧ t.ch = s.ch ∧ t.env = s.env ∧
      (∀ q, q ≠ hdr.pid → t.filter q = { s.filter q with codec := (t.filter q).codec }) ∧
      s.irqEvents &&& ~~~t.irqEvents = 0#10 ∧
      t.dmx.regs.offset = s.dmx.regs.offset + 188#64 ∧ t.dmx.pktCount = s.dmx.pktCount + 1#32 ∧
      t.dmx.seenPids = (if (s.filter hdr.pid).seen then s.dmx.seenPids else s.dmx.seenPids + 1#14) ∧
      t.dmx.phase = s.dmx.phase ∧ t.dmx.term = s.dmx.term ∧ t.dmx.stopReq = s.dmx.stopReq ∧
      t.dmx.truncBytes = s.dmx.truncBytes ∧ t.dmx.syncFaults = s.dmx.syncFaults ∧
      t.dmx.regs.faultOff = s.dmx.regs.faultOff ∧ t.dmx.shadow = s.dmx.shadow ∧ t.dmx.config = s.dmx.config ∧
      t.dmx.fltSel = s.dmx.fltSel ∧ t.dmx.fltLenPos = s.dmx.fltLenPos ∧ t.dmx.fltLenSize = s.dmx.fltLenSize ∧
      t.dmx.syncPolicyL = s.dmx.syncPolicyL ∧ t.dmx.keyframeModeL = s.dmx.keyframeModeL ∧
      (¬ (i = .tsAfPayload hdr body ∧ HasPcr body) →
        t.dmx.regs = { s.dmx.regs with offset := s.dmx.regs.offset + 188#64 } ∧ t.dmx.pcrSeen = s.dmx.pcrSeen ∧
        t.dmx.discont = s.dmx.discont ∧ t.dmx.idxCount = s.dmx.idxCount ∧ t.dmx.idxL = s.dmx.idxL) ∧
      (∀ a, ¬ (dataAddr hdr.pid (offerStart hdr.pusi (s.filter hdr.pid)) ≤ a ∧
          a < dataAddr hdr.pid (offerStart hdr.pusi (s.filter hdr.pid)) + (sectionOffer hdr.pusi payload).length) →
        t.mem.read a = s.mem.read a) ∧
      ((hdr.pid ≠ 0#13 ∧ ¬ (s.dmx.pmtValid = true ∧ hdr.pid = s.dmx.pmtPid)) ∨
        (s.filter hdr.pid).invalid = true ∨ (hdr.pusi = false ∧ (s.filter hdr.pid).active = false) →
        t.mem = s.mem ∧ (∀ q, (t.filter q).codec = (s.filter q).codec) ∧
        t.dmx.pmtValid = s.dmx.pmtValid ∧ t.dmx.pmtPid = s.dmx.pmtPid ∧
        t.dmx.pcrPidValid = s.dmx.pcrPidValid ∧ t.dmx.pcrPid = s.dmx.pcrPid ∧
        t.dmx.secDone = s.dmx.secDone ∧ t.dmx.secDiscard = s.dmx.secDiscard ∧
        t.dmx.secOvf = s.dmx.secOvf ∧ t.dmx.unkStype = s.dmx.unkStype)

/-! ## Sections and tables -/

/-- A TS_PAYLOAD packet on a PID that is no section PID, or whose filter is invalid, or that continues a section where none
is in progress, has its payload dropped: it only counts itself and marks its PID seen (42 R260, R261, R265). -/
def Obligations.DroppedPayloadsChangeNothing : Prop :=
  ∀ (s : State) (hdr : TsHdr) (body : List Byte),
    (hdr.pid ≠ 0#13 ∧ ¬ (s.dmx.pmtValid = true ∧ hdr.pid = s.dmx.pmtPid)) ∨
    (s.filter hdr.pid).invalid = true ∨
    (hdr.pusi = false ∧ (s.filter hdr.pid).active = false) →
    ∃ t, exec (.tsPayload hdr body) s = .next t ∧ OnlySeen s t hdr.pid ∧
      t = { s with dmx := s.countedDmx hdr.pid, flt := t.flt }

/-- A section carried whole in one payload-start packet on PID 0 (42 R261 to R267): whatever bytes follow it, it is
accumulated, dispatched to the PAT parser and cleared; an unfinished section before it is counted as discarded; the PMT
PID becomes that of the section's first entry with a nonzero program number, if it has one. On every section PID, that of
the PMT among them, a packet with a payload, and without a PCR or a malformed adaptation field, is the SectionInput of its
payload once it is counted and its PID marked seen (41 R236, R237, R240); what SectionInput does, the statement
BufferHoldsTheAppendedBytes says. -/
def Obligations.WholePatPacketIsParsed : Prop :=
  (∀ (s : State) (hdr : TsHdr) (body payload : List Byte) (i : Instr),
    (i = .tsPayload hdr body ∧ payload = body) ∨
    (i = .tsAfPayload hdr body ∧ (byteAt body 0).toNat ≤ 183 ∧
      ((byteAt body 0).toNat = 0 ∨ (byteAt body 1).getLsbD 4 = false) ∧
      payload = body.drop (1 + (byteAt body 0).toNat)) →
    payload ≠ [] → hdr.pid = 0#13 ∨ (s.dmx.pmtValid = true ∧ hdr.pid = s.dmx.pmtPid) → (s.filter hdr.pid).ok →
    ∃ u t, OnlySeen s u hdr.pid ∧ u = { s with dmx := s.countedDmx hdr.pid, flt := u.flt } ∧
      u.sectionInput hdr.pid hdr.pusi payload = .ok t ∧ exec i s = .next t) ∧
  ∀ (s : State) (hdr : TsHdr) (sec rest : List Byte),
    hdr.pid = 0#13 → hdr.pusi = true → (s.filter 0#13).invalid = false →
    3 ≤ sec.length → sec.length ≤ 183 →
    sec.length = 3 + ((byteAt sec 1).toNat % 16 * 256 + (byteAt sec 2).toNat) →
    ∃ t, exec (.tsPayload hdr (0x00#8 :: (sec ++ rest))) s = .next t ∧
      t.filter 0#13 = { s.filter 0#13 with seen := true, active := false, size := 0#13, pos := 0#13 } ∧
      (∀ q, q ≠ 0#13 → t.filter q = s.filter q) ∧
      t.dmx.secDone = s.dmx.secDone + 1#32 ∧ t.latched .table = true ∧
      t.dmx.secDiscard = (if (s.filter 0#13).active then s.dmx.secDiscard + 1#32 else s.dmx.secDiscard) ∧
      (∀ n, 8 + 4 * n + 8 ≤ sec.length →
        byteAt sec (8 + 4 * n) ++ byteAt sec (9 + 4 * n) ≠ 0#16 →
        (∀ m, m < n → byteAt sec (8 + 4 * m) ++ byteAt sec (9 + 4 * m) = 0#16) →
        t.dmx.pmtValid = true ∧
          t.dmx.pmtPid = (byteAt sec (10 + 4 * n)).extractLsb' 0 5 ++ byteAt sec (11 + 4 * n)) ∧
      ((∀ n, 8 + 4 * n + 8 ≤ sec.length → byteAt sec (8 + 4 * n) ++ byteAt sec (9 + 4 * n) = 0#16) →
        t.dmx.pmtValid = s.dmx.pmtValid ∧ t.dmx.pmtPid = s.dmx.pmtPid)

/-- 42 R267: ParsePAT takes the PID of the first 4-byte entry from byte 8 on, inside the section less its last 4 bytes,
whose program number is not 0, and changes nothing else; without such an entry it changes nothing. -/
def Obligations.PatTakesTheFirstNonzeroProgram : Prop :=
  ∀ (s : State) (d : List Byte) (size : Nat),
    (∀ n, 8 + 4 * n + 8 ≤ size →
      byteAt d (8 + 4 * n) ++ byteAt d (9 + 4 * n) ≠ 0#16 →
      (∀ m, m < n → byteAt d (8 + 4 * m) ++ byteAt d (9 + 4 * m) = 0#16) →
      s.parsePat d size = { s with dmx := { s.dmx with
        pmtPid := (byteAt d (10 + 4 * n)).extractLsb' 0 5 ++ byteAt d (11 + 4 * n)
        pmtValid := true } }) ∧
    ((∀ n, 8 + 4 * n + 8 ≤ size → byteAt d (8 + 4 * n) ++ byteAt d (9 + 4 * n) = 0#16) →
      s.parsePat d size = s)

/-- 42 R269: a PMT section shorter than 16 bytes is one MALFORMED event; a longer one names the PCR PID, gives each PID the
codec of its last entry of a known type, counts each entry of an unknown type, and changes nothing else. The type of an
entry is known by STYPE_MAP: 0x1B is H264 whatever the rows (30_encoding.md R151); the default rows are those of R152, which
the spec marks as general knowledge, with NONE for every other type (log entry 7); the codecs have the codes of R150, "the
spec's own choice". -/
def Obligations.PmtAssignsCodecs : Prop :=
  (∀ rows : List (Byte × Codec), stypeMap rows 0x1B#8 = .h264) ∧
  [0x02#8, 0x04#8, 0x0F#8, 0x03#8, 0x11#8, 0x81#8].map (stypeMap HwParams.default.stypeRows) =
    [.mpeg2Video, .mpeg2Audio, .aac, .mp3, .mp4Audio, .ac3] ∧
  (∀ st : Byte, st ∉ [0x1B#8, 0x02#8, 0x04#8, 0x0F#8, 0x03#8, 0x11#8, 0x81#8] →
    stypeMap HwParams.default.stypeRows st = .none) ∧
  [.none, .h264, .mpeg2Video, .mpeg2Audio, .aac, .mp3, .mp4Audio, .ac3].map Codec.code =
    [0#3, 1#3, 2#3, 3#3, 4#3, 5#3, 6#3, 7#3] ∧
  ∀ (s : State) (d : List Byte) (size : Nat),
    (size < 16 → s.parsePmt d size = { s with
      dmx := { s.dmx with malformed := s.dmx.malformed + 1#32 }, irqEvents := s.irqEvents ||| 0x80#10 }) ∧
    (16 ≤ size →
      let t := s.parsePmt d size
      let es := pmtEntries d size size (12 + ((byteAt d 10).toNat % 16 * 256 + (byteAt d 11).toNat))
      let unknown (e : Byte × Pid) : Bool := stypeMap s.hw.stypeRows e.1 == .none
      (∀ q, t.filter q = { s.filter q with codec :=
        match (es.reverse.find? (fun e => e.2 == q && !unknown e)) with
        | some e => stypeMap s.hw.stypeRows e.1
        | none => (s.filter q).codec }) ∧
      t = { s with
        flt := t.flt
        irqEvents := if es.any unknown then s.irqEvents ||| 0x20#10 else s.irqEvents
        dmx := { s.dmx with
          pcrPid := (byteAt d 8).extractLsb' 0 5 ++ byteAt d 9
          pcrPidValid := true
          unkStype := s.dmx.unkStype + BitVec.ofNat 32 (es.countP unknown) } })

/-- 42 R268 and R270: the parsers read no byte of the last four of a section, nor any beyond it: two buffers that agree
below size - 4 are parsed alike. -/
def Obligations.ParsersReadInsideTheSection : Prop :=
  ∀ (s : State) (d d' : List Byte) (size : Nat), (∀ i, i + 5 ≤ size → byteAt d i = byteAt d' i) →
    s.parsePat d size = s.parsePat d' size ∧ s.parsePmt d size = s.parsePmt d' size

/-- While a section stays incomplete its buffer holds exactly the bytes appended, in order, after those it held
(42 R263, R264, 10_state.md R67). And SectionInput (42 R261 to R266) on any PID whose filter is not invalid, in a
payload-start packet or with a section in progress: a start packet counts the section it abandons; a pointer field past the
payload is one MALFORMED event and no section; else the bytes held are those of the section so far, and the section goes on
where they are fewer than its size, is an overflow, the filter invalid with POS 3, where the size is above 4096, and is
otherwise counted, given to the PAT or PMT parser, cut to its size, and cleared. -/
def Obligations.BufferHoldsTheAppendedBytes : Prop :=
  (∀ (s t : State) (p : Pid) (x : List Byte), (s.filter p).ok → s.append p x = .ok t → (t.filter p).active = true →
    (t.filter p).pos.toNat = (s.filter p).pos.toNat + x.length ∧
    ∀ j, j < (t.filter p).pos.toNat →
      t.data p j =
        if j < (s.filter p).pos.toNat then s.data p j else byteAt x (j - (s.filter p).pos.toNat)) ∧
  ∀ (s : State) (p : Pid) (pusi : Bool) (payload : List Byte),
    let f := s.filter p
    f.ok → f.invalid = false → pusi = true ∨ f.active = true →
    let s0 : State :=
      if pusi = true ∧ f.active = true then
        { s with dmx := { s.dmx with secDiscard := s.dmx.secDiscard + 1#32 }, irqEvents := s.irqEvents ||| 0x40#10 }
      else s
    let pastEnd : Prop := pusi = true ∧ payload.length < 1 + (byteAt payload 0).toNat
    let held : List Byte := (if pusi then [] else s.sectionBytes p f.pos.toNat) ++ sectionOffer pusi payload
    let size : Nat := if pusi = true ∨ f.size = 0#13 then sizeOf3 held else f.size.toNat
    ∃ t, s.sectionInput p pusi payload = .ok t ∧
      (pastEnd →
        (∀ q, t.filter q = if q = p then { f with active := false, size := 0#13, pos := 0#13 } else s.filter q) ∧
        t = { s0 with
          flt := t.flt
          dmx := { s0.dmx with malformed := s.dmx.malformed + 1#32 }
          irqEvents := s0.irqEvents ||| 0x80#10 }) ∧
      (¬ pastEnd → SectionOutcome s0 t p held size)

/-- 42 R262: a step makes an inactive filter active, or but for hardware reset changes a byte of its buffer, only as a
payload-start packet, of a class with a payload, on its PID. -/
def Obligations.OnlyPayloadStartActivates : Prop :=
  ∀ (s t : State) (p : Pid), step s = .next t → (s.filter p).active = false →
    (t.filter p).active = true ∨ (s.nextAction ≠ some .reset ∧ ∃ i, i < 4096 ∧ t.data p i ≠ s.data p i) →
    ∃ b hdr body, s.nextAction = some (.dmx (.bytes b)) ∧ hdr.pid = p ∧ hdr.pusi = true ∧
      (decodePacket b = .ok (.tsPayload hdr body) ∨ decodePacket b = .ok (.tsAfPayload hdr body))

/-- An invalid filter stays invalid, with POS and SIZE as they are, over every step but FLT_RESET of its PID, an accepted
DMX_START and hardware reset (42 R265, 60 R404, 70 R450). -/
def Obligations.InvalidFilterStaysUntilReset : Prop :=
  ∀ (s t : State) (p : Pid), step s = .next t → (s.filter p).invalid = true →
    s.nextAction ≠ some (.hostWrite 0x004#12 4 (cmdWord 0x03#8 0#4 p)) →
    s.nextAction ≠ some (.hostWrite 0x004#12 4 0x00000001#32) →
    s.nextAction ≠ some .reset →
    (t.filter p).invalid = true ∧ (t.filter p).pos = (s.filter p).pos ∧ (t.filter p).size = (s.filter p).size

/-- 42 R272: its clauses (a) to (e) hold of every filter after reset, and every step keeps them. -/
def Obligations.StepKeepsTheFilterInvariant : Prop :=
  (∀ (n : Nat) (hw : HwParams) (env : Env), (State.resetWith n hw env).FiltersOk) ∧
  ∀ s t : State, s.FiltersOk → step s = .next t → t.FiltersOk

/-- 20_memory.md R120: from a state whose filters are as 42 R272 says, no step stores a section byte outside a buffer;
the model's only fault is never raised. -/
def Obligations.SectionBuffersAreNeverOverrun : Prop :=
  ∀ (s : State) (f : Fault), s.FiltersOk → step s ≠ .fault f

/-- Every step keeps the filter buffers and the filter table in canonical form: keys rising, inside the 8192 buffers of
4096 bytes and the 8192 PIDs, and nothing listed that reads as an unlisted entry does (20_memory.md R100, 10_state.md
R68; the form is the model's, log entry 8). -/
def Obligations.StepKeepsTheTablesCanonical : Prop :=
  ∀ s t : State, s.TablesWf → step s = .next t → t.TablesWf

/-- 10_state.md R54: every step keeps DMX_SEEN_PIDS equal to the number of PIDs with SEEN = 1. -/
def Obligations.StepKeepsSeenPidsCounted : Prop :=
  ∀ s t : State, s.SeenCounted → step s = .next t → t.SeenCounted

/-! ## The DMX session -/

/-- 41 R230: DMX steps only in RUN; a pending stop is its only step, whatever TS_IN and IDX_OUT do; else a full latch
holds it; else it reads. -/
def Obligations.DmxStepSelection : Prop :=
  ∀ (s : State) (ans : PortAns), s.nextAction = some (.dmx ans) →
    (s.dmx.phase ≠ .run → step s = .next s.popped) ∧
    (s.dmx.phase = .run → s.dmx.stopReq = true →
      step s = .next { s.popped with
        dmx := { s.dmx with phase := .done, term := .cancelled, stopReq := false }
        irqEvents := s.irqEvents ||| 2#10 }) ∧
    (s.dmx.phase = .run → s.dmx.stopReq = false → s.dmx.idxL ≠ none → step s = .next s.popped) ∧
    (s.dmx.phase = .run → s.dmx.stopReq = false → s.dmx.idxL = none → step s = s.popped.dmxRead ans)

/-- 41 R241 and R242: an end of source with k bytes left records k in TRUNC_BYTES and raises TRUNC when k is not 0, and
ends the session with END_OF_SOURCE; a read fault ends it with READ_FAULT; neither moves DMX_OFFSET nor changes anything
else. -/
def Obligations.EndOfInputEndsTheSession : Prop :=
  ∀ s : State, s.dmx.phase = .run → s.dmx.stopReq = false → s.dmx.idxL = none →
    (s.nextAction = some (.dmx (.eos 0)) →
      step s = .next { s.popped with
        dmx := { s.dmx with phase := .done, term := .endOfSource, stopReq := false }
        irqEvents := s.irqEvents ||| 2#10 }) ∧
    (∀ k, 0 < k → k < 188 → s.nextAction = some (.dmx (.eos k)) →
      step s = .next { s.popped with
        dmx := { s.dmx with truncBytes := BitVec.ofNat 8 k, phase := .done, term := .endOfSource, stopReq := false }
        irqEvents := s.irqEvents ||| 0x200#10 ||| 2#10 }) ∧
    (s.nextAction = some (.dmx .fault) →
      step s = .next { s.popped with
        dmx := { s.dmx with phase := .done, term := .readFault, stopReq := false }
        irqEvents := s.irqEvents ||| 2#10 })

/-- Every step keeps what 10_state.md R42 and R63, 43 R302 and 44 R330 say of the DMX registers: TERM is 0 exactly outside
DONE, STOP_REQ only in RUN, TRUNC_BYTES at most 187, LAST_DELTA_NS in 0 to 500_000_000, and before the first PCR of a
session a zero duration and an empty latch. -/
def Obligations.StepKeepsTheDmxInvariant : Prop :=
  ∀ s t : State, s.dmx.ok → step s = .next t → t.dmx.ok

/-- 43 R309: while a session runs DURATION_NS never decreases: over every step but hardware reset, if adding one more
trusted delta does not pass 2^63. -/
def Obligations.DurationNeverDecreases : Prop :=
  ∀ s t : State, s.dmx.ok → s.dmx.phase = .run → step s = .next t → s.nextAction ≠ some .reset →
    s.dmx.regs.durationNs.toInt + 500000000 < 2 ^ 63 →
    s.dmx.regs.durationNs.toInt ≤ t.dmx.regs.durationNs.toInt

/-- 44 R331: the take step delivers the latched record and empties the latch, in every state of the session, and is not
enabled on an empty latch; while the latch is full DMX holds but for a stop request, and DMX_START is refused with reason
3. -/
def Obligations.TakeStepDeliversTheRecord : Prop :=
  ∀ s : State,
    (s.nextAction = some .take →
      (∀ r, s.dmx.idxL = some r →
        step s = .next { s.popped with
          dmx := { s.dmx with idxL := none }
          env := { s.popped.env with idxOut := s.env.idxOut ++ [r] } }) ∧
      (s.dmx.idxL = none → step s = .next s.popped)) ∧
    (s.dmx.idxL ≠ none →
      (∀ ans, s.nextAction = some (.dmx ans) → s.dmx.stopReq = false → step s = .next s.popped) ∧
      exec .dmxStart s = .next { s with cmdStatus := ⟨true, 0x01#8, .busy⟩, irqEvents := s.irqEvents ||| 1#10 })

/-! ## Delivery channels -/

/-- 45 R351 and R360: a channel that is IDLE or DONE has no step; a pending stop is a running channel's only step,
whatever is answered, and writes no chunk; otherwise its step is that of its phase, which holds while its port primitive
is unanswered or, in WAIT, while WALL_NS is below WAKE_NS. -/
def Obligations.ChannelStepSelection : Prop :=
  ∀ (s : State) (c : Nat) (k : Channel) (ans : PortAns), s.nextAction = some (.dlv c ans) → s.ch[c]? = some k →
    (k.phase ∈ [DlvPhase.idle, .done] → step s = .next s.popped) ∧
    (k.phase ∉ [DlvPhase.idle, .done] → k.stopReq = true →
      step s = .next { s.popped with
        ch := s.ch.set c
          { k with phase := .done, term := .cancelled, stopReq := false, evt := k.evt ||| 1#3, ra := [] } }) ∧
    (k.phase ∈ [DlvPhase.fill, .tsread, .write] → k.stopReq = false → ans = .unanswered →
      step s = .next s.popped) ∧
    (k.phase = .wait → k.stopReq = false → s.env.wallNs.toNat < k.regs.wakeNs.toNat → step s = .next s.popped)

/-- 45 R353: FILL appends the bytes read to RA and enters TSREAD exactly when a whole chunk is there; the end of source
records the remainder in RESIDUE and ends the session; a read fault ends it; nothing outside the channel changes. -/
def Obligations.FillAppendsOrEnds : Prop :=
  ∀ (s : State) (c : Nat) (k : Channel) (ans : PortAns), s.nextAction = some (.dlv c ans) → s.ch[c]? = some k →
    k.phase = .fill → k.stopReq = false →
    (∀ b, ans = .bytes b → 1 ≤ b.length → b.length ≤ s.hw.raBufSize - k.ra.length →
      step s = .next { s.popped with
        ch := s.ch.set c
          { k with ra := k.ra ++ b, phase := if 1316 ≤ k.ra.length + b.length then .tsread else .fill } }) ∧
    (ans = .eos 0 →
      step s = .next { s.popped with
        ch := s.ch.set c
          { k with residue := BitVec.ofNat 11 k.ra.length, phase := .done, term := .endOfSource, stopReq := false,
                   evt := k.evt ||| 1#3, ra := [] } }) ∧
    (ans = .fault →
      step s = .next { s.popped with
        ch := s.ch.set c
          { k with phase := .done, term := .readFault, stopReq := false, evt := k.evt ||| 1#3, ra := [] } })

/-- TSREAD away from check points (45 R355 to R358): chunk 0's timestamp captures the epoch with the wall clock; another
chunk's, away from a check point, updates the last good delta where the timestamp does not decrease; both enter WRITE. A
track that ends, in the middle of an entry too, ends the session with TRACK_EXHAUSTED, a read fault with READ_FAULT. -/
def Obligations.TsreadTakesTheTimestamp : Prop :=
  ∀ (s : State) (c : Nat) (k : Channel) (ans : PortAns), s.nextAction = some (.dlv c ans) → s.ch[c]? = some k →
    k.phase = .tsread → k.stopReq = false →
    (∀ b, ans = .bytes b → b.length = 8 →
      let ts : DWord := BitVec.ofNat 64 (beNat b)
      (k.regs.chunks = 0#64 →
        step s = .next { s.popped with
          ch := s.ch.set c
            { k with
              epochValid := true
              phase := .write
              regs := { k.regs with
                curTs := ts, epochWall := s.env.wallNs, epochStream := ts, firstTs := ts, prevTs := ts } } }) ∧
      (k.regs.chunks.toNat % 10 ≠ 0 →
        step s = .next { s.popped with
          ch := s.ch.set c
            { k with
              phase := .write
              regs := { k.regs with
                curTs := ts
                prevTs := ts
                lastGoodDelta :=
                  if k.regs.prevTs.toNat ≤ ts.toNat then ts - k.regs.prevTs else k.regs.lastGoodDelta } } })) ∧
    (∀ j, ans = .eos j → j < 8 →
      step s = .next { s.popped with
        ch := s.ch.set c
          { k with phase := .done, term := .trackExhausted, stopReq := false, evt := k.evt ||| 1#3, ra := [] } }) ∧
    (ans = .fault →
      step s = .next { s.popped with
        ch := s.ch.set c
          { k with phase := .done, term := .readFault, stopReq := false, evt := k.evt ||| 1#3, ra := [] } })

/-- 45 R359 at a check point (a chunk number that is a positive multiple of 10, R358), in signed 64-bit arithmetic: past
the cap the session ends; else a positive delay waits until now + delay; else a delay below -1 s resyncs to (now, ts) and
is counted; else the chunk is written. -/
def Obligations.CheckPointPacesTheChannel : Prop :=
  ∀ (s : State) (c : Nat) (k : Channel) (b : List Byte), s.nextAction = some (.dlv c (.bytes b)) →
    s.ch[c]? = some k → k.phase = .tsread → k.stopReq = false → b.length = 8 →
    k.regs.chunks ≠ 0#64 → k.regs.chunks.toNat % 10 = 0 →
    let ts : DWord := BitVec.ofNat 64 (beNat b)
    let now : DWord := s.env.wallNs
    let wrap (x : Int) : Int := Int.bmod x (2 ^ 64)
    let t2ns (x : Int) : Int := Int.tdiv (wrap (x * 1000)) 27
    let capElapsed : Int := t2ns (wrap ((ts.toNat : Int) - k.regs.firstTs.toNat))
    let streamElapsed : Int := t2ns (wrap ((ts.toNat : Int) - k.regs.epochStream.toNat))
    let wallElapsed : Int := wrap ((now.toNat : Int) - k.regs.epochWall.toNat)
    let delay : Int := wrap (streamElapsed - wallElapsed)
    let capped : Prop := k.maxDurL ≠ 0#32 ∧ (k.maxDurL.toNat : Int) * 1000000000 < capElapsed
    let k1 : Channel :=
      { k with regs := { k.regs with
        curTs := ts
        prevTs := ts
        lastGoodDelta := if k.regs.prevTs.toNat ≤ ts.toNat then ts - k.regs.prevTs else k.regs.lastGoodDelta } }
    let k2 : Channel := { k1 with regs := { k1.regs with lastDelay := BitVec.ofInt 64 delay } }
    (capped → step s = .next { s.popped with
      ch := s.ch.set c
        { k1 with phase := .done, term := .durationCap, stopReq := false, evt := k.evt ||| 1#3, ra := [] } }) ∧
    (¬ capped → 0 < delay → step s = .next { s.popped with
      ch := s.ch.set c
        { k2 with phase := .wait, regs := { k2.regs with wakeNs := now + BitVec.ofInt 64 delay } } }) ∧
    (¬ capped → delay < -1000000000 → step s = .next { s.popped with
      ch := s.ch.set c
        { k2 with
          phase := .write
          resyncs := k.resyncs + 1#32
          evt := k.evt ||| 4#3
          regs := { k2.regs with epochWall := now, epochStream := ts } } }) ∧
    (¬ capped → delay ≤ 0 → -1000000000 ≤ delay →
      step s = .next { s.popped with ch := s.ch.set c { k2 with phase := .write } })

/-- 45 R372: a WAIT without a stop request becomes WRITE exactly from WALL_NS at or above WAKE_NS on, as unsigned numbers,
and changes nothing else; before, it holds. -/
def Obligations.WaitEndsAtTheWakeTime : Prop :=
  ∀ (s : State) (c : Nat) (k : Channel) (ans : PortAns), s.nextAction = some (.dlv c ans) → s.ch[c]? = some k →
    k.phase = .wait → k.stopReq = false →
    (k.regs.wakeNs.toNat ≤ s.env.wallNs.toNat →
      step s = .next { s.popped with ch := s.ch.set c { k with phase := .write } }) ∧
    (s.env.wallNs.toNat < k.regs.wakeNs.toNat → step s = .next s.popped)

/-- 45 R374: a write answered OK delivers the first 1316 bytes of RA, unchanged, and counts 1316 bytes; one answered FAULT
delivers nothing, is counted and latched; either way the chunk leaves RA, DLV_CHUNKS advances by one, and the phase is
TSREAD exactly when a whole chunk remains. -/
def Obligations.WriteConsumesOneChunk : Prop :=
  ∀ (s : State) (c : Nat) (k : Channel) (ans : PortAns), s.nextAction = some (.dlv c ans) → s.ch[c]? = some k →
    k.phase = .write → k.stopReq = false →
    let next : DlvPhase := if 1316 ≤ k.ra.length - 1316 then .tsread else .fill
    (ans = .ok →
      step s = .next { s.popped with
        env := { s.popped.env with chOut := s.env.chOut ++ [(c, k.ra.take 1316)] }
        ch := s.ch.set c
          { k with
            ra := k.ra.drop 1316
            phase := next
            regs := { k.regs with chunks := k.regs.chunks + 1#64, bytes := k.regs.bytes + 1316#64 } } }) ∧
    (ans = .fault →
      step s = .next { s.popped with
        ch := s.ch.set c
          { k with
            ra := k.ra.drop 1316
            phase := next
            wfaults := k.wfaults + 1#32
            evt := k.evt ||| 2#3
            regs := { k.regs with chunks := k.regs.chunks + 1#64 } } })

/-- 45 R377: a channel's step changes no other channel and nothing of DMX, the filters, the buffers and the global
registers; what it makes of its own channel depends on that channel, the wall clock and RA_BUF_SIZE alone; a DMX step
changes no channel. -/
def Obligations.SessionsAreIndependent : Prop :=
  (∀ (s t : State) (c : Nat) (ans : PortAns), s.dlvStep c ans = .next t →
    (∀ c', c' ≠ c → t.ch[c']? = s.ch[c']?) ∧
    t = { s with ch := t.ch, env := { s.env with chOut := t.env.chOut } }) ∧
  (∀ (s s' t : State) (c : Nat) (ans : PortAns), s.ch[c]? = s'.ch[c]? → s.env.wallNs = s'.env.wallNs →
    s.hw.raBufSize = s'.hw.raBufSize → s.dlvStep c ans = .next t →
    ∃ t', s'.dlvStep c ans = .next t' ∧ t'.ch[c]? = t.ch[c]?) ∧
  (∀ (s t : State) (ans : PortAns), s.dmxStep ans = .next t → t.ch = s.ch)

/-- Every step keeps what 10_state.md R73 and R89 and 45 R350 to R374 say of every channel: a whole chunk in RA in
TSREAD, WAIT and WRITE, less than one in FILL, none in IDLE and DONE, never more than RA_BUF_SIZE; TERM is 0 exactly
outside DONE; STOP_REQ only while a session runs; RESIDUE at most 1315; the epoch is captured before any write. -/
def Obligations.StepKeepsTheChannelInvariant : Prop :=
  ∀ s t : State, s.ChannelsOk → step s = .next t → t.ChannelsOk

/-- Every step keeps, for every channel, DLV_BYTES equal to 1316 for each completed write that did not fault, as far as
the width of DLV_WFAULTS can tell (45 R374, R375, 10_state.md R76 to R79). -/
def Obligations.StepKeepsBytesCounted : Prop :=
  ∀ s t : State, (∀ k ∈ s.ch, k.BytesCounted) → step s = .next t → ∀ k ∈ t.ch, k.BytesCounted

/-! ## Events and the register space -/

/-- 60 R420: IRQ is up exactly when an enabled event bit of IRQ_STATUS, or the enabled summary of a channel with an enabled
event, is set. -/
def Obligations.IrqIsTheEnabledEvents : Prop :=
  ∀ s : State, s.irq = true ↔
    (∃ i, i < 10 ∧ s.irqEvents.getLsbD i = true ∧ s.irqEnable.getLsbD i = true) ∨
    (∃ c k, s.ch[c]? = some k ∧ s.irqEnable.getLsbD (16 + c) = true ∧
      ∃ j, j < 3 ∧ k.evt.getLsbD j = true ∧ k.evtEn.getLsbD j = true)

/-- Event bits stay set until the host clears them (60 R400, 10_state.md R33, R38, R74): over every step but a hardware
reset, a set bit of IRQ_STATUS[9:0] is cleared only by a host write of 1 to it, and a set bit of a channel's DLV_EVT only
by a host write of 1 to it. -/
def Obligations.EventBitsStayUntilCleared : Prop :=
  ∀ s t : State, step s = .next t → s.nextAction ≠ some .reset →
    (∀ i, s.irqEvents.getLsbD i = true → t.irqEvents.getLsbD i = false →
      ∃ v, s.nextAction = some (.hostWrite 0x00C#12 4 v) ∧ v.getLsbD i = true) ∧
    (∀ c k k' j, s.ch[c]? = some k → t.ch[c]? = some k' → k.evt.getLsbD j = true → k'.evt.getLsbD j = false →
      ∃ a v, s.nextAction = some (.hostWrite a 4 v) ∧ a.toNat = 0x108 + 0x80 * c ∧ v.getLsbD j = true)

/-- 20_memory.md R103: a read of a reserved offset of R102 returns 0 and a write to one has no effect; neither raises an
event. -/
def Obligations.ReservedOffsetsReadZero : Prop :=
  ∀ (s : State) (a : BitVec 12) (v : Word), a.toNat % 4 = 0 →
    ((0x018 ≤ a.toNat ∧ a.toNat ≤ 0x03C) ∨ a.toNat = 0x0BC ∨ (0x0C8 ≤ a.toNat ∧ a.toNat ≤ 0x0FC) ∨
      (∃ c, c < s.nDlv ∧ 0x168 + 0x80 * c ≤ a.toNat ∧ a.toNat ≤ 0x17C + 0x80 * c) ∨
      0x100 + 0x80 * s.nDlv ≤ a.toNat) →
    (s.nextAction = some (.hostRead a 4) →
      step s = .next { s.popped with env := { s.popped.env with hostRd := s.env.hostRd ++ [0#32] } }) ∧
    (s.nextAction = some (.hostWrite a 4 v) → step s = .next s.popped)

/-- 20_memory.md R106: a read of X_LO returns bits 31:0 of X and copies bits 63:32 into SHADOW_X, a read of X_HI returns
SHADOW_X and changes nothing; a read of FLT_INFO copies POS and SIZE of FLT[FLT_SEL] into the FLT_LEN shadow, which a read
of FLT_LEN returns; every shadow is 0 at reset, and over every step but hardware reset changes only by the read of its own
X_LO, or of FLT_INFO. For the DMX registers and every channel's, each at the offsets that 10_state.md R58 to R65 and R78
to R87 give it: X_LO at the offset listed, X_HI 4 above. -/
def Obligations.SnapshotProtocol : Prop :=
  (∀ (n : Nat), ∀ e ∈ ([(0x080, .offset), (0x088, .faultOff), (0x090, .pcrBaseNs), (0x098, .pcrPrevNs),
      (0x0A0, .durationNs), (0x0A8, .lastDeltaNs), (0x0B0, .bitrateBps), (0x0C0, .pcrPrevOff)] :
      List (Nat × DmxWideReg)),
    regAt n e.1 = .dmxLo e.2 ∧ regAt n (e.1 + 4) = .dmxHi e.2) ∧
  (∀ (n c : Nat), c < n → ∀ e ∈ ([(0x18, .chunks), (0x20, .bytes), (0x28, .epochWall), (0x30, .epochStream),
      (0x38, .firstTs), (0x40, .prevTs), (0x48, .lastGoodDelta), (0x50, .curTs), (0x58, .wakeNs), (0x60, .lastDelay)] :
      List (Nat × DlvWideReg)),
    regAt n (0x100 + 0x80 * c + e.1) = .ch c (.lo e.2) ∧ regAt n (0x100 + 0x80 * c + e.1 + 4) = .ch c (.hi e.2)) ∧
  (∀ (α : Type) (w : DmxWide α),
    [.offset, .faultOff, .pcrBaseNs, .pcrPrevNs, .durationNs, .lastDeltaNs, .bitrateBps, .pcrPrevOff].map w.get =
      [w.offset, w.faultOff, w.pcrBaseNs, w.pcrPrevNs, w.durationNs, w.lastDeltaNs, w.bitrateBps, w.pcrPrevOff] ∧
    ∀ v r r', (w.set v r).get r' = if r' = r then v else w.get r') ∧
  (∀ (α : Type) (w : DlvWide α),
    [.chunks, .bytes, .epochWall, .epochStream, .firstTs, .prevTs, .lastGoodDelta, .curTs, .wakeNs, .lastDelay].map
        w.get =
      [w.chunks, w.bytes, w.epochWall, w.epochStream, w.firstTs, w.prevTs, w.lastGoodDelta, w.curTs, w.wakeNs,
        w.lastDelay] ∧
    ∀ v r r', (w.set v r).get r' = if r' = r then v else w.get r') ∧
  (∀ (n : Nat) (hw : HwParams) (env : Env),
    let z := State.resetWith n hw env
    z.dmx.shadow = .const 0#32 ∧ z.dmx.fltLenPos = 0#13 ∧ z.dmx.fltLenSize = 0#13 ∧
      ∀ k ∈ z.ch, k.shadow = .const 0#32) ∧
  (∀ s : State,
    (s.nextAction = some (.hostRead 0x07C#12 4) →
      step s = .next { s.popped with
        dmx := { s.dmx with
          fltLenPos := (s.filter s.dmx.fltSel).pos
          fltLenSize := (s.filter s.dmx.fltSel).size }
        env := { s.popped.env with hostRd := s.env.hostRd ++
          [0#25 ++ (s.filter s.dmx.fltSel).codec.code ++ 0#1 ++ boolBit (s.filter s.dmx.fltSel).active ++
            boolBit (s.filter s.dmx.fltSel).invalid ++ boolBit (s.filter s.dmx.fltSel).seen] } }) ∧
    (s.nextAction = some (.hostRead 0x0B8#12 4) →
      step s = .next { s.popped with
        env := { s.popped.env with
          hostRd := s.env.hostRd ++ [0#3 ++ s.dmx.fltLenSize ++ 0#3 ++ s.dmx.fltLenPos] } })) ∧
  (∀ (s : State) (a : BitVec 12) (r : DmxWideReg), s.nextAction = some (.hostRead a 4) → a.toNat % 4 = 0 →
    (regAt s.nDlv a.toNat = .dmxLo r →
      step s = .next { s.popped with
        dmx := { s.dmx with shadow := s.dmx.shadow.set ((s.dmx.regs.get r).extractLsb' 32 32) r }
        env := { s.popped.env with hostRd := s.env.hostRd ++ [(s.dmx.regs.get r).extractLsb' 0 32] } }) ∧
    (regAt s.nDlv a.toNat = .dmxHi r →
      step s = .next { s.popped with
        env := { s.popped.env with hostRd := s.env.hostRd ++ [s.dmx.shadow.get r] } })) ∧
  (∀ (s : State) (a : BitVec 12) (c : Nat) (k : Channel) (r : DlvWideReg), s.nextAction = some (.hostRead a 4) →
    a.toNat % 4 = 0 → s.ch[c]? = some k →
    (regAt s.nDlv a.toNat = .ch c (.lo r) →
      step s = .next { s.popped with
        ch := s.ch.set c { k with shadow := k.shadow.set ((k.regs.get r).extractLsb' 32 32) r }
        env := { s.popped.env with hostRd := s.env.hostRd ++ [(k.regs.get r).extractLsb' 0 32] } }) ∧
    (regAt s.nDlv a.toNat = .ch c (.hi r) →
      step s = .next { s.popped with
        env := { s.popped.env with hostRd := s.env.hostRd ++ [k.shadow.get r] } })) ∧
  (∀ s t : State, step s = .next t → s.nextAction ≠ some .reset →
    (∀ r, t.dmx.shadow.get r ≠ s.dmx.shadow.get r →
      ∃ a, s.nextAction = some (.hostRead a 4) ∧ regAt s.nDlv a.toNat = .dmxLo r) ∧
    (t.dmx.fltLenPos ≠ s.dmx.fltLenPos ∨ t.dmx.fltLenSize ≠ s.dmx.fltLenSize →
      s.nextAction = some (.hostRead 0x07C#12 4)) ∧
    (∀ c k k' r, s.ch[c]? = some k → t.ch[c]? = some k' → k'.shadow.get r ≠ k.shadow.get r →
      ∃ a, s.nextAction = some (.hostRead a 4) ∧ regAt s.nDlv a.toNat = .ch c (.lo r)))

/-- A read of any 32-bit register returns its fields in their places, reserved bits 0, and changes nothing: the global
registers (10_state.md R35 to R40), IRQ_STATUS with its events and its channel summaries bit by bit; DMX_CONFIG to FLT_SEL
(R41 to R55); and of every channel DLV_CONFIG to DLV_RESYNCS (R72 to R77). States, causes and reasons have the codes of R37,
R42, R73 and 60 R401. (FLT_INFO, FLT_LEN and the 64-bit registers are in the statement SnapshotProtocol.) -/
def Obligations.StatusReadsShowTheirFields : Prop :=
  ([.idle, .run, .done].map DmxPhase.code = [0#2, 1#2, 2#2] ∧
    [.idle, .fill, .tsread, .wait, .write, .done].map DlvPhase.code = [0#3, 1#3, 2#3, 3#3, 4#3, 5#3] ∧
    [.none, .endOfSource, .durationCap, .cancelled, .readFault, .trackExhausted, .syncAbort].map Term.code =
      [0#4, 1#4, 2#4, 3#4, 4#4, 5#4, 6#4] ∧
    [.none, .opcode, .reservedBits, .busy, .channel].map RejReason.code = [0#4, 1#4, 2#4, 3#4, 4#4]) ∧
  ∀ s : State,
    let returns (w : Word) : State := { s.popped with env := { s.popped.env with hostRd := s.env.hostRd ++ [w] } }
    let d := s.dmx
    (∀ e ∈ ([(0x000#12, 0x54534301#32),
        (0x004#12, 0#32),
        (0x008#12,
          0#12 ++ s.cmdStatus.rejReason.code ++ s.cmdStatus.rejOpcode ++ 0#7 ++ boolBit s.cmdStatus.rejected),
        (0x010#12, s.irqEnable),
        (0x014#12, 0#16 ++ 0x47#8 ++ 0#3 ++ BitVec.ofNat 5 s.nDlv),
        (0x040#12, 0#30 ++ d.config),
        (0x044#12,
          0#8 ++ d.truncBytes ++ 0#3 ++ boolBit d.stopReq ++ boolBit d.idxL.isSome ++ boolBit d.pcrSeen
            ++ boolBit d.pcrPidValid ++ boolBit d.pmtValid ++ d.term.code ++ 0#2 ++ d.phase.code),
        (0x048#12, 0#19 ++ d.pmtPid),
        (0x04C#12, 0#19 ++ d.pcrPid),
        (0x050#12, d.pktCount),
        (0x054#12, d.syncFaults),
        (0x058#12, d.discont),
        (0x05C#12, d.secOvf),
        (0x060#12, d.unkStype),
        (0x064#12, d.secDone),
        (0x068#12, d.secDiscard),
        (0x06C#12, d.malformed),
        (0x070#12, d.idxCount),
        (0x074#12, 0#18 ++ d.seenPids),
        (0x078#12, 0#19 ++ d.fltSel)] : List (BitVec 12 × Word)),
      s.nextAction = some (.hostRead e.1 4) → step s = .next (returns e.2)) ∧
    (s.nextAction = some (.hostRead 0x00C#12 4) → ∃ w, step s = .next (returns w) ∧
      ∀ i, i < 32 → (w.getLsbD i = true ↔
        (i < 10 ∧ s.irqEvents.getLsbD i = true) ∨
        (∃ c k, i = 16 + c ∧ s.ch[c]? = some k ∧ ∃ j, j < 3 ∧ k.evt.getLsbD j = true ∧ k.evtEn.getLsbD j = true))) ∧
    (∀ (a : BitVec 12) (c : Nat) (k : Channel), s.nextAction = some (.hostRead a 4) → s.ch[c]? = some k →
      ∀ e ∈ ([(0x00, k.config),
          (0x04,
            0#5 ++ k.residue ++ 0#6 ++ boolBit k.epochValid ++ boolBit k.stopReq ++ k.term.code ++ 0#1 ++ k.phase.code),
          (0x08, 0#29 ++ k.evt),
          (0x0C, 0#29 ++ k.evtEn),
          (0x10, k.wfaults),
          (0x14, k.resyncs)] : List (Nat × Word)),
        a.toNat = 0x100 + 0x80 * c + e.1 → step s = .next (returns e.2))

/-- 40 R206: a write to IRQ_STATUS or to a channel's DLV_EVT clears exactly the event bits written 1 and changes nothing
else. -/
def Obligations.WriteOneClears : Prop :=
  ∀ (s : State) (v : Word),
    (s.nextAction = some (.hostWrite 0x00C#12 4 v) →
      ∃ e : BitVec 10, step s = .next { s.popped with irqEvents := e } ∧
        ∀ i, i < 10 → e.getLsbD i = (s.irqEvents.getLsbD i && !v.getLsbD i)) ∧
    (∀ (a : BitVec 12) (c : Nat) (k : Channel), s.nextAction = some (.hostWrite a 4 v) →
      a.toNat = 0x108 + 0x80 * c → s.ch[c]? = some k →
      ∃ e : BitVec 3, step s = .next { s.popped with ch := s.ch.set c { k with evt := e } } ∧
        ∀ j, j < 3 → e.getLsbD j = (k.evt.getLsbD j && !v.getLsbD j))

/-- A write to a read-write register stores its writable bits and changes nothing else (40 R207, 10_state.md R39, R41, R55,
R72, R75): IRQ_ENABLE its bits 9:0 and 16 + c for c below N_DLV, DMX_CONFIG bits 1:0, FLT_SEL bits 12:0, DLV_CONFIG all
bits, DLV_EVT_EN bits 2:0; N_DLV at most 16. -/
def Obligations.ReadWriteRegistersStore : Prop :=
  ∀ (s : State) (v : Word), s.nDlv ≤ 16 →
    (s.nextAction = some (.hostWrite 0x010#12 4 v) →
      ∃ e : Word, step s = .next { s.popped with irqEnable := e } ∧
        ∀ i, i < 32 → e.getLsbD i = (v.getLsbD i && (decide (i < 10) || decide (16 ≤ i ∧ i < 16 + s.nDlv)))) ∧
    (s.nextAction = some (.hostWrite 0x040#12 4 v) →
      step s = .next { s.popped with dmx := { s.dmx with config := v.extractLsb' 0 2 } }) ∧
    (s.nextAction = some (.hostWrite 0x078#12 4 v) →
      step s = .next { s.popped with dmx := { s.dmx with fltSel := v.extractLsb' 0 13 } }) ∧
    (∀ (a : BitVec 12) (c : Nat) (k : Channel), s.nextAction = some (.hostWrite a 4 v) → s.ch[c]? = some k →
      (a.toNat = 0x100 + 0x80 * c →
        step s = .next { s.popped with ch := s.ch.set c { k with config := v } }) ∧
      (a.toNat = 0x10C + 0x80 * c →
        step s = .next { s.popped with ch := s.ch.set c { k with evtEn := v.extractLsb' 0 3 } }))

/-- 40 R208: a write to any aligned offset but CMD, the read-write registers and the event registers, so to every
read-only register and 64-bit half, has no effect. -/
def Obligations.OtherWritesHaveNoEffect : Prop :=
  ∀ (s : State) (a : BitVec 12) (v : Word), s.nextAction = some (.hostWrite a 4 v) → a.toNat % 4 = 0 →
    a.toNat ∉ [0x004, 0x00C, 0x010, 0x040, 0x078] →
    (∀ c, c < s.nDlv → a.toNat ∉ [0x100 + 0x80 * c, 0x108 + 0x80 * c, 0x10C + 0x80 * c]) →
    step s = .next s.popped

/-- 20_memory.md R101: a host access of a width other than 4, or at an offset that is no multiple of 4, is refused; every
other access completes. -/
def Obligations.OnlyAlignedWordsAreAdmitted : Prop :=
  ∀ (s : State) (a : BitVec 12) (width : Nat) (v : Word),
    s.nextAction = some (.hostRead a width) ∨ s.nextAction = some (.hostWrite a width v) →
    (width = 4 ∧ a.toNat % 4 = 0 → Completes (step s)) ∧
    (¬ (width = 4 ∧ a.toNat % 4 = 0) → step s = .refused .hostAccess)

/-- Over every step the wall clock never decreases (60 R430), the hardware parameters and the number of channels stay as
they are (00_scope.md R12), and the reserved bits of IRQ_ENABLE stay 0 (10_state.md R39). -/
def Obligations.StepKeepsHardwareAndClock : Prop :=
  ∀ s t : State, step s = .next t →
    s.env.wallNs.toNat ≤ t.env.wallNs.toNat ∧ t.hw = s.hw ∧ t.nDlv = s.nDlv ∧ (s.EnableOk → t.EnableOk)

/-! ## Reset -/

/-- 70 R451: after reset, with N_DLV channels (1 to 16), every aligned offset reads 0 but BLK_ID and HW_CFG. -/
def Obligations.RegistersReadTheirResetValues : Prop :=
  ∀ (n : Nat) (hw : HwParams) (env : Env) (a : Nat), 1 ≤ n → n ≤ 16 → a < 0x1000 → a % 4 = 0 →
    (State.resetWith n hw env).readWord (regAt n a) =
      if a = 0x000 then 0x54534301#32 else if a = 0x014 then BitVec.ofNat 32 n ||| 0x4700#32 else 0#32

/-- Hardware reset in any state gives the reset state of the same hardware, with IRQ down, the ports and the wall clock
untouched; and from a reset state no DMX, channel or take step changes anything (70 R450 and R452). That reset is one step of
the schedule is the model's reading (log entry 17); that it empties the filter buffers, which R450 leaves unspecified, is
the model's choice (log entry 8). -/
def Obligations.ResetStopsEverySession : Prop :=
  (∀ s : State, s.nextAction = some .reset →
    step s = .next (State.resetWith s.nDlv s.hw s.popped.env) ∧ (State.resetWith s.nDlv s.hw s.popped.env).irq = false) ∧
  (∀ (n : Nat) (hw : HwParams) (env : Env) (ans : PortAns) (c : Nat),
    (State.resetWith n hw env).dmxStep ans = .next (State.resetWith n hw env) ∧
    (State.resetWith n hw env).dlvStep c ans = .next (State.resetWith n hw env) ∧
    (State.resetWith n hw env).takeRecord = State.resetWith n hw env)

/-- Every invariant stated above holds of the reset state, whatever the number of channels (1 to 16), the parameters and
the environment: 42 R272, the canonical tables, DMX_SEEN_PIDS, the DMX and channel invariants, the byte count, and the
reserved bits of IRQ_ENABLE (70 R450). -/
def Obligations.InvariantsHoldAtReset : Prop :=
  ∀ (n : Nat) (hw : HwParams) (env : Env),
    (State.resetWith n hw env).FiltersOk ∧ (State.resetWith n hw env).TablesWf ∧
    (State.resetWith n hw env).SeenCounted ∧ (State.resetWith n hw env).dmx.ok ∧
    (State.resetWith n hw env).ChannelsOk ∧ (∀ k ∈ (State.resetWith n hw env).ch, k.BytesCounted) ∧
    (State.resetWith n hw env).EnableOk
end

