-- ==== Sys2Proof/Laws/Sparse.lean ====
section
/-! SUPPORT. The laws of the sparse tables: a read after a write to the same key gives the value, a write leaves every other
key alone, and every operation keeps the canonical form (20_memory.md R100, 10_state.md R68). -/

namespace Sys2Proof.Machine

variable {α : Type}

theorem sparseGet_nil (d : α) (a : Nat) : sparseGet d [] a = d := rfl

theorem sparseGet_cons_lt (d v : α) (m : List (Nat × α)) {k a : Nat} (h : a < k) :
    sparseGet d ((k, v) :: m) a = d := by simp [sparseGet, h]

theorem sparseGet_cons_eq (d v : α) (m : List (Nat × α)) (k : Nat) :
    sparseGet d ((k, v) :: m) k = v := by simp [sparseGet]

theorem sparseGet_cons_gt (d v : α) (m : List (Nat × α)) {k a : Nat} (h : k < a) :
    sparseGet d ((k, v) :: m) a = sparseGet d m a := by
  simp [sparseGet, Nat.not_lt.mpr h.le, h.ne']

theorem sparseGet_dropWhile_self (d : α) (m : List (Nat × α)) (k : Nat) :
    sparseGet d (m.dropWhile (fun e => decide (e.1 ≤ k))) k = d := by
  induction m with
  | nil => rfl
  | cons e m ih =>
    obtain ⟨j, w⟩ := e
    by_cases h : j ≤ k
    · simpa [List.dropWhile, h] using ih
    · have hk : k < j := Nat.lt_of_not_le h
      simpa [List.dropWhile, h] using sparseGet_cons_lt d w m hk

theorem sparseGet_dropWhile_lt (d : α) (m : List (Nat × α)) {k a : Nat} (h : a < k) :
    sparseGet d (m.dropWhile (fun e => decide (e.1 ≤ k))) a = d := by
  induction m with
  | nil => rfl
  | cons e m ih =>
    obtain ⟨j, w⟩ := e
    by_cases hj : j ≤ k
    · simpa [List.dropWhile, hj] using ih
    · have : a < j := by omega
      simpa [List.dropWhile, hj] using sparseGet_cons_lt d w m this

theorem sparseGet_dropWhile_gt (d : α) (m : List (Nat × α)) {k a : Nat} (h : k < a) :
    sparseGet d (m.dropWhile (fun e => decide (e.1 ≤ k))) a = sparseGet d m a := by
  induction m with
  | nil => rfl
  | cons e m ih =>
    obtain ⟨j, w⟩ := e
    by_cases hj : j ≤ k
    · have : j < a := by omega
      rw [sparseGet_cons_gt d w m this]
      simpa [List.dropWhile, hj] using ih
    · simp [List.dropWhile, hj]

variable [DecidableEq α]

/-- A read after a write to the same key gives the value written, in every list. -/
@[simp] theorem sparseGet_sparsePut_self (d v : α) (a : Nat) (m : List (Nat × α)) :
    sparseGet d (sparsePut d a v m) a = v := by
  induction m with
  | nil => by_cases h : v = d <;> simp [sparsePut, sparseGet, h]
  | cons e m ih =>
    obtain ⟨k, w⟩ := e
    rcases Nat.lt_trichotomy a k with h | h | h
    · by_cases hv : v = d <;> simp [sparsePut, sparseGet, h, hv]
    · subst h
      by_cases hv : v = d
      · simpa [sparsePut, hv] using sparseGet_dropWhile_self d m a
      · simp [sparsePut, sparseGet, hv]
    · simpa [sparsePut, Nat.not_lt.mpr h.le, h.ne', sparseGet_cons_gt d w _ h] using ih

/-- A write leaves every other key alone, in every list. -/
theorem sparseGet_sparsePut_ne (d v : α) {a b : Nat} (hab : b ≠ a) (m : List (Nat × α)) :
    sparseGet d (sparsePut d a v m) b = sparseGet d m b := by
  induction m with
  | nil =>
    by_cases h : v = d
    · simp [sparsePut, h]
    · rcases Nat.lt_or_gt_of_ne hab with hb | hb
      · simp [sparsePut, h, sparseGet, hb]
      · simp [sparsePut, h, sparseGet, hab]
  | cons e m ih =>
    obtain ⟨k, w⟩ := e
    rcases Nat.lt_trichotomy a k with h | h | h
    · by_cases hv : v = d
      · simp [sparsePut, h, hv]
      · rcases Nat.lt_or_gt_of_ne hab with hb | hb
        · simp [sparsePut, h, hv, sparseGet, hb, hb.trans h]
        · rw [show sparsePut d a v ((k, w) :: m) = (a, v) :: (k, w) :: m by simp [sparsePut, h, hv],
            sparseGet_cons_gt d v _ hb]
    · subst h
      by_cases hv : v = d
      · rw [show sparsePut d a v ((a, w) :: m) = m.dropWhile (fun e => decide (e.1 ≤ a)) by simp [sparsePut, hv]]
        rcases Nat.lt_or_gt_of_ne hab with hb | hb
        · rw [sparseGet_dropWhile_lt d m hb, sparseGet_cons_lt d w m hb]
        · rw [sparseGet_dropWhile_gt d m hb, sparseGet_cons_gt d w m hb]
      · rw [show sparsePut d a v ((a, w) :: m) = (a, v) :: m by simp [sparsePut, hv]]
        rcases Nat.lt_or_gt_of_ne hab with hb | hb
        · rw [sparseGet_cons_lt d v m hb, sparseGet_cons_lt d w m hb]
        · rw [sparseGet_cons_gt d v m hb, sparseGet_cons_gt d w m hb]
    · rw [show sparsePut d a v ((k, w) :: m) = (k, w) :: sparsePut d a v m by
        simp [sparsePut, Nat.not_lt.mpr h.le, h.ne']]
      rcases Nat.lt_trichotomy b k with hb | hb | hb
      · rw [sparseGet_cons_lt d w _ hb, sparseGet_cons_lt d w _ hb]
      · subst hb; rw [sparseGet_cons_eq, sparseGet_cons_eq]
      · rw [sparseGet_cons_gt d w _ hb, sparseGet_cons_gt d w _ hb, ih]

/-- Both read laws at once. -/
theorem sparseGet_sparsePut (d v : α) (a b : Nat) (m : List (Nat × α)) :
    sparseGet d (sparsePut d a v m) b = if b = a then v else sparseGet d m b := by
  split
  · subst_vars; exact sparseGet_sparsePut_self d v _ m
  · exact sparseGet_sparsePut_ne d v ‹_› m

theorem sparseWf_mono (d : α) {lo lo' hi : Nat} (h : lo' ≤ lo) (m : List (Nat × α))
    (hm : sparseWf d lo hi m = true) : sparseWf d lo' hi m = true := by
  cases m with
  | nil => rfl
  | cons e m =>
    obtain ⟨k, v⟩ := e
    simp only [sparseWf, Bool.and_eq_true, decide_eq_true_eq] at hm ⊢
    exact ⟨⟨⟨h.trans hm.1.1.1, hm.1.1.2⟩, hm.1.2⟩, hm.2⟩

theorem dropWhile_le_of_sparseWf (d : α) {k hi : Nat} (m : List (Nat × α)) (hm : sparseWf d (k + 1) hi m = true) :
    m.dropWhile (fun e => decide (e.1 ≤ k)) = m := by
  cases m with
  | nil => rfl
  | cons e m =>
    obtain ⟨j, v⟩ := e
    simp only [sparseWf, Bool.and_eq_true, decide_eq_true_eq] at hm
    have : ¬ j ≤ k := by omega
    simp [List.dropWhile, this]

/-- A write at a key inside the bounds keeps the canonical form. -/
theorem sparsePut_wf (d v : α) {a lo hi : Nat} (hlo : lo ≤ a) (hhi : a < hi) (m : List (Nat × α))
    (hm : sparseWf d lo hi m = true) : sparseWf d lo hi (sparsePut d a v m) = true := by
  induction m generalizing lo with
  | nil => by_cases h : v = d <;> simp [sparsePut, sparseWf, h, hlo, hhi]
  | cons e m ih =>
    obtain ⟨k, w⟩ := e
    have hm' := hm
    simp only [sparseWf, Bool.and_eq_true, decide_eq_true_eq] at hm'
    obtain ⟨⟨⟨h1, h2⟩, h3⟩, h4⟩ := hm'
    rcases Nat.lt_trichotomy a k with h | h | h
    · by_cases hv : v = d
      · simpa [sparsePut, h, hv] using hm
      · simp [sparsePut, h, hv, sparseWf, hlo, hhi, h2, h3, h4, Nat.succ_le_of_lt h]
    · subst h
      by_cases hv : v = d
      · rw [show sparsePut d a v ((a, w) :: m) = m.dropWhile (fun e => decide (e.1 ≤ a)) by simp [sparsePut, hv],
          dropWhile_le_of_sparseWf d m h4]
        exact sparseWf_mono d (by omega) m h4
      · simp [sparsePut, hv, sparseWf, hlo, hhi, h4]
    · have := ih (Nat.succ_le_of_lt h) h4
      simp [sparsePut, Nat.not_lt.mpr h.le, h.ne', sparseWf, h1, h2, h3, this]

/-! ## The filter buffers -/

@[simp] theorem Memory.read_write_self (m : Memory) (a : Nat) (v : Byte) : (Memory.write m a v).read a = v :=
  sparseGet_sparsePut_self _ _ _ _

theorem Memory.read_write_ne (m : Memory) {a b : Nat} (h : b ≠ a) (v : Byte) :
    (Memory.write m a v).read b = m.read b :=
  sparseGet_sparsePut_ne _ _ h _

/-- A write inside the address space keeps the canonical form of the buffers. -/
theorem Memory.write_wf (m : Memory) {a : Nat} (ha : a < memorySize) (v : Byte) (hm : m.wf = true) :
    (Memory.write m a v).wf = true :=
  sparsePut_wf _ _ (Nat.zero_le _) ha m hm

theorem reset_mem_wf : Memory.wf State.reset.mem = true := rfl

theorem dataAddr_lt (p : Pid) {i : Nat} (h : i < 4096) : dataAddr p i < memorySize := by
  have hp : p.toNat < 8192 := p.isLt
  simp only [dataAddr, memorySize, Config.maxSection]
  omega

theorem dataAddr_inj {p q : Pid} {i j : Nat} (hi : i < 4096) (hj : j < 4096) (h : dataAddr p i = dataAddr q j) :
    p = q ∧ i = j := by
  simp only [dataAddr, Config.maxSection] at h
  exact ⟨BitVec.eq_of_toNat_eq (by omega), by omega⟩

end Sys2Proof.Machine
end

