-- ==== Sys2Proof/Laws/State.lean ====
section
/-! SUPPORT. One lemma per field per update of State, each true by rfl, and the reads of the filter table and its buffers
after each update. -/

namespace Sys2Proof.Machine

variable (s : State)

/-! ## raise -/

@[simp] theorem State.raise_hw (e : IrqEvent) : (s.raise e).hw = s.hw := rfl
@[simp] theorem State.raise_cmdStatus (e : IrqEvent) : (s.raise e).cmdStatus = s.cmdStatus := rfl
@[simp] theorem State.raise_irqEvents (e : IrqEvent) : (s.raise e).irqEvents = s.irqEvents ||| 1#10 <<< e.bit := rfl
@[simp] theorem State.raise_irqEnable (e : IrqEvent) : (s.raise e).irqEnable = s.irqEnable := rfl
@[simp] theorem State.raise_dmx (e : IrqEvent) : (s.raise e).dmx = s.dmx := rfl
@[simp] theorem State.raise_flt (e : IrqEvent) : (s.raise e).flt = s.flt := rfl
@[simp] theorem State.raise_mem (e : IrqEvent) : (s.raise e).mem = s.mem := rfl
@[simp] theorem State.raise_ch (e : IrqEvent) : (s.raise e).ch = s.ch := rfl
@[simp] theorem State.raise_env (e : IrqEvent) : (s.raise e).env = s.env := rfl
@[simp] theorem State.raise_filter (e : IrqEvent) (q : Pid) : (s.raise e).filter q = s.filter q := rfl
@[simp] theorem State.raise_data (e : IrqEvent) (q : Pid) (i : Nat) : (s.raise e).data q i = s.data q i := rfl
@[simp] theorem State.raise_nDlv (e : IrqEvent) : (s.raise e).nDlv = s.nDlv := rfl

/-! ## setDmx -/

@[simp] theorem State.setDmx_hw (d : Dmx) : (s.setDmx d).hw = s.hw := rfl
@[simp] theorem State.setDmx_cmdStatus (d : Dmx) : (s.setDmx d).cmdStatus = s.cmdStatus := rfl
@[simp] theorem State.setDmx_irqEvents (d : Dmx) : (s.setDmx d).irqEvents = s.irqEvents := rfl
@[simp] theorem State.setDmx_irqEnable (d : Dmx) : (s.setDmx d).irqEnable = s.irqEnable := rfl
@[simp] theorem State.setDmx_dmx (d : Dmx) : (s.setDmx d).dmx = d := rfl
@[simp] theorem State.setDmx_flt (d : Dmx) : (s.setDmx d).flt = s.flt := rfl
@[simp] theorem State.setDmx_mem (d : Dmx) : (s.setDmx d).mem = s.mem := rfl
@[simp] theorem State.setDmx_ch (d : Dmx) : (s.setDmx d).ch = s.ch := rfl
@[simp] theorem State.setDmx_env (d : Dmx) : (s.setDmx d).env = s.env := rfl
@[simp] theorem State.setDmx_filter (d : Dmx) (q : Pid) : (s.setDmx d).filter q = s.filter q := rfl
@[simp] theorem State.setDmx_data (d : Dmx) (q : Pid) (i : Nat) : (s.setDmx d).data q i = s.data q i := rfl
@[simp] theorem State.setDmx_nDlv (d : Dmx) : (s.setDmx d).nDlv = s.nDlv := rfl

/-! ## setFilter -/

@[simp] theorem State.setFilter_hw (p : Pid) (f : Filter) : (s.setFilter p f).hw = s.hw := rfl
@[simp] theorem State.setFilter_cmdStatus (p : Pid) (f : Filter) : (s.setFilter p f).cmdStatus = s.cmdStatus := rfl
@[simp] theorem State.setFilter_irqEvents (p : Pid) (f : Filter) : (s.setFilter p f).irqEvents = s.irqEvents := rfl
@[simp] theorem State.setFilter_irqEnable (p : Pid) (f : Filter) : (s.setFilter p f).irqEnable = s.irqEnable := rfl
@[simp] theorem State.setFilter_dmx (p : Pid) (f : Filter) : (s.setFilter p f).dmx = s.dmx := rfl
@[simp] theorem State.setFilter_flt (p : Pid) (f : Filter) : (s.setFilter p f).flt = sparsePut Filter.reset p.toNat f s.flt := rfl
@[simp] theorem State.setFilter_mem (p : Pid) (f : Filter) : (s.setFilter p f).mem = s.mem := rfl
@[simp] theorem State.setFilter_ch (p : Pid) (f : Filter) : (s.setFilter p f).ch = s.ch := rfl
@[simp] theorem State.setFilter_env (p : Pid) (f : Filter) : (s.setFilter p f).env = s.env := rfl
@[simp] theorem State.setFilter_data (p : Pid) (f : Filter) (q : Pid) (i : Nat) : (s.setFilter p f).data q i = s.data q i := rfl
@[simp] theorem State.setFilter_nDlv (p : Pid) (f : Filter) : (s.setFilter p f).nDlv = s.nDlv := rfl

/-! ## setCh -/

@[simp] theorem State.setCh_hw (c : Nat) (k : Channel) : (s.setCh c k).hw = s.hw := rfl
@[simp] theorem State.setCh_cmdStatus (c : Nat) (k : Channel) : (s.setCh c k).cmdStatus = s.cmdStatus := rfl
@[simp] theorem State.setCh_irqEvents (c : Nat) (k : Channel) : (s.setCh c k).irqEvents = s.irqEvents := rfl
@[simp] theorem State.setCh_irqEnable (c : Nat) (k : Channel) : (s.setCh c k).irqEnable = s.irqEnable := rfl
@[simp] theorem State.setCh_dmx (c : Nat) (k : Channel) : (s.setCh c k).dmx = s.dmx := rfl
@[simp] theorem State.setCh_flt (c : Nat) (k : Channel) : (s.setCh c k).flt = s.flt := rfl
@[simp] theorem State.setCh_mem (c : Nat) (k : Channel) : (s.setCh c k).mem = s.mem := rfl
@[simp] theorem State.setCh_ch (c : Nat) (k : Channel) : (s.setCh c k).ch = s.ch.set c k := rfl
@[simp] theorem State.setCh_env (c : Nat) (k : Channel) : (s.setCh c k).env = s.env := rfl
@[simp] theorem State.setCh_filter (c : Nat) (k : Channel) (q : Pid) : (s.setCh c k).filter q = s.filter q := rfl
@[simp] theorem State.setCh_data (c : Nat) (k : Channel) (q : Pid) (i : Nat) : (s.setCh c k).data q i = s.data q i := rfl
@[simp] theorem State.setCh_nDlv (c : Nat) (k : Channel) : (s.setCh c k).nDlv = s.nDlv := by
  simp [State.nDlv]

/-! ## setEnv -/

@[simp] theorem State.setEnv_hw (e : Env) : (s.setEnv e).hw = s.hw := rfl
@[simp] theorem State.setEnv_cmdStatus (e : Env) : (s.setEnv e).cmdStatus = s.cmdStatus := rfl
@[simp] theorem State.setEnv_irqEvents (e : Env) : (s.setEnv e).irqEvents = s.irqEvents := rfl
@[simp] theorem State.setEnv_irqEnable (e : Env) : (s.setEnv e).irqEnable = s.irqEnable := rfl
@[simp] theorem State.setEnv_dmx (e : Env) : (s.setEnv e).dmx = s.dmx := rfl
@[simp] theorem State.setEnv_flt (e : Env) : (s.setEnv e).flt = s.flt := rfl
@[simp] theorem State.setEnv_mem (e : Env) : (s.setEnv e).mem = s.mem := rfl
@[simp] theorem State.setEnv_ch (e : Env) : (s.setEnv e).ch = s.ch := rfl
@[simp] theorem State.setEnv_env (e : Env) : (s.setEnv e).env = e := rfl
@[simp] theorem State.setEnv_filter (e : Env) (q : Pid) : (s.setEnv e).filter q = s.filter q := rfl
@[simp] theorem State.setEnv_data (e : Env) (q : Pid) (i : Nat) : (s.setEnv e).data q i = s.data q i := rfl
@[simp] theorem State.setEnv_nDlv (e : Env) : (s.setEnv e).nDlv = s.nDlv := rfl

/-! ## setSched -/

@[simp] theorem State.setSched_hw (l : List Action) : (s.setSched l).hw = s.hw := rfl
@[simp] theorem State.setSched_cmdStatus (l : List Action) : (s.setSched l).cmdStatus = s.cmdStatus := rfl
@[simp] theorem State.setSched_irqEvents (l : List Action) : (s.setSched l).irqEvents = s.irqEvents := rfl
@[simp] theorem State.setSched_irqEnable (l : List Action) : (s.setSched l).irqEnable = s.irqEnable := rfl
@[simp] theorem State.setSched_dmx (l : List Action) : (s.setSched l).dmx = s.dmx := rfl
@[simp] theorem State.setSched_flt (l : List Action) : (s.setSched l).flt = s.flt := rfl
@[simp] theorem State.setSched_mem (l : List Action) : (s.setSched l).mem = s.mem := rfl
@[simp] theorem State.setSched_ch (l : List Action) : (s.setSched l).ch = s.ch := rfl
@[simp] theorem State.setSched_env (l : List Action) : (s.setSched l).env = { s.env with sched := l } := rfl
@[simp] theorem State.setSched_filter (l : List Action) (q : Pid) : (s.setSched l).filter q = s.filter q := rfl
@[simp] theorem State.setSched_data (l : List Action) (q : Pid) (i : Nat) : (s.setSched l).data q i = s.data q i := rfl
@[simp] theorem State.setSched_nDlv (l : List Action) : (s.setSched l).nDlv = s.nDlv := rfl

/-! ## reject -/

@[simp] theorem State.reject_hw (o : Byte) (r : RejReason) : (s.reject o r).hw = s.hw := rfl
@[simp] theorem State.reject_cmdStatus (o : Byte) (r : RejReason) : (s.reject o r).cmdStatus = { rejected := true, rejOpcode := o, rejReason := r } := rfl
@[simp] theorem State.reject_irqEvents (o : Byte) (r : RejReason) : (s.reject o r).irqEvents = s.irqEvents ||| 1#10 <<< IrqEvent.cmdErr.bit := rfl
@[simp] theorem State.reject_irqEnable (o : Byte) (r : RejReason) : (s.reject o r).irqEnable = s.irqEnable := rfl
@[simp] theorem State.reject_dmx (o : Byte) (r : RejReason) : (s.reject o r).dmx = s.dmx := rfl
@[simp] theorem State.reject_flt (o : Byte) (r : RejReason) : (s.reject o r).flt = s.flt := rfl
@[simp] theorem State.reject_mem (o : Byte) (r : RejReason) : (s.reject o r).mem = s.mem := rfl
@[simp] theorem State.reject_ch (o : Byte) (r : RejReason) : (s.reject o r).ch = s.ch := rfl
@[simp] theorem State.reject_env (o : Byte) (r : RejReason) : (s.reject o r).env = s.env := rfl
@[simp] theorem State.reject_filter (o : Byte) (r : RejReason) (q : Pid) : (s.reject o r).filter q = s.filter q := rfl
@[simp] theorem State.reject_data (o : Byte) (r : RejReason) (q : Pid) (i : Nat) : (s.reject o r).data q i = s.data q i := rfl
@[simp] theorem State.reject_nDlv (o : Byte) (r : RejReason) : (s.reject o r).nDlv = s.nDlv := rfl

/-! ## accept -/

@[simp] theorem State.accept_hw : (s.accept).hw = s.hw := rfl
@[simp] theorem State.accept_cmdStatus : (s.accept).cmdStatus = { s.cmdStatus with rejected := false } := rfl
@[simp] theorem State.accept_irqEvents : (s.accept).irqEvents = s.irqEvents := rfl
@[simp] theorem State.accept_irqEnable : (s.accept).irqEnable = s.irqEnable := rfl
@[simp] theorem State.accept_dmx : (s.accept).dmx = s.dmx := rfl
@[simp] theorem State.accept_flt : (s.accept).flt = s.flt := rfl
@[simp] theorem State.accept_mem : (s.accept).mem = s.mem := rfl
@[simp] theorem State.accept_ch : (s.accept).ch = s.ch := rfl
@[simp] theorem State.accept_env : (s.accept).env = s.env := rfl
@[simp] theorem State.accept_filter (q : Pid) : (s.accept).filter q = s.filter q := rfl
@[simp] theorem State.accept_data (q : Pid) (i : Nat) : (s.accept).data q i = s.data q i := rfl
@[simp] theorem State.accept_nDlv : (s.accept).nDlv = s.nDlv := rfl

/-! ## terminateDmx -/

@[simp] theorem State.terminateDmx_hw (t : Term) : (s.terminateDmx t).hw = s.hw := rfl
@[simp] theorem State.terminateDmx_cmdStatus (t : Term) : (s.terminateDmx t).cmdStatus = s.cmdStatus := rfl
@[simp] theorem State.terminateDmx_irqEvents (t : Term) : (s.terminateDmx t).irqEvents = s.irqEvents ||| 1#10 <<< IrqEvent.dmxDone.bit := rfl
@[simp] theorem State.terminateDmx_irqEnable (t : Term) : (s.terminateDmx t).irqEnable = s.irqEnable := rfl
@[simp] theorem State.terminateDmx_dmx (t : Term) : (s.terminateDmx t).dmx = { s.dmx with phase := .done, term := t, stopReq := false } := rfl
@[simp] theorem State.terminateDmx_flt (t : Term) : (s.terminateDmx t).flt = s.flt := rfl
@[simp] theorem State.terminateDmx_mem (t : Term) : (s.terminateDmx t).mem = s.mem := rfl
@[simp] theorem State.terminateDmx_ch (t : Term) : (s.terminateDmx t).ch = s.ch := rfl
@[simp] theorem State.terminateDmx_env (t : Term) : (s.terminateDmx t).env = s.env := rfl
@[simp] theorem State.terminateDmx_filter (t : Term) (q : Pid) : (s.terminateDmx t).filter q = s.filter q := rfl
@[simp] theorem State.terminateDmx_data (t : Term) (q : Pid) (i : Nat) : (s.terminateDmx t).data q i = s.data q i := rfl
@[simp] theorem State.terminateDmx_nDlv (t : Term) : (s.terminateDmx t).nDlv = s.nDlv := rfl

/-! ## noteMalformed -/

@[simp] theorem State.noteMalformed_hw : (s.noteMalformed).hw = s.hw := rfl
@[simp] theorem State.noteMalformed_cmdStatus : (s.noteMalformed).cmdStatus = s.cmdStatus := rfl
@[simp] theorem State.noteMalformed_irqEvents : (s.noteMalformed).irqEvents = s.irqEvents ||| 1#10 <<< IrqEvent.malformed.bit := rfl
@[simp] theorem State.noteMalformed_irqEnable : (s.noteMalformed).irqEnable = s.irqEnable := rfl
@[simp] theorem State.noteMalformed_dmx : (s.noteMalformed).dmx = { s.dmx with malformed := s.dmx.malformed + 1#32 } := rfl
@[simp] theorem State.noteMalformed_flt : (s.noteMalformed).flt = s.flt := rfl
@[simp] theorem State.noteMalformed_mem : (s.noteMalformed).mem = s.mem := rfl
@[simp] theorem State.noteMalformed_ch : (s.noteMalformed).ch = s.ch := rfl
@[simp] theorem State.noteMalformed_env : (s.noteMalformed).env = s.env := rfl
@[simp] theorem State.noteMalformed_filter (q : Pid) : (s.noteMalformed).filter q = s.filter q := rfl
@[simp] theorem State.noteMalformed_data (q : Pid) (i : Nat) : (s.noteMalformed).data q i = s.data q i := rfl
@[simp] theorem State.noteMalformed_nDlv : (s.noteMalformed).nDlv = s.nDlv := rfl

/-! ## noteSecDiscard -/

@[simp] theorem State.noteSecDiscard_hw : (s.noteSecDiscard).hw = s.hw := rfl
@[simp] theorem State.noteSecDiscard_cmdStatus : (s.noteSecDiscard).cmdStatus = s.cmdStatus := rfl
@[simp] theorem State.noteSecDiscard_irqEvents : (s.noteSecDiscard).irqEvents = s.irqEvents ||| 1#10 <<< IrqEvent.secDiscard.bit := rfl
@[simp] theorem State.noteSecDiscard_irqEnable : (s.noteSecDiscard).irqEnable = s.irqEnable := rfl
@[simp] theorem State.noteSecDiscard_dmx : (s.noteSecDiscard).dmx = { s.dmx with secDiscard := s.dmx.secDiscard + 1#32 } := rfl
@[simp] theorem State.noteSecDiscard_flt : (s.noteSecDiscard).flt = s.flt := rfl
@[simp] theorem State.noteSecDiscard_mem : (s.noteSecDiscard).mem = s.mem := rfl
@[simp] theorem State.noteSecDiscard_ch : (s.noteSecDiscard).ch = s.ch := rfl
@[simp] theorem State.noteSecDiscard_env : (s.noteSecDiscard).env = s.env := rfl
@[simp] theorem State.noteSecDiscard_filter (q : Pid) : (s.noteSecDiscard).filter q = s.filter q := rfl
@[simp] theorem State.noteSecDiscard_data (q : Pid) (i : Nat) : (s.noteSecDiscard).data q i = s.data q i := rfl
@[simp] theorem State.noteSecDiscard_nDlv : (s.noteSecDiscard).nDlv = s.nDlv := rfl

/-! ## noteSecOvf -/

@[simp] theorem State.noteSecOvf_hw : (s.noteSecOvf).hw = s.hw := rfl
@[simp] theorem State.noteSecOvf_cmdStatus : (s.noteSecOvf).cmdStatus = s.cmdStatus := rfl
@[simp] theorem State.noteSecOvf_irqEvents : (s.noteSecOvf).irqEvents = s.irqEvents ||| 1#10 <<< IrqEvent.secOvf.bit := rfl
@[simp] theorem State.noteSecOvf_irqEnable : (s.noteSecOvf).irqEnable = s.irqEnable := rfl
@[simp] theorem State.noteSecOvf_dmx : (s.noteSecOvf).dmx = { s.dmx with secOvf := s.dmx.secOvf + 1#32 } := rfl
@[simp] theorem State.noteSecOvf_flt : (s.noteSecOvf).flt = s.flt := rfl
@[simp] theorem State.noteSecOvf_mem : (s.noteSecOvf).mem = s.mem := rfl
@[simp] theorem State.noteSecOvf_ch : (s.noteSecOvf).ch = s.ch := rfl
@[simp] theorem State.noteSecOvf_env : (s.noteSecOvf).env = s.env := rfl
@[simp] theorem State.noteSecOvf_filter (q : Pid) : (s.noteSecOvf).filter q = s.filter q := rfl
@[simp] theorem State.noteSecOvf_data (q : Pid) (i : Nat) : (s.noteSecOvf).data q i = s.data q i := rfl
@[simp] theorem State.noteSecOvf_nDlv : (s.noteSecOvf).nDlv = s.nDlv := rfl

/-! ## noteUnkStype -/

@[simp] theorem State.noteUnkStype_hw : (s.noteUnkStype).hw = s.hw := rfl
@[simp] theorem State.noteUnkStype_cmdStatus : (s.noteUnkStype).cmdStatus = s.cmdStatus := rfl
@[simp] theorem State.noteUnkStype_irqEvents : (s.noteUnkStype).irqEvents = s.irqEvents ||| 1#10 <<< IrqEvent.unkStype.bit := rfl
@[simp] theorem State.noteUnkStype_irqEnable : (s.noteUnkStype).irqEnable = s.irqEnable := rfl
@[simp] theorem State.noteUnkStype_dmx : (s.noteUnkStype).dmx = { s.dmx with unkStype := s.dmx.unkStype + 1#32 } := rfl
@[simp] theorem State.noteUnkStype_flt : (s.noteUnkStype).flt = s.flt := rfl
@[simp] theorem State.noteUnkStype_mem : (s.noteUnkStype).mem = s.mem := rfl
@[simp] theorem State.noteUnkStype_ch : (s.noteUnkStype).ch = s.ch := rfl
@[simp] theorem State.noteUnkStype_env : (s.noteUnkStype).env = s.env := rfl
@[simp] theorem State.noteUnkStype_filter (q : Pid) : (s.noteUnkStype).filter q = s.filter q := rfl
@[simp] theorem State.noteUnkStype_data (q : Pid) (i : Nat) : (s.noteUnkStype).data q i = s.data q i := rfl
@[simp] theorem State.noteUnkStype_nDlv : (s.noteUnkStype).nDlv = s.nDlv := rfl

/-! ## noteTable -/

@[simp] theorem State.noteTable_hw : (s.noteTable).hw = s.hw := rfl
@[simp] theorem State.noteTable_cmdStatus : (s.noteTable).cmdStatus = s.cmdStatus := rfl
@[simp] theorem State.noteTable_irqEvents : (s.noteTable).irqEvents = s.irqEvents ||| 1#10 <<< IrqEvent.table.bit := rfl
@[simp] theorem State.noteTable_irqEnable : (s.noteTable).irqEnable = s.irqEnable := rfl
@[simp] theorem State.noteTable_dmx : (s.noteTable).dmx = { s.dmx with secDone := s.dmx.secDone + 1#32 } := rfl
@[simp] theorem State.noteTable_flt : (s.noteTable).flt = s.flt := rfl
@[simp] theorem State.noteTable_mem : (s.noteTable).mem = s.mem := rfl
@[simp] theorem State.noteTable_ch : (s.noteTable).ch = s.ch := rfl
@[simp] theorem State.noteTable_env : (s.noteTable).env = s.env := rfl
@[simp] theorem State.noteTable_filter (q : Pid) : (s.noteTable).filter q = s.filter q := rfl
@[simp] theorem State.noteTable_data (q : Pid) (i : Nat) : (s.noteTable).data q i = s.data q i := rfl
@[simp] theorem State.noteTable_nDlv : (s.noteTable).nDlv = s.nDlv := rfl

/-! ## noteDiscont -/

@[simp] theorem State.noteDiscont_hw : (s.noteDiscont).hw = s.hw := rfl
@[simp] theorem State.noteDiscont_cmdStatus : (s.noteDiscont).cmdStatus = s.cmdStatus := rfl
@[simp] theorem State.noteDiscont_irqEvents : (s.noteDiscont).irqEvents = s.irqEvents ||| 1#10 <<< IrqEvent.discont.bit := rfl
@[simp] theorem State.noteDiscont_irqEnable : (s.noteDiscont).irqEnable = s.irqEnable := rfl
@[simp] theorem State.noteDiscont_dmx : (s.noteDiscont).dmx = { s.dmx with discont := s.dmx.discont + 1#32 } := rfl
@[simp] theorem State.noteDiscont_flt : (s.noteDiscont).flt = s.flt := rfl
@[simp] theorem State.noteDiscont_mem : (s.noteDiscont).mem = s.mem := rfl
@[simp] theorem State.noteDiscont_ch : (s.noteDiscont).ch = s.ch := rfl
@[simp] theorem State.noteDiscont_env : (s.noteDiscont).env = s.env := rfl
@[simp] theorem State.noteDiscont_filter (q : Pid) : (s.noteDiscont).filter q = s.filter q := rfl
@[simp] theorem State.noteDiscont_data (q : Pid) (i : Nat) : (s.noteDiscont).data q i = s.data q i := rfl
@[simp] theorem State.noteDiscont_nDlv : (s.noteDiscont).nDlv = s.nDlv := rfl

/-! ## noteSyncFault -/

@[simp] theorem State.noteSyncFault_hw (o : DWord) : (s.noteSyncFault o).hw = s.hw := rfl
@[simp] theorem State.noteSyncFault_cmdStatus (o : DWord) : (s.noteSyncFault o).cmdStatus = s.cmdStatus := rfl
@[simp] theorem State.noteSyncFault_irqEvents (o : DWord) : (s.noteSyncFault o).irqEvents = s.irqEvents ||| 1#10 <<< IrqEvent.syncFault.bit := rfl
@[simp] theorem State.noteSyncFault_irqEnable (o : DWord) : (s.noteSyncFault o).irqEnable = s.irqEnable := rfl
@[simp] theorem State.noteSyncFault_dmx (o : DWord) : (s.noteSyncFault o).dmx = { s.dmx with syncFaults := s.dmx.syncFaults + 1#32, regs := { s.dmx.regs with faultOff := o } } := rfl
@[simp] theorem State.noteSyncFault_flt (o : DWord) : (s.noteSyncFault o).flt = s.flt := rfl
@[simp] theorem State.noteSyncFault_mem (o : DWord) : (s.noteSyncFault o).mem = s.mem := rfl
@[simp] theorem State.noteSyncFault_ch (o : DWord) : (s.noteSyncFault o).ch = s.ch := rfl
@[simp] theorem State.noteSyncFault_env (o : DWord) : (s.noteSyncFault o).env = s.env := rfl
@[simp] theorem State.noteSyncFault_filter (o : DWord) (q : Pid) : (s.noteSyncFault o).filter q = s.filter q := rfl
@[simp] theorem State.noteSyncFault_data (o : DWord) (q : Pid) (i : Nat) : (s.noteSyncFault o).data q i = s.data q i := rfl
@[simp] theorem State.noteSyncFault_nDlv (o : DWord) : (s.noteSyncFault o).nDlv = s.nDlv := rfl

/-! ## prologue -/

@[simp] theorem State.prologue_hw : (s.prologue).hw = s.hw := rfl
@[simp] theorem State.prologue_cmdStatus : (s.prologue).cmdStatus = s.cmdStatus := rfl
@[simp] theorem State.prologue_irqEvents : (s.prologue).irqEvents = s.irqEvents := rfl
@[simp] theorem State.prologue_irqEnable : (s.prologue).irqEnable = s.irqEnable := rfl
@[simp] theorem State.prologue_dmx : (s.prologue).dmx = { s.dmx with pktCount := s.dmx.pktCount + 1#32, regs := { s.dmx.regs with offset := uwrap64 (u64 s.dmx.regs.offset + Config.pktSize) } } := rfl
@[simp] theorem State.prologue_flt : (s.prologue).flt = s.flt := rfl
@[simp] theorem State.prologue_mem : (s.prologue).mem = s.mem := rfl
@[simp] theorem State.prologue_ch : (s.prologue).ch = s.ch := rfl
@[simp] theorem State.prologue_env : (s.prologue).env = s.env := rfl
@[simp] theorem State.prologue_filter (q : Pid) : (s.prologue).filter q = s.filter q := rfl
@[simp] theorem State.prologue_data (q : Pid) (i : Nat) : (s.prologue).data q i = s.data q i := rfl
@[simp] theorem State.prologue_nDlv : (s.prologue).nDlv = s.nDlv := rfl

/-! ## indexEmit -/

@[simp] theorem State.indexEmit_hw (off ns dur : DWord) (rai : Bool) : (s.indexEmit off ns dur rai).hw = s.hw := rfl
@[simp] theorem State.indexEmit_cmdStatus (off ns dur : DWord) (rai : Bool) : (s.indexEmit off ns dur rai).cmdStatus = s.cmdStatus := rfl
@[simp] theorem State.indexEmit_irqEvents (off ns dur : DWord) (rai : Bool) : (s.indexEmit off ns dur rai).irqEvents = s.irqEvents := rfl
@[simp] theorem State.indexEmit_irqEnable (off ns dur : DWord) (rai : Bool) : (s.indexEmit off ns dur rai).irqEnable = s.irqEnable := rfl
@[simp] theorem State.indexEmit_dmx (off ns dur : DWord) (rai : Bool) : (s.indexEmit off ns dur rai).dmx = { s.dmx with idxL := some { offset := off, pcrNs := ns, durationNs := dur, keyframe := !s.dmx.keyframeModeL && rai }, idxCount := s.dmx.idxCount + 1#32 } := rfl
@[simp] theorem State.indexEmit_flt (off ns dur : DWord) (rai : Bool) : (s.indexEmit off ns dur rai).flt = s.flt := rfl
@[simp] theorem State.indexEmit_mem (off ns dur : DWord) (rai : Bool) : (s.indexEmit off ns dur rai).mem = s.mem := rfl
@[simp] theorem State.indexEmit_ch (off ns dur : DWord) (rai : Bool) : (s.indexEmit off ns dur rai).ch = s.ch := rfl
@[simp] theorem State.indexEmit_env (off ns dur : DWord) (rai : Bool) : (s.indexEmit off ns dur rai).env = s.env := rfl
@[simp] theorem State.indexEmit_filter (off ns dur : DWord) (rai : Bool) (q : Pid) : (s.indexEmit off ns dur rai).filter q = s.filter q := rfl
@[simp] theorem State.indexEmit_data (off ns dur : DWord) (rai : Bool) (q : Pid) (i : Nat) : (s.indexEmit off ns dur rai).data q i = s.data q i := rfl
@[simp] theorem State.indexEmit_nDlv (off ns dur : DWord) (rai : Bool) : (s.indexEmit off ns dur rai).nDlv = s.nDlv := rfl

/-! ## The filter table -/

@[simp] theorem State.filter_setFilter_self (p : Pid) (f : Filter) : (s.setFilter p f).filter p = f :=
  sparseGet_sparsePut_self _ _ _ _

theorem State.filter_setFilter_ne {p q : Pid} (h : q ≠ p) (f : Filter) : (s.setFilter p f).filter q = s.filter q :=
  sparseGet_sparsePut_ne _ _ (fun e => h (BitVec.eq_of_toNat_eq e)) _

theorem State.filter_setFilter (p q : Pid) (f : Filter) :
    (s.setFilter p f).filter q = if q = p then f else s.filter q := by
  split
  · subst_vars; simp
  · exact s.filter_setFilter_ne ‹_› f

theorem State.setFilter_fltWf (p : Pid) (f : Filter) (h : fltWf s.flt = true) : fltWf (s.setFilter p f).flt = true :=
  sparsePut_wf _ _ (Nat.zero_le _) p.isLt _ h

/-- What a store into a filter's buffer can do, said once: inside the buffer it changes that one byte. -/
theorem State.writeData_cases {s t : State} {p : Pid} {i : Nat} {x : Byte} (h : s.writeData p i x = .ok t) :
    i < 4096 ∧ t = { s with mem := Memory.write s.mem (dataAddr p i) x } := by
  unfold State.writeData at h
  split at h
  · exact ⟨by simpa [Config.maxSection] using ‹_›, by simpa using h.symm⟩
  · cases h

theorem State.writeData_of_lt {p : Pid} {i : Nat} (h : i < 4096) (x : Byte) :
    s.writeData p i x = .ok { s with mem := Memory.write s.mem (dataAddr p i) x } := by
  simp [State.writeData, Config.maxSection, h]

/-! ## The schedule -/

@[simp] theorem State.setSched_setSched (l l' : List Action) : (s.setSched l).setSched l' = s.setSched l' := rfl

@[simp] theorem State.setSched_sched (l : List Action) : (s.setSched l).env.sched = l := rfl

@[simp] theorem State.setSched_now (l : List Action) : (s.setSched l).now = s.now := rfl

end Sys2Proof.Machine
end

