-- ==== Sys2Proof/Laws/Sections.lean ====
section
/-! SUPPORT. The section reassembler, said once: what it keeps (`SectionKeeps`), that it keeps 42 R272 and completes under
it, and which bytes of the buffers it stores to. -/

namespace Sys2Proof.Machine

/-! ## What the section path of a packet on PID `p` leaves alone -/

/-- Everything the section path never writes: of DMX only the section counters and what the two parsers write may change,
of FLT[p] everything but SEEN, of the other filters only CODEC; event bits are only set. -/
structure SectionKeeps (p : Pid) (s t : State) : Prop where
  hw : t.hw = s.hw
  cmdStatus : t.cmdStatus = s.cmdStatus
  irqEnable : t.irqEnable = s.irqEnable
  ch : t.ch = s.ch
  env : t.env = s.env
  dmx : t.dmx = { s.dmx with
    pmtValid := t.dmx.pmtValid
    pmtPid := t.dmx.pmtPid
    pcrPidValid := t.dmx.pcrPidValid
    pcrPid := t.dmx.pcrPid
    secOvf := t.dmx.secOvf
    unkStype := t.dmx.unkStype
    secDone := t.dmx.secDone
    secDiscard := t.dmx.secDiscard
    malformed := t.dmx.malformed }
  seen : ∀ q, (t.filter q).seen = (s.filter q).seen
  others : ∀ q, q ≠ p → t.filter q = { s.filter q with codec := (t.filter q).codec }
  events : s.irqEvents &&& ~~~t.irqEvents = 0#10

theorem events_raised (v w : BitVec 10) : v &&& ~~~(v ||| w) = 0#10 := by
  ext i hi; simp; intro h; simp [h]

theorem events_trans {a b c : BitVec 10} (h1 : a &&& ~~~b = 0#10) (h2 : b &&& ~~~c = 0#10) : a &&& ~~~c = 0#10 := by
  ext i hi
  have e1 := congrArg (fun v => v.getLsbD i) h1
  have e2 := congrArg (fun v => v.getLsbD i) h2
  simp [hi] at e1 e2 ⊢
  intro h; exact e2 (e1 h)

namespace SectionKeeps

variable {p : Pid} {s t u : State}

theorem refl (p : Pid) (s : State) : SectionKeeps p s s where
  hw := rfl
  cmdStatus := rfl
  irqEnable := rfl
  ch := rfl
  env := rfl
  dmx := rfl
  seen _ := rfl
  others _ _ := rfl
  events := by simp

theorem trans (h1 : SectionKeeps p s t) (h2 : SectionKeeps p t u) : SectionKeeps p s u where
  hw := h2.hw.trans h1.hw
  cmdStatus := h2.cmdStatus.trans h1.cmdStatus
  irqEnable := h2.irqEnable.trans h1.irqEnable
  ch := h2.ch.trans h1.ch
  env := h2.env.trans h1.env
  dmx := by rw [h2.dmx, h1.dmx]
  seen q := (h2.seen q).trans (h1.seen q)
  others q hq := by rw [h2.others q hq, h1.others q hq]
  events := events_trans h1.events h2.events

theorem noteMalformed (p : Pid) (s : State) : SectionKeeps p s s.noteMalformed :=
  ⟨rfl, rfl, rfl, rfl, rfl, rfl, fun _ => rfl, fun _ _ => rfl, events_raised _ _⟩

theorem noteSecDiscard (p : Pid) (s : State) : SectionKeeps p s s.noteSecDiscard :=
  ⟨rfl, rfl, rfl, rfl, rfl, rfl, fun _ => rfl, fun _ _ => rfl, events_raised _ _⟩

theorem noteSecOvf (p : Pid) (s : State) : SectionKeeps p s s.noteSecOvf :=
  ⟨rfl, rfl, rfl, rfl, rfl, rfl, fun _ => rfl, fun _ _ => rfl, events_raised _ _⟩

theorem noteUnkStype (p : Pid) (s : State) : SectionKeeps p s s.noteUnkStype :=
  ⟨rfl, rfl, rfl, rfl, rfl, rfl, fun _ => rfl, fun _ _ => rfl, events_raised _ _⟩

theorem noteTable (p : Pid) (s : State) : SectionKeeps p s s.noteTable :=
  ⟨rfl, rfl, rfl, rfl, rfl, rfl, fun _ => rfl, fun _ _ => rfl, events_raised _ _⟩

theorem setPmtPid (p : Pid) (s : State) (pid : Pid) :
    SectionKeeps p s (s.setDmx { s.dmx with pmtPid := pid, pmtValid := true }) :=
  ⟨rfl, rfl, rfl, rfl, rfl, rfl, fun _ => rfl, fun _ _ => rfl, by simp⟩

theorem setPcrPid (p : Pid) (s : State) (pid : Pid) :
    SectionKeeps p s (s.setDmx { s.dmx with pcrPid := pid, pcrPidValid := true }) :=
  ⟨rfl, rfl, rfl, rfl, rfl, rfl, fun _ => rfl, fun _ _ => rfl, by simp⟩

/-- The filter of the packet's own PID may change in all but SEEN. -/
theorem setOwn (s : State) {f : Filter} (h : f.seen = (s.filter p).seen) : SectionKeeps p s (s.setFilter p f) where
  hw := rfl
  cmdStatus := rfl
  irqEnable := rfl
  ch := rfl
  env := rfl
  dmx := rfl
  seen q := by by_cases hq : q = p <;> simp [State.filter_setFilter, hq, h]
  others q hq := by rw [s.filter_setFilter_ne hq]
  events := by simp

/-- Any filter's CODEC may change. -/
theorem setCodec (p : Pid) (s : State) (q : Pid) (c : Codec) :
    SectionKeeps p s (s.setFilter q { s.filter q with codec := c }) where
  hw := rfl
  cmdStatus := rfl
  irqEnable := rfl
  ch := rfl
  env := rfl
  dmx := rfl
  seen r := by by_cases hq : r = q <;> simp [State.filter_setFilter, hq]
  others r _ := by by_cases hq : r = q <;> simp [State.filter_setFilter, hq]
  events := by simp

/-- The buffers are no part of what is kept. -/
theorem setMem (p : Pid) (s : State) (m : Memory) : SectionKeeps p s { s with mem := m } :=
  ⟨rfl, rfl, rfl, rfl, rfl, rfl, fun _ => rfl, fun _ _ => rfl, by simp⟩

end SectionKeeps

/-! ## The parsers -/

theorem State.parsePat_keeps (s : State) (p : Pid) (d : List Byte) (size : Nat) :
    SectionKeeps p s (s.parsePat d size) := by
  unfold State.parsePat
  split
  · exact .setPmtPid p s _
  · exact .refl p s

theorem State.pmtEntry_keeps (s : State) (p : Pid) (st : Byte) (epid : Pid) :
    SectionKeeps p s (s.pmtEntry st epid) := by
  unfold State.pmtEntry
  dsimp only
  split
  · exact .noteUnkStype p s
  · exact .setCodec p s epid _

theorem pmtWalk_keeps (p : Pid) (d : List Byte) (size fuel off : Nat) (s : State) :
    SectionKeeps p s (pmtWalk d size fuel off s) := by
  induction fuel generalizing off s with
  | zero => exact .refl p s
  | succ n ih =>
    unfold pmtWalk
    split
    · exact (s.pmtEntry_keeps p _ _).trans (ih _ _)
    · exact .refl p s

theorem State.parsePmt_keeps (s : State) (p : Pid) (d : List Byte) (size : Nat) :
    SectionKeeps p s (s.parsePmt d size) := by
  unfold State.parsePmt
  split
  · exact .noteMalformed p s
  · exact (SectionKeeps.setPcrPid p s _).trans (pmtWalk_keeps p d size _ _ _)

/-- Every filter but for CODEC, and the buffers: what the parsers leave alone. -/
structure ParserKeeps (s t : State) : Prop where
  filter : ∀ q, t.filter q = { s.filter q with codec := (t.filter q).codec }
  mem : t.mem = s.mem
  secDone : t.dmx.secDone = s.dmx.secDone
  secDiscard : t.dmx.secDiscard = s.dmx.secDiscard
  secOvf : t.dmx.secOvf = s.dmx.secOvf

theorem ParserKeeps.refl (s : State) : ParserKeeps s s := ⟨fun _ => rfl, rfl, rfl, rfl, rfl⟩

theorem ParserKeeps.trans {s t u : State} (h1 : ParserKeeps s t) (h2 : ParserKeeps t u) : ParserKeeps s u where
  filter q := by rw [h2.filter q, h1.filter q]
  mem := h2.mem.trans h1.mem
  secDone := h2.secDone.trans h1.secDone
  secDiscard := h2.secDiscard.trans h1.secDiscard
  secOvf := h2.secOvf.trans h1.secOvf

theorem State.pmtEntry_parser (s : State) (st : Byte) (epid : Pid) : ParserKeeps s (s.pmtEntry st epid) := by
  unfold State.pmtEntry
  dsimp only
  split
  · exact ⟨fun _ => rfl, rfl, rfl, rfl, rfl⟩
  · refine ⟨fun q => ?_, rfl, rfl, rfl, rfl⟩
    by_cases hq : q = epid <;> simp [State.filter_setFilter, hq]

theorem pmtWalk_parser (d : List Byte) (size fuel off : Nat) (s : State) :
    ParserKeeps s (pmtWalk d size fuel off s) := by
  induction fuel generalizing off s with
  | zero => exact .refl s
  | succ n ih =>
    unfold pmtWalk
    split
    · exact (s.pmtEntry_parser _ _).trans (ih _ _)
    · exact .refl s

theorem State.parsePat_parser (s : State) (d : List Byte) (size : Nat) : ParserKeeps s (s.parsePat d size) := by
  unfold State.parsePat
  split <;> exact ⟨fun _ => rfl, rfl, rfl, rfl, rfl⟩

theorem State.parsePmt_parser (s : State) (d : List Byte) (size : Nat) : ParserKeeps s (s.parsePmt d size) := by
  unfold State.parsePmt
  split
  · exact ⟨fun _ => rfl, rfl, rfl, rfl, rfl⟩
  · refine ParserKeeps.trans ?_ (pmtWalk_parser d size _ _ _)
    exact ⟨fun _ => rfl, rfl, rfl, rfl, rfl⟩

/-! ## Dispatch, overflow and the append -/

/-- The state after the parser that Dispatch calls. -/
def State.parsed (s : State) (p : Pid) : State :=
  let size := (s.filter p).size.toNat
  if p = 0#13 then s.noteTable.parsePat (s.sectionBytes p size) size
  else s.noteTable.parsePmt (s.sectionBytes p size) size

theorem State.dispatch_eq (s : State) (p : Pid) :
    s.dispatch p = (s.parsed p).setFilter p
      { (s.parsed p).filter p with active := false, pos := 0#13, size := 0#13 } := rfl

theorem State.parsed_keeps (s : State) (p : Pid) : SectionKeeps p s (s.parsed p) := by
  unfold State.parsed
  dsimp only
  split
  · exact (SectionKeeps.noteTable p s).trans (State.parsePat_keeps _ p _ _)
  · exact (SectionKeeps.noteTable p s).trans (State.parsePmt_keeps _ p _ _)

theorem State.parsed_parser (s : State) (p : Pid) : ParserKeeps s.noteTable (s.parsed p) := by
  unfold State.parsed
  dsimp only
  split
  · exact State.parsePat_parser _ _ _
  · exact State.parsePmt_parser _ _ _

theorem State.dispatch_keeps (s : State) (p : Pid) : SectionKeeps p s (s.dispatch p) := by
  rw [State.dispatch_eq]
  exact (s.parsed_keeps p).trans (.setOwn _ rfl)

@[simp] theorem State.dispatch_mem (s : State) (p : Pid) : (s.dispatch p).mem = s.mem := by
  rw [State.dispatch_eq]; exact (s.parsed_parser p).mem

/-- What Dispatch leaves of its own filter: nothing in progress, the codec as the parser left it. -/
theorem State.dispatch_filter (s : State) (p : Pid) :
    (s.dispatch p).filter p =
      { s.filter p with active := false, pos := 0#13, size := 0#13, codec := ((s.parsed p).filter p).codec } := by
  rw [State.dispatch_eq, State.filter_setFilter_self, (s.parsed_parser p).filter p]
  rfl

theorem State.overflow_keeps (s : State) (p : Pid) : SectionKeeps p s (s.overflow p) := by
  unfold State.overflow
  refine SectionKeeps.trans ?_ (SectionKeeps.noteSecOvf p _)
  exact .setOwn s rfl

@[simp] theorem State.overflow_mem (s : State) (p : Pid) : (s.overflow p).mem = s.mem := rfl

@[simp] theorem State.overflow_filter (s : State) (p : Pid) :
    (s.overflow p).filter p = { s.filter p with invalid := true, active := false } := by
  simp [State.overflow]

/-- What follows the store of a section byte, said once (42 R264): the third byte fixes SIZE, and then the filter
overflows, is dispatched or waits; at the section's end it is dispatched; else nothing. -/
theorem State.appended_cases (s : State) (p : Pid) :
    ((s.filter p).size = 0#13 ∧ (s.filter p).pos = 3#13 ∧
      ((4096 < (sectionSize (s.data p 1) (s.data p 2)).toNat ∧
          s.appended p = (s.setFilter p { s.filter p with size := sectionSize (s.data p 1) (s.data p 2) }).overflow p) ∨
        ((sectionSize (s.data p 1) (s.data p 2)).toNat ≤ 4096 ∧ 3#13 = sectionSize (s.data p 1) (s.data p 2) ∧
          s.appended p = (s.setFilter p { s.filter p with size := sectionSize (s.data p 1) (s.data p 2) }).dispatch p) ∨
        ((sectionSize (s.data p 1) (s.data p 2)).toNat ≤ 4096 ∧ 3#13 ≠ sectionSize (s.data p 1) (s.data p 2) ∧
          s.appended p = s.setFilter p { s.filter p with size := sectionSize (s.data p 1) (s.data p 2) }))) ∨
    ((s.filter p).size ≠ 0#13 ∧ (s.filter p).pos = (s.filter p).size ∧ s.appended p = s.dispatch p) ∨
    (((s.filter p).size = 0#13 → (s.filter p).pos ≠ 3#13) ∧
      ((s.filter p).size ≠ 0#13 → (s.filter p).pos ≠ (s.filter p).size) ∧ s.appended p = s) := by
  unfold State.appended
  dsimp only
  by_cases h1 : (s.filter p).size = 0#13 ∧ (s.filter p).pos = 3#13
  · left
    rw [if_pos h1]
    refine ⟨h1.1, h1.2, ?_⟩
    by_cases h2 : Config.maxSection < (sectionSize (s.data p 1) (s.data p 2)).toNat
    · left; exact ⟨h2, by rw [if_pos h2]⟩
    · right
      rw [if_neg h2]
      by_cases h3 : (s.filter p).pos = sectionSize (s.data p 1) (s.data p 2)
      · left; exact ⟨Nat.le_of_not_lt h2, h1.2 ▸ h3, by rw [if_pos h3]⟩
      · right; exact ⟨Nat.le_of_not_lt h2, h1.2 ▸ h3, by rw [if_neg h3]⟩
  · right
    rw [if_neg h1]
    by_cases h2 : (s.filter p).size ≠ 0#13 ∧ (s.filter p).pos = (s.filter p).size
    · left; exact ⟨h2.1, h2.2, by rw [if_pos h2]⟩
    · right
      rw [if_neg h2]
      exact ⟨fun a b => h1 ⟨a, b⟩, fun a b => h2 ⟨a, b⟩, rfl⟩

theorem State.appended_keeps (s : State) (p : Pid) : SectionKeeps p s (s.appended p) := by
  rcases s.appended_cases p with ⟨_, _, ⟨_, h⟩ | ⟨_, _, h⟩ | ⟨_, _, h⟩⟩ | ⟨_, _, h⟩ | ⟨_, _, h⟩ <;> rw [h]
  · refine SectionKeeps.trans ?_ (State.overflow_keeps _ p)
    exact .setOwn s rfl
  · refine SectionKeeps.trans ?_ (State.dispatch_keeps _ p)
    exact .setOwn s rfl
  · exact .setOwn s rfl
  · exact s.dispatch_keeps p
  · exact .refl p s

@[simp] theorem State.appended_mem (s : State) (p : Pid) : (s.appended p).mem = s.mem := by
  rcases s.appended_cases p with ⟨_, _, ⟨_, h⟩ | ⟨_, _, h⟩ | ⟨_, _, h⟩⟩ | ⟨_, _, h⟩ | ⟨_, _, h⟩ <;> simp [h]

/-- The state in which a section byte is stored and POS has advanced. -/
def State.stored (s : State) (p : Pid) (x : Byte) : State :=
  { s with mem := Memory.write s.mem (dataAddr p (s.filter p).pos.toNat) x }.setFilter p
    { s.filter p with pos := (s.filter p).pos + 1#13 }

@[simp] theorem State.stored_filter (s : State) (p : Pid) (x : Byte) :
    (s.stored p x).filter p = { s.filter p with pos := (s.filter p).pos + 1#13 } := by
  simp [State.stored]

@[simp] theorem State.stored_mem (s : State) (p : Pid) (x : Byte) :
    (s.stored p x).mem = Memory.write s.mem (dataAddr p (s.filter p).pos.toNat) x := rfl

/-- AppendByte, said once: it answers exactly when POS is inside the buffer. -/
theorem State.appendByte_cases {s t : State} {p : Pid} {x : Byte} (h : s.appendByte p x = .ok t) :
    (s.filter p).pos.toNat < 4096 ∧ t = (s.stored p x).appended p := by
  unfold State.appendByte at h
  split at h
  · rename_i s1 hs
    obtain ⟨hlt, rfl⟩ := State.writeData_cases hs
    exact ⟨hlt, (Except.ok.inj h).symm⟩
  · cases h

theorem State.appendByte_of_lt {s : State} {p : Pid} (h : (s.filter p).pos.toNat < 4096) (x : Byte) :
    s.appendByte p x = .ok ((s.stored p x).appended p) := by
  unfold State.appendByte
  rw [s.writeData_of_lt h]
  rfl

theorem State.appendByte_keeps {s t : State} {p : Pid} {x : Byte} (h : s.appendByte p x = .ok t) :
    SectionKeeps p s t := by
  obtain ⟨_, rfl⟩ := State.appendByte_cases h
  refine SectionKeeps.trans ?_ (State.appended_keeps _ p)
  exact (SectionKeeps.setMem p s _).trans (SectionKeeps.setOwn _ rfl)

theorem sectionSize_toNat (d1 d2 : Byte) : (sectionSize d1 d2).toNat = 3 + (len12 d1 d2).toNat := by
  have h : (len12 d1 d2).toNat < 4096 := (len12 d1 d2).isLt
  simp [sectionSize, BitVec.toNat_add, BitVec.toNat_setWidth]
  omega

/-- AppendByte keeps 42 R272 of the filter it appends to. -/
theorem State.appendByte_ok {s t : State} {p : Pid} {x : Byte} (hok : (s.filter p).ok)
    (hact : (s.filter p).active = true) (h : s.appendByte p x = .ok t) : (t.filter p).ok := by
  obtain ⟨hlt, rfl⟩ := State.appendByte_cases h
  obtain ⟨ha, hb, hc, hd, he⟩ := hok
  have hinv : (s.filter p).invalid = false := by
    by_contra hi; simp [hact] at ha; exact hi ha
  have hpos : ((s.filter p).pos + 1#13).toNat = (s.filter p).pos.toNat + 1 := by
    rw [BitVec.toNat_add]; simp; omega
  generalize hu : s.stored p x = u
  have hf : u.filter p = { s.filter p with pos := (s.filter p).pos + 1#13 } := by rw [← hu]; simp
  have hs := sectionSize_toNat (u.data p 1) (u.data p 2)
  have hl : (len12 (u.data p 1) (u.data p 2)).toNat < 4096 := (len12 _ _).isLt
  rcases u.appended_cases p with ⟨h1, h2, h3⟩ | ⟨h1, h2, h3⟩ | ⟨h1, h2, h3⟩
  · rw [hf] at h1 h2 h3
    simp only at h1 h2
    rcases h3 with ⟨h4, h5⟩ | ⟨_, h4, h5⟩ | ⟨h4, h5, h6⟩
    · rw [h5]
      simp only [State.overflow_filter, State.filter_setFilter_self, Filter.ok]
      simp only [h2]
      simp
      rcases (show (len12 (u.data p 1) (u.data p 2)).toNat = 4094 ∨
        (len12 (u.data p 1) (u.data p 2)).toNat = 4095 by omega) with h | h
      · left; apply BitVec.eq_of_toNat_eq; simp; omega
      · right; apply BitVec.eq_of_toNat_eq; simp; omega
    · rw [h5]
      simp [State.dispatch_filter, Filter.ok, hinv]
    · rw [h6]
      simp only [State.filter_setFilter_self, Filter.ok]
      have hne : sectionSize (u.data p 1) (u.data p 2) ≠ 0#13 := by
        intro hz; rw [hz] at hs; simp at hs; omega
      have hgt : 3 < (sectionSize (u.data p 1) (u.data p 2)).toNat := by
        rcases Nat.lt_or_ge 3 (sectionSize (u.data p 1) (u.data p 2)).toNat with h | h
        · exact h
        · exact absurd (BitVec.eq_of_toNat_eq (by simp; omega)) h5
      simp only [h2]
      simp [hact, hinv, hne]
      omega
  · rw [hf] at h1 h2
    rw [h3]
    simp [State.dispatch_filter, hf, Filter.ok, hinv]
  · rw [h3, hf]
    rw [hf] at h1 h2
    simp only at h1 h2
    have h1' : (s.filter p).size = 0#13 → (s.filter p).pos.toNat + 1 ≠ 3 := by
      intro hz hq
      exact h1 hz (BitVec.eq_of_toNat_eq (by rw [hpos]; simpa using hq))
    have h2' : (s.filter p).size ≠ 0#13 → (s.filter p).pos.toNat + 1 ≠ (s.filter p).size.toNat := by
      intro hz hq
      exact h2 hz (BitVec.eq_of_toNat_eq (by rw [hpos]; exact hq))
    simp only [Filter.ok, hact, hinv, hpos]
    simp only [hact, true_and] at hc hd
    refine ⟨by simp, by simp, fun hz => ?_, fun hz => ?_, by simp⟩
    · have := hc hz.2; have := h1' hz.2; omega
    · have := hd hz.2; have := h2' hz.2; omega

/-- POS of an active filter that meets 42 R272 is inside the buffer. -/
theorem Filter.ok.pos_lt {f : Filter} (h : f.ok) (ha : f.active = true) : f.pos.toNat < 4096 := by
  obtain ⟨_, _, hc, hd, _⟩ := h
  by_cases hz : f.size = 0#13
  · have := hc ⟨ha, hz⟩; omega
  · have := hd ⟨ha, hz⟩; omega

theorem State.append_nil (s : State) (p : Pid) : s.append p [] = .ok s := rfl

theorem State.append_cons_inactive {s : State} {p : Pid} (h : (s.filter p).active = false) (x : Byte)
    (xs : List Byte) : s.append p (x :: xs) = .ok s := by simp [State.append, h]

theorem State.append_inactive {s : State} {p : Pid} (h : (s.filter p).active = false) (xs : List Byte) :
    s.append p xs = .ok s := by
  cases xs with
  | nil => rfl
  | cons x xs => exact State.append_cons_inactive h x xs

theorem State.append_keeps {s t : State} {p : Pid} {xs : List Byte} (h : s.append p xs = .ok t) :
    SectionKeeps p s t := by
  induction xs generalizing s with
  | nil => cases h; exact .refl p _
  | cons x xs ih =>
    unfold State.append at h
    split at h
    · split at h
      · exact (State.appendByte_keeps ‹_›).trans (ih h)
      · cases h
    · cases h; exact .refl p _

/-- Append completes on a filter that meets 42 R272, and keeps it. -/
theorem State.append_completes {s : State} {p : Pid} (hok : (s.filter p).ok) (xs : List Byte) :
    ∃ t, s.append p xs = .ok t ∧ (t.filter p).ok := by
  induction xs generalizing s with
  | nil => exact ⟨s, rfl, hok⟩
  | cons x xs ih =>
    by_cases hact : (s.filter p).active = true
    · have hb := State.appendByte_of_lt (hok.pos_lt hact) x
      obtain ⟨t, ht, hto⟩ := ih (State.appendByte_ok hok hact hb)
      refine ⟨t, ?_, hto⟩
      unfold State.append
      simp [hact, hb, ht]
    · exact ⟨s, State.append_cons_inactive (by simpa using hact) x xs, hok⟩

/-- A filter that AppendByte leaves active has only moved POS by one and perhaps learned SIZE. -/
theorem State.appendByte_active_pos {s t : State} {p : Pid} {x : Byte} (h : s.appendByte p x = .ok t)
    (ha : (t.filter p).active = true) : (t.filter p).pos = (s.filter p).pos + 1#13 := by
  obtain ⟨_, rfl⟩ := State.appendByte_cases h
  generalize hu : s.stored p x = u at ha ⊢
  have hf : u.filter p = { s.filter p with pos := (s.filter p).pos + 1#13 } := by rw [← hu]; simp
  rcases u.appended_cases p with ⟨_, _, ⟨_, h⟩ | ⟨_, _, h⟩ | ⟨_, _, h⟩⟩ | ⟨_, _, h⟩ | ⟨_, _, h⟩ <;> rw [h] at ha ⊢
  · simp at ha
  · simp [State.dispatch_filter] at ha
  · simp [hf]
  · simp [State.dispatch_filter] at ha
  · simp [hf]

/-- Append stores only to the buffer bytes from POS on, one for each byte offered. -/
theorem State.append_mem_frame {s t : State} {p : Pid} {xs : List Byte} (h : s.append p xs = .ok t) {a : Nat}
    (ha : ¬ (dataAddr p (s.filter p).pos.toNat ≤ a ∧ a < dataAddr p (s.filter p).pos.toNat + xs.length)) :
    t.mem.read a = s.mem.read a := by
  induction xs generalizing s with
  | nil => cases h; rfl
  | cons x xs ih =>
    unfold State.append at h
    split at h
    · split at h
      · rename_i s1 hs
        obtain ⟨hlt, hs1⟩ := State.appendByte_cases hs
        have hmem : s1.mem = Memory.write s.mem (dataAddr p (s.filter p).pos.toNat) x := by rw [hs1]; simp
        have hne : a ≠ dataAddr p (s.filter p).pos.toNat := by
          rintro rfl; exact ha ⟨le_rfl, by simp⟩
        have h1 : s1.mem.read a = s.mem.read a := by rw [hmem]; exact Memory.read_write_ne _ hne x
        by_cases hact : (s1.filter p).active = true
        · have hp := State.appendByte_active_pos hs hact
          have hp' : (s1.filter p).pos.toNat = (s.filter p).pos.toNat + 1 := by
            rw [hp, BitVec.toNat_add]; simp; omega
          rw [ih h ?_, h1]
          rw [hp']
          simp only [dataAddr, List.length_cons] at ha ⊢
          omega
        · rw [State.append_inactive (by simpa using hact)] at h
          cases h; exact h1
      · cases h
    · cases h; rfl

/-- Append keeps the canonical form of both tables. -/
theorem State.append_mem_wf {s t : State} {p : Pid} {xs : List Byte} (h : s.append p xs = .ok t)
    (hw : Memory.wf s.mem = true) : Memory.wf t.mem = true := by
  induction xs generalizing s with
  | nil => cases h; exact hw
  | cons x xs ih =>
    unfold State.append at h
    split at h
    · split at h
      · rename_i s1 hs
        obtain ⟨hlt, hs1⟩ := State.appendByte_cases hs
        refine ih h ?_
        rw [hs1]; simpa using Memory.write_wf _ (dataAddr_lt p hlt) x hw
      · cases h
    · cases h; exact hw

/-! ## The whole section input of one packet -/

theorem State.sectionInput_keeps {s t : State} {p : Pid} {pusi : Bool} {payload : List Byte}
    (h : s.sectionInput p pusi payload = .ok t) : SectionKeeps p s t := by
  unfold State.sectionInput at h
  dsimp only at h
  split at h
  · cases h; exact .refl p s
  split at h
  · have h1 : SectionKeeps p s (if (s.filter p).active = true then s.noteSecDiscard else s) := by
      split
      · exact .noteSecDiscard p s
      · exact .refl p s
    have h2 : ∀ (f : Filter), f.seen = (s.filter p).seen →
        SectionKeeps p s ((if (s.filter p).active = true then s.noteSecDiscard else s).setFilter p f) := by
      intro f hf
      exact h1.trans (.setOwn _ (hf.trans (h1.seen p).symm))
    split at h
    · cases h
      refine SectionKeeps.trans ?_ (SectionKeeps.noteMalformed p _)
      exact h2 _ rfl
    · refine SectionKeeps.trans ?_ (State.append_keeps h)
      exact h2 _ rfl
  · split at h
    · exact State.append_keeps h
    · cases h; exact .refl p s

/-- The section input of a packet completes on a filter that meets 42 R272, and keeps it. -/
theorem State.sectionInput_completes {s : State} {p : Pid} (hok : (s.filter p).ok) (pusi : Bool)
    (payload : List Byte) : ∃ t, s.sectionInput p pusi payload = .ok t ∧ (t.filter p).ok := by
  unfold State.sectionInput
  dsimp only
  split
  · exact ⟨s, rfl, hok⟩
  rename_i hinv
  have hinv : (s.filter p).invalid = false := by simpa using hinv
  split
  · split
    · refine ⟨_, rfl, ?_⟩
      simp [Filter.cleared, Filter.ok, hinv]
    · refine State.append_completes ?_ _
      simp [Filter.cleared, Filter.ok, hinv]
  · split
    · exact State.append_completes hok _
    · exact ⟨s, rfl, hok⟩

end Sys2Proof.Machine
end

