-- ==== Sys2Proof/Laws/Step.lean ====
section
/-! SUPPORT. What a step can do, said once: the action the schedule names, each agent's step, and each packet class. -/

namespace Sys2Proof.Machine

/-! ## The action the schedule names -/

variable (s : State)

@[simp] theorem State.popped_hw : s.popped.hw = s.hw := rfl
@[simp] theorem State.popped_cmdStatus : s.popped.cmdStatus = s.cmdStatus := rfl
@[simp] theorem State.popped_irqEvents : s.popped.irqEvents = s.irqEvents := rfl
@[simp] theorem State.popped_irqEnable : s.popped.irqEnable = s.irqEnable := rfl
@[simp] theorem State.popped_dmx : s.popped.dmx = s.dmx := rfl
@[simp] theorem State.popped_flt : s.popped.flt = s.flt := rfl
@[simp] theorem State.popped_mem : s.popped.mem = s.mem := rfl
@[simp] theorem State.popped_ch : s.popped.ch = s.ch := rfl
@[simp] theorem State.popped_env : s.popped.env = { s.env with sched := s.env.sched.tail } := rfl
@[simp] theorem State.popped_filter (p : Pid) : s.popped.filter p = s.filter p := rfl
@[simp] theorem State.popped_data (p : Pid) (i : Nat) : s.popped.data p i = s.data p i := rfl
@[simp] theorem State.popped_nDlv : s.popped.nDlv = s.nDlv := rfl
@[simp] theorem State.popped_now : s.popped.now = s.env.wallNs := rfl

variable {s}

theorem step_of_nextAction {a : Action} (h : s.nextAction = some a) : step s = s.popped.act a := by
  unfold State.nextAction at h
  unfold step State.advance State.popped
  cases hs : s.env.sched with
  | nil => simp [hs] at h
  | cons b rest => simp [hs] at h; subst h; rfl

theorem step_of_idle (h : s.nextAction = none) : step s = .next s := by
  unfold State.nextAction at h
  unfold step State.advance
  cases hs : s.env.sched with
  | nil => rfl
  | cons b rest => simp [hs] at h

theorem nextAction_of_sched {a : Action} {rest : List Action} (h : s.env.sched = a :: rest) :
    s.nextAction = some a ∧ s.popped = s.setSched rest := by
  simp [State.nextAction, State.popped, h]

/-! ## The framer -/

theorem offset_advance (v : DWord) : uwrap64 (u64 v + (Config.pktSize : Int)) = v + 188#64 := by
  apply BitVec.eq_of_toNat_eq
  have h : (188#64).toNat = 188 := rfl
  simp only [uwrap64, u64, Config.pktSize, BitVec.toNat_ofInt, BitVec.toNat_add, h]
  omega

theorem received_eq (s : State) (p : Pid) :
    s.received p = { s with dmx := s.countedDmx p, flt := (s.received p).flt } := by
  unfold State.received State.markSeen State.countedDmx
  by_cases h : (s.filter p).seen = true
  · simp only [State.prologue_filter, h, if_true]
    rw [← offset_advance]; rfl
  · simp only [State.prologue_filter, h]
    rw [← offset_advance]; rfl

theorem received_filter (s : State) (p q : Pid) :
    (s.received p).filter q = if q = p then { s.filter q with seen := true } else s.filter q := by
  unfold State.received State.markSeen
  by_cases h : (s.filter p).seen = true
  · simp only [State.prologue_filter, h, if_true]
    split
    · subst_vars; rw [← h]
    · rfl
  · simp only [State.prologue_filter, h]
    simp [State.filter_setFilter]
    split
    · subst_vars; rfl
    · rfl

@[simp] theorem received_dmx (s : State) (p : Pid) : (s.received p).dmx = s.countedDmx p := by
  rw [received_eq]

@[simp] theorem received_mem (s : State) (p : Pid) : (s.received p).mem = s.mem := by rw [received_eq]
@[simp] theorem received_hw (s : State) (p : Pid) : (s.received p).hw = s.hw := by rw [received_eq]
@[simp] theorem received_cmdStatus (s : State) (p : Pid) : (s.received p).cmdStatus = s.cmdStatus := by rw [received_eq]
@[simp] theorem received_irqEvents (s : State) (p : Pid) : (s.received p).irqEvents = s.irqEvents := by rw [received_eq]
@[simp] theorem received_irqEnable (s : State) (p : Pid) : (s.received p).irqEnable = s.irqEnable := by rw [received_eq]
@[simp] theorem received_ch (s : State) (p : Pid) : (s.received p).ch = s.ch := by rw [received_eq]
@[simp] theorem received_env (s : State) (p : Pid) : (s.received p).env = s.env := by rw [received_eq]

theorem received_flt_wf (s : State) (p : Pid) (h : fltWf s.flt = true) : fltWf (s.received p).flt = true := by
  unfold State.received State.markSeen
  split
  · exact h
  · exact State.setFilter_fltWf _ _ _ h

theorem afEvents_cases (s : State) (af : Af) :
    (af.malformed = true ∧ s.afEvents af = s.noteMalformed) ∨ (af.malformed = false ∧ s.afEvents af = s) := by
  unfold State.afEvents
  by_cases h : af.malformed = true <;> simp [h]

/-! ## The clock tracker and the index builder -/

/-- Everything the PCR part of a packet never writes. -/
structure PcrKeeps (s t : State) : Prop where
  hw : t.hw = s.hw
  cmdStatus : t.cmdStatus = s.cmdStatus
  irqEnable : t.irqEnable = s.irqEnable
  flt : t.flt = s.flt
  mem : t.mem = s.mem
  ch : t.ch = s.ch
  env : t.env = s.env
  irqEvents : t.irqEvents = s.irqEvents ∨ t.irqEvents = s.irqEvents ||| 8#10
  dmx : t.dmx = { s.dmx with
    pcrSeen := t.dmx.pcrSeen
    discont := t.dmx.discont
    idxCount := t.dmx.idxCount
    idxL := t.dmx.idxL
    regs := { s.dmx.regs with
      pcrBaseNs := t.dmx.regs.pcrBaseNs
      pcrPrevNs := t.dmx.regs.pcrPrevNs
      durationNs := t.dmx.regs.durationNs
      lastDeltaNs := t.dmx.regs.lastDeltaNs
      bitrateBps := t.dmx.regs.bitrateBps
      pcrPrevOff := t.dmx.regs.pcrPrevOff } }

/-- ClockTrack, said once: the first PCR, a valid delta, or a discontinuity. -/
theorem clockTrack_cases (s : State) (ns off : DWord) :
    (s.dmx.pcrSeen = false ∧ s.clockTrack ns off = s.setDmx (s.dmx.firstPcr ns off)) ∨
    (s.dmx.pcrSeen = true ∧ (0 ≤ pcrDelta s.dmx ns ∧ pcrDelta s.dmx ns ≤ 500000000) ∧
      s.clockTrack ns off = s.setDmx ((s.dmx.validDelta (pcrDelta s.dmx ns) off).setPrev ns off)) ∨
    (s.dmx.pcrSeen = true ∧ (pcrDelta s.dmx ns < 0 ∨ 500000000 < pcrDelta s.dmx ns) ∧
      s.clockTrack ns off = (s.setDmx (s.dmx.frozenDelta.setPrev ns off)).noteDiscont) := by
  unfold State.clockTrack
  by_cases h : s.dmx.pcrSeen = true
  · right
    simp only [h, if_true, true_and]
    by_cases hd : isDiscontinuity (pcrDelta s.dmx ns) = true
    · right
      refine ⟨?_, by simp [hd]⟩
      rw [isDiscontinuity, Bool.or_eq_true, decide_eq_true_eq, decide_eq_true_eq] at hd
      exact hd
    · left
      refine ⟨?_, by simp [hd]⟩
      rw [isDiscontinuity, Bool.or_eq_true, decide_eq_true_eq, decide_eq_true_eq, not_or, not_lt, not_lt] at hd
      exact hd
  · left; simp [h]

theorem trackPcr_of_absent {af : Af} (h : af.pcrPresent = false) (s : State) (off : DWord) : s.trackPcr af off = s := by
  simp [State.trackPcr, h]

theorem trackPcr_of_present {af : Af} (h : af.pcrPresent = true) (s : State) (off : DWord) :
    s.trackPcr af off = (s.clockTrack (pcrToNs af.base af.ext) off).indexEmit off (pcrToNs af.base af.ext)
      (s.clockTrack (pcrToNs af.base af.ext) off).dmx.regs.durationNs af.rai := by
  simp [State.trackPcr, h]

theorem discont_bit : (1#10 <<< IrqEvent.discont.bit : BitVec 10) = 8#10 := by decide

theorem clockTrack_keeps (s : State) (ns off : DWord) : PcrKeeps s (s.clockTrack ns off) := by
  rcases clockTrack_cases s ns off with ⟨_, h⟩ | ⟨_, _, h⟩ | ⟨_, _, h⟩ <;> rw [h]
  · constructor <;> first | rfl | exact .inl rfl
  · constructor <;> first | rfl | exact .inl rfl
  · constructor <;> simp [discont_bit]
    simp [Dmx.frozenDelta, Dmx.setPrev]

theorem indexEmit_keeps {s t : State} (h : PcrKeeps s t) (off ns dur : DWord) (rai : Bool) :
    PcrKeeps s (t.indexEmit off ns dur rai) where
  hw := h.hw
  cmdStatus := h.cmdStatus
  irqEnable := h.irqEnable
  flt := h.flt
  mem := h.mem
  ch := h.ch
  env := h.env
  irqEvents := h.irqEvents
  dmx := by rw [State.indexEmit_dmx, h.dmx]

theorem trackPcr_keeps (s : State) (af : Af) (off : DWord) : PcrKeeps s (s.trackPcr af off) := by
  by_cases hp : af.pcrPresent = true
  · rw [trackPcr_of_present hp]
    exact indexEmit_keeps (clockTrack_keeps s _ off) _ _ _ _
  · rw [trackPcr_of_absent (by simpa using hp)]
    exact ⟨rfl, rfl, rfl, rfl, rfl, rfl, rfl, .inl rfl, rfl⟩

theorem PcrKeeps.filter {s t : State} (h : PcrKeeps s t) (q : Pid) : t.filter q = s.filter q := by
  simp [State.filter, h.flt]

/-! ## Packets -/

/-- What a packet of the three classes with operands comes to: the shared prologue, the adaptation field's event, the
section part, then the PCR part. -/
theorem process_cases {s t : State} {p : Pid} {pusi : Bool} {payload : List Byte} {af : Af} {off : DWord}
    (h : finish (s.process p pusi payload af off) = .next t) :
    ∃ u, s.sectionPart p pusi payload = .ok u ∧ t = u.trackPcr af off := by
  unfold State.process at h
  split at h
  · exact ⟨_, by assumption, by simpa [finish] using h.symm⟩
  · simp [finish] at h

theorem sectionPart_cases {s u : State} {p : Pid} {pusi : Bool} {payload : List Byte}
    (h : s.sectionPart p pusi payload = .ok u) :
    (payload ≠ [] ∧ s.isSectionPid p = true ∧ s.sectionInput p pusi payload = .ok u) ∨ u = s := by
  unfold State.sectionPart at h
  split at h
  · rename_i hc; exact .inl ⟨hc.1, hc.2, h⟩
  · exact .inr (by simpa using h.symm)

@[simp] theorem sectionPart_nil (s : State) (p : Pid) (pusi : Bool) : s.sectionPart p pusi [] = .ok s := by
  simp [State.sectionPart]

theorem isSectionPid_iff (s : State) (p : Pid) :
    s.isSectionPid p = true ↔ p = 0#13 ∨ (s.dmx.pmtValid = true ∧ p = s.dmx.pmtPid) := by
  simp [State.isSectionPid]

/-! ## The other agents -/

/-- What a step of DLV[c] comes to. -/
theorem dlvStep_cases {s t : State} {c : Nat} {ans : PortAns} (h : s.dlvStep c ans = .next t) :
    t = s ∨ ∃ k k1, s.ch[c]? = some k ∧
      ((k.step s.hw.raBufSize s.env.wallNs ans = .go k1 none ∧ t = s.setCh c k1) ∨
        ∃ chunk, k.step s.hw.raBufSize s.env.wallNs ans = .go k1 (some chunk) ∧
          t = (s.setCh c k1).setEnv { s.env with chOut := s.env.chOut ++ [(c, chunk)] }) := by
  unfold State.dlvStep at h
  split at h
  · left; simpa using h.symm
  · rename_i k hk
    split at h
    · left; simpa using h.symm
    · cases h
    · rename_i k1 hs; right; exact ⟨k, k1, hk, .inl ⟨hs, by simpa using h.symm⟩⟩
    · rename_i k1 chunk hs; right; exact ⟨k, k1, hk, .inr ⟨chunk, hs, by simpa using h.symm⟩⟩

/-- What a step of a channel does to the channel: it ends its session, or takes the step of its phase. -/
theorem Channel.step_cases {k k1 : Channel} {n : Nat} {now : DWord} {ans : PortAns} {out : Option (List Byte)}
    (h : k.step n now ans = .go k1 out) :
    (k.phase.running = true ∧ out = none ∧ (k.stopReq = true ∧ k1 = k.terminate .cancelled)) ∨
    (k.stopReq = false ∧
      ((k.phase = .fill ∧ out = none ∧
          ((∃ b, ans = .bytes b ∧ 1 ≤ b.length ∧ k.ra.length + b.length ≤ n ∧
              k1 = { k with ra := k.ra ++ b, phase := phaseFor (k.ra ++ b).length }) ∨
            k1 = { k with residue := BitVec.ofNat 11 k.ra.length }.terminate .endOfSource ∨
            k1 = k.terminate .readFault)) ∨
        (k.phase = .tsread ∧ out = none ∧
          ((∃ b, ans = .bytes b ∧ b.length = 8 ∧ k1 = k.timestamp (trackEntry b) now) ∨
            k1 = k.terminate .trackExhausted ∨ k1 = k.terminate .readFault)) ∨
        (k.phase = .wait ∧ out = none ∧ k.regs.wakeNs.toNat ≤ now.toNat ∧ k1 = { k with phase := .write }) ∨
        (k.phase = .write ∧
          ((ans = .ok ∧ out = some (k.ra.take 1316) ∧ k1 = k.writeOk) ∨
            (ans = .fault ∧ out = none ∧ k1 = k.writeFault))))) := by
  unfold Channel.step at h
  split at h
  · rename_i hc
    simp only [Bool.and_eq_true] at hc
    simp only [ChanStep.go.injEq] at h
    exact .inl ⟨hc.1, h.2.symm, hc.2, h.1.symm⟩
  · rename_i hc
    right
    cases hp : k.phase <;> simp [hp, DlvPhase.running] at hc h ⊢
    · refine ⟨hc, ?_⟩
      cases ans <;> simp [Channel.fillStep] at h ⊢
      · split at h <;> simp at h
        rename_i hb
        refine ⟨h.2.symm, .inl ⟨hb.1, hb.2, ?_⟩⟩
        simpa using h.1.symm
      · split at h <;> simp at h
        exact ⟨h.2.symm, .inl h.1.symm⟩
      · exact ⟨h.2.symm, .inr h.1.symm⟩
    · refine ⟨hc, ?_⟩
      cases ans <;> simp [Channel.tsreadStep] at h ⊢
      · split at h <;> simp at h
        rename_i hb
        exact ⟨h.2.symm, .inl ⟨hb, h.1.symm⟩⟩
      · split at h <;> simp at h
        exact ⟨h.2.symm, .inl h.1.symm⟩
      · exact ⟨h.2.symm, .inr h.1.symm⟩
    · refine ⟨hc, ?_⟩
      unfold Channel.waitStep at h
      split at h <;> simp at h
      rename_i hb
      exact ⟨h.2.symm, hb, h.1.symm⟩
    · refine ⟨hc, ?_⟩
      cases ans <;> simp [Channel.writeStep, Config.chunkSize] at h ⊢
      · exact ⟨h.2.symm, h.1.symm⟩
      · exact ⟨h.2.symm, h.1.symm⟩

/-- What a host read does. -/
theorem hostRead_cases {s t : State} {a : BitVec 12} {n : Nat} (h : s.hostRead a n = .next t) :
    n = 4 ∧ a.toNat % 4 = 0 ∧ t = (s.snapshot (regAt s.nDlv a.toNat)).setEnv
      { (s.snapshot (regAt s.nDlv a.toNat)).env with
        hostRd := (s.snapshot (regAt s.nDlv a.toNat)).env.hostRd ++ [s.readWord (regAt s.nDlv a.toNat)] } := by
  unfold State.hostRead at h
  split at h
  · rename_i hc
    simp [accessOk] at hc
    exact ⟨hc.1, hc.2, by simpa using h.symm⟩
  · cases h

/-- What a host write does. -/
theorem hostWrite_cases {s t : State} {a : BitVec 12} {n : Nat} {v : Word} (h : s.hostWrite a n v = .next t) :
    n = 4 ∧ a.toNat % 4 = 0 ∧
      ((regAt s.nDlv a.toNat = .cmd ∧ s.command v = .next t) ∨
        (regAt s.nDlv a.toNat ≠ .cmd ∧ t = s.writeWord v (regAt s.nDlv a.toNat))) := by
  unfold State.hostWrite at h
  split at h
  · rename_i hc
    simp [accessOk] at hc
    refine ⟨hc.1, hc.2, ?_⟩
    split at h
    · rename_i hr; exact .inl ⟨hr, h⟩
    · rename_i hr; exact .inr ⟨hr, by simpa using h.symm⟩
  · cases h

/-- What a write to CMD does: an instruction, or the decoder's rejection. -/
theorem command_cases {s t : State} {w : Word} (h : s.command w = .next t) :
    (∃ i, decodeCommand w = .ok i ∧ exec i s = .next t) ∨
    (∃ e, decodeCommand w = .error e ∧ t = s.reject (cmdOpcode w) (DecodeError.reason e)) := by
  unfold State.command at h
  split at h
  · exact .inl ⟨_, by assumption, h⟩
  · exact .inr ⟨_, by assumption, by simpa using h.symm⟩

/-- What a DMX step does. -/
theorem dmxStep_cases {s t : State} {ans : PortAns} (h : s.dmxStep ans = .next t) :
    t = s ∨
    (s.dmx.phase = .run ∧ s.dmx.stopReq = true ∧ t = s.terminateDmx .cancelled) ∨
    (s.dmx.phase = .run ∧ s.dmx.stopReq = false ∧ s.dmx.idxL = none ∧
      ((∃ b i, ans = .bytes b ∧ decodePacket b = .ok i ∧ exec i s = .next t) ∨
        (∃ n, ans = .eos n ∧ n < 188 ∧ t = s.dmxEos n) ∨
        (ans = .fault ∧ t = s.dmxReadFault))) := by
  unfold State.dmxStep at h
  split at h
  · left; simpa using h.symm
  rename_i hp
  simp only [ne_eq, not_not] at hp
  split at h
  · right; left; rename_i hs; exact ⟨hp, hs, by simpa using h.symm⟩
  rename_i hs
  split at h
  · left; simpa using h.symm
  rename_i hi
  have hi : s.dmx.idxL = none := by simpa [Dmx.idxFull] using hi
  unfold State.dmxRead at h
  split at h
  · left; simpa using h.symm
  · split at h
    · rename_i b _ i hb; exact .inr (.inr ⟨hp, by simpa using hs, hi, .inl ⟨b, i, rfl, hb, h⟩⟩)
    · cases h
  · split at h
    · rename_i n hn; exact .inr (.inr ⟨hp, by simpa using hs, hi, .inr (.inl ⟨n, rfl, hn, by simpa using h.symm⟩)⟩)
    · cases h
  · exact .inr (.inr ⟨hp, by simpa using hs, hi, .inr (.inr ⟨rfl, by simpa using h.symm⟩)⟩)
  · cases h

/-- What an end of source does. -/
theorem dmxEos_cases (s : State) (n : Nat) :
    (n = 0 ∧ s.dmxEos n = s.terminateDmx .endOfSource) ∨
    (0 < n ∧ s.dmxEos n =
      ((s.setDmx { s.dmx with truncBytes := BitVec.ofNat 8 n }).raise .trunc).terminateDmx .endOfSource) := by
  unfold State.dmxEos
  rcases Nat.eq_zero_or_pos n with h | h
  · left; exact ⟨h, by simp [h]⟩
  · right; exact ⟨h, by simp [h]⟩

/-- The whole of a step: nothing scheduled, or one action of one agent. -/
theorem step_cases {s t : State} (h : step s = .next t) :
    (s.nextAction = none ∧ t = s) ∨ ∃ a, s.nextAction = some a ∧ s.popped.act a = .next t := by
  cases ha : s.nextAction with
  | none => rw [step_of_idle ha] at h; exact .inl ⟨rfl, by simpa using h.symm⟩
  | some a => rw [step_of_nextAction ha] at h; exact .inr ⟨a, rfl, h⟩

end Sys2Proof.Machine
end

