-- ==== Sys2Proof/Laws/Packets.lean ====
section
/-! SUPPORT. The operand forms of a packet and the packet classes, said once: the five outcomes of AFDecode, the PCR in
nanoseconds, the section part of a packet, and what every packet leaves alone. -/

namespace Sys2Proof.Machine

/-! ## Byte fields -/

theorem beNat_lt (l : List Byte) : beNat l < 256 ^ l.length := by
  have key : ∀ (l : List Byte) (a n : Nat), a < 256 ^ n →
      l.foldl (fun acc b => acc * 256 + b.toNat) a < 256 ^ (n + l.length) := by
    intro l
    induction l with
    | nil => intro a n h; simpa using h
    | cons x l ih =>
      intro a n h
      have hx := x.isLt
      have := ih (a * 256 + x.toNat) (n + 1) (by rw [pow_succ]; omega)
      rw [List.foldl_cons, List.length_cons, show n + (l.length + 1) = n + 1 + l.length by omega]
      exact this
  simpa [beNat] using key l 0 0 (by simp)

theorem append_toNat (a b : Byte) : (a ++ b).toNat = a.toNat * 256 + b.toNat := by
  rw [BitVec.toNat_append, ← Nat.shiftLeft_add_eq_or_of_lt b.isLt, Nat.shiftLeft_eq]

theorem len12_toNat (a b : Byte) : (len12 a b).toNat = a.toNat % 16 * 256 + b.toNat := by
  have := b.isLt
  rw [len12, BitVec.extractLsb'_toNat, append_toNat, Nat.shiftRight_zero]
  omega

theorem pid13_eq (a b : Byte) : pid13 a b = a.extractLsb' 0 5 ++ b := by
  apply BitVec.eq_of_toNat_eq
  have := b.isLt
  rw [pid13, BitVec.extractLsb'_toNat, append_toNat, BitVec.toNat_append, ← Nat.shiftLeft_add_eq_or_of_lt b.isLt,
    BitVec.extractLsb'_toNat, Nat.shiftLeft_eq, Nat.shiftRight_zero, Nat.shiftRight_zero]
  omega

/-! ## AFDecode -/

/-- AFDecode, said once (41 R235): too long, empty, without a PCR, too short for its PCR, or with a PCR. -/
theorem afDecode_cases (body : List Byte) :
    (183 < (byteAt body 0).toNat ∧
      afDecode body = { Af.absent with afOk := false, ps := 188, malformed := true }) ∨
    ((byteAt body 0).toNat = 0 ∧ afDecode body = { Af.absent with ps := 5 }) ∨
    (1 ≤ (byteAt body 0).toNat ∧ (byteAt body 0).toNat ≤ 183 ∧ (byteAt body 1).getLsbD 4 = false ∧
      afDecode body = { Af.absent with rai := raiOf body, ps := 5 + (byteAt body 0).toNat }) ∨
    (1 ≤ (byteAt body 0).toNat ∧ (byteAt body 0).toNat < 7 ∧ (byteAt body 1).getLsbD 4 = true ∧
      afDecode body = { Af.absent with rai := raiOf body, ps := 5 + (byteAt body 0).toNat, malformed := true }) ∨
    (HasPcr body ∧ afDecode body =
      { Af.absent with
        pcrPresent := true
        rai := raiOf body
        base := (pcrField body).extractLsb' 15 33
        ext := (pcrField body).extractLsb' 0 9
        ps := 5 + (byteAt body 0).toNat }) := by
  unfold afDecode HasPcr raiOf
  simp only [packetByte, Nat.sub_self, show 5 - 4 = 1 from rfl]
  split
  · exact .inl ⟨by assumption, rfl⟩
  split
  · exact .inr (.inl ⟨by assumption, rfl⟩)
  split
  · rename_i h1 h2 h3
    exact .inr (.inr (.inl ⟨by omega, by omega, by simpa using h3, rfl⟩))
  split
  · rename_i h1 h2 h3 h4
    exact .inr (.inr (.inr (.inl ⟨by omega, by omega, by simpa using h3, rfl⟩)))
  · rename_i h1 h2 h3 h4
    exact .inr (.inr (.inr (.inr ⟨⟨by omega, by omega, by simpa using h3⟩, rfl⟩)))

/-- The payload AFDecode leaves a TS_AF_PAYLOAD packet: nothing after a field that is too long. -/
theorem afDecode_payload (body : List Byte) :
    (if (afDecode body).afOk then payloadFrom (afDecode body).ps body else []) =
      if (byteAt body 0).toNat ≤ 183 then body.drop (1 + (byteAt body 0).toNat) else [] := by
  rcases afDecode_cases body with ⟨h1, h2⟩ | ⟨h1, h2⟩ | ⟨h1, h1', _, h2⟩ | ⟨h1, h1', _, h2⟩ | ⟨⟨h1, h1', _⟩, h2⟩ <;>
    rw [h2] <;> simp only [payloadFrom, Af.absent, Bool.false_eq_true, if_false, if_true]
  · rw [if_neg (by omega)]
  · rw [h1]; rfl
  all_goals rw [if_pos (by omega), show 5 + (byteAt body 0).toNat - 4 = 1 + (byteAt body 0).toNat by omega]

theorem pcrNs_le (body : List Byte) : pcrNs body ≤ 95443717696703 := by
  have h : beNat ((body.drop 2).take 6) < 256 ^ 6 :=
    lt_of_lt_of_le (beNat_lt _) (Nat.pow_le_pow_right (by norm_num) (by simp))
  unfold pcrNs
  omega

/-- The PCR the framer decodes is `pcrNs` (43 R301). -/
theorem pcrToNs_pcrField (body : List Byte) :
    pcrToNs ((pcrField body).extractLsb' 15 33) ((pcrField body).extractLsb' 0 9) = BitVec.ofNat 64 (pcrNs body) := by
  have h : beNat ((body.drop 2).take 6) < 256 ^ 6 :=
    lt_of_lt_of_le (beNat_lt _) (Nat.pow_le_pow_right (by norm_num) (by simp))
  unfold pcrToNs pcrNs pcrField uwrap64 ticksToNs
  generalize beNat ((body.drop 2).take 6) = n at *
  simp only [BitVec.extractLsb'_toNat, BitVec.toNat_ofNat, Nat.shiftRight_eq_div_pow, Config.pcrMul, Config.nsNum,
    Config.nsDen]
  rw [Nat.mod_eq_of_lt (by omega : n < 2 ^ 48), Nat.mod_eq_of_lt (by omega : n / 2 ^ 15 < 2 ^ 33), Nat.pow_zero,
    Nat.div_one]
  norm_cast

/-- What AFDecode answers for a packet with a PCR. -/
theorem afDecode_of_hasPcr {body : List Byte} (h : HasPcr body) :
    (afDecode body).malformed = false ∧ (afDecode body).pcrPresent = true ∧ (afDecode body).rai = raiOf body ∧
      pcrToNs (afDecode body).base (afDecode body).ext = BitVec.ofNat 64 (pcrNs body) := by
  rcases afDecode_cases body with ⟨h1, _⟩ | ⟨h1, _⟩ | ⟨_, _, h1, _⟩ | ⟨_, h1, _, _⟩ | ⟨_, h1⟩
  · exact absurd h.2.1 (by omega)
  · exact absurd h.1 (by omega)
  · exact absurd h.2.2 (by rw [h1]; simp)
  · exact absurd h.1 (by omega)
  · rw [h1]; exact ⟨rfl, rfl, rfl, pcrToNs_pcrField body⟩

theorem afDecode_of_not_hasPcr {body : List Byte} (h : ¬ HasPcr body) : (afDecode body).pcrPresent = false := by
  rcases afDecode_cases body with ⟨_, h1⟩ | ⟨_, h1⟩ | ⟨_, _, _, h1⟩ | ⟨_, _, _, h1⟩ | ⟨h1, _⟩
  · rw [h1]; rfl
  · rw [h1]; rfl
  · rw [h1]; rfl
  · rw [h1]; rfl
  · exact absurd h1 h

/-! ## The section part of a packet -/

theorem afEvents_keeps (s : State) (af : Af) (p : Pid) : SectionKeeps p s (s.afEvents af) := by
  rcases afEvents_cases s af with ⟨_, h⟩ | ⟨_, h⟩ <;> rw [h]
  · exact .noteMalformed p s
  · exact .refl p s

@[simp] theorem afEvents_filter (s : State) (af : Af) (q : Pid) : (s.afEvents af).filter q = s.filter q := by
  rcases afEvents_cases s af with ⟨_, h⟩ | ⟨_, h⟩ <;> rw [h]; rfl

@[simp] theorem afEvents_mem (s : State) (af : Af) : (s.afEvents af).mem = s.mem := by
  rcases afEvents_cases s af with ⟨_, h⟩ | ⟨_, h⟩ <;> rw [h]; rfl

@[simp] theorem afEvents_flt (s : State) (af : Af) : (s.afEvents af).flt = s.flt := by
  rcases afEvents_cases s af with ⟨_, h⟩ | ⟨_, h⟩ <;> rw [h]; rfl

theorem sectionPart_keeps {s u : State} {p : Pid} {pusi : Bool} {payload : List Byte}
    (h : s.sectionPart p pusi payload = .ok u) : SectionKeeps p s u := by
  rcases sectionPart_cases h with ⟨_, _, h⟩ | rfl
  · exact State.sectionInput_keeps h
  · exact .refl p _

theorem sectionPart_completes {s : State} {p : Pid} (h : (s.filter p).ok) (pusi : Bool) (payload : List Byte) :
    ∃ u, s.sectionPart p pusi payload = .ok u ∧ (u.filter p).ok := by
  unfold State.sectionPart
  split
  · exact State.sectionInput_completes h _ _
  · exact ⟨s, rfl, h⟩

theorem received_ok {s : State} {p : Pid} (h : (s.filter p).ok) : ((s.received p).filter p).ok := by
  rw [received_filter, if_pos rfl]; exact h

/-- The section input stores only to the bytes of its own buffer from where the offer starts, one for each offered byte;
a dropped payload stores nothing. -/
theorem State.sectionInput_mem_frame {s u : State} {p : Pid} {pusi : Bool} {payload : List Byte}
    (h : s.sectionInput p pusi payload = .ok u) :
    (∀ a, ¬ (dataAddr p (offerStart pusi (s.filter p)) ≤ a ∧
        a < dataAddr p (offerStart pusi (s.filter p)) + (sectionOffer pusi payload).length) →
      u.mem.read a = s.mem.read a) ∧
    ((s.filter p).invalid = true ∨ (pusi = false ∧ (s.filter p).active = false) → u.mem = s.mem) := by
  unfold State.sectionInput at h
  dsimp only at h
  split at h
  · cases h; exact ⟨fun _ _ => rfl, fun _ => rfl⟩
  rename_i hi
  split at h
  · rename_i hp
    have hm : ∀ f, ((if (s.filter p).active = true then s.noteSecDiscard else s).setFilter p f).mem = s.mem := by
      intro f; split <;> rfl
    have hn : ¬ ((s.filter p).invalid = true ∨ (pusi = false ∧ (s.filter p).active = false)) := by
      simp [hp]; simpa using hi
    split at h
    · cases h; exact ⟨fun _ _ => by rw [State.noteMalformed_mem, hm], fun hh => absurd hh hn⟩
    · refine ⟨fun a ha => ?_, fun hh => absurd hh hn⟩
      rw [State.append_mem_frame h, hm]
      simp only [State.filter_setFilter_self, Filter.cleared]
      simpa [offerStart, sectionOffer, hp] using ha
  · rename_i hp
    split at h
    · rename_i ha
      refine ⟨fun a hb => State.append_mem_frame h ?_, fun hh => ?_⟩
      · simpa [offerStart, sectionOffer, hp] using hb
      · rcases hh with hh | ⟨_, hh⟩
        · exact absurd hh hi
        · rw [hh] at ha; cases ha
    · cases h; exact ⟨fun _ _ => rfl, fun _ => rfl⟩

/-! ## The canonical form of the filter table over the section path -/

theorem State.parsePat_flt_wf (s : State) (d : List Byte) (size : Nat) (h : fltWf s.flt = true) :
    fltWf (s.parsePat d size).flt = true := by
  unfold State.parsePat
  split <;> exact h

theorem pmtWalk_flt_wf (d : List Byte) (size fuel off : Nat) (s : State) (h : fltWf s.flt = true) :
    fltWf (pmtWalk d size fuel off s).flt = true := by
  induction fuel generalizing off s with
  | zero => exact h
  | succ n ih =>
    unfold pmtWalk
    split
    · refine ih _ _ ?_
      unfold State.pmtEntry
      dsimp only
      split
      · exact h
      · exact State.setFilter_fltWf _ _ _ h
    · exact h

theorem State.dispatch_flt_wf (s : State) (p : Pid) (h : fltWf s.flt = true) : fltWf (s.dispatch p).flt = true := by
  rw [State.dispatch_eq]
  refine State.setFilter_fltWf _ _ _ ?_
  unfold State.parsed
  dsimp only
  split
  · exact State.parsePat_flt_wf _ _ _ h
  · unfold State.parsePmt
    split
    · exact h
    · exact pmtWalk_flt_wf _ _ _ _ _ h

theorem State.appended_flt_wf (s : State) (p : Pid) (h : fltWf s.flt = true) : fltWf (s.appended p).flt = true := by
  rcases s.appended_cases p with ⟨_, _, ⟨_, e⟩ | ⟨_, _, e⟩ | ⟨_, _, e⟩⟩ | ⟨_, _, e⟩ | ⟨_, _, e⟩ <;> rw [e]
  · exact State.setFilter_fltWf _ _ _ (State.setFilter_fltWf _ _ _ h)
  · exact State.dispatch_flt_wf _ _ (State.setFilter_fltWf _ _ _ h)
  · exact State.setFilter_fltWf _ _ _ h
  · exact State.dispatch_flt_wf _ _ h
  · exact h

theorem State.append_flt_wf {s t : State} {p : Pid} {xs : List Byte} (h : s.append p xs = .ok t)
    (hw : fltWf s.flt = true) : fltWf t.flt = true := by
  induction xs generalizing s with
  | nil => cases h; exact hw
  | cons x xs ih =>
    unfold State.append at h
    split at h
    · split at h
      · rename_i s1 hs
        obtain ⟨_, rfl⟩ := State.appendByte_cases hs
        exact ih h (State.appended_flt_wf _ _ (State.setFilter_fltWf _ _ _ hw))
      · cases h
    · cases h; exact hw

/-- Appending two pieces one after the other is appending them joined. -/
theorem State.append_append (s : State) (p : Pid) (x y : List Byte) :
    s.append p (x ++ y) =
      match s.append p x with
      | .ok t => t.append p y
      | .error e => .error e := by
  induction x generalizing s with
  | nil => rfl
  | cons b x ih =>
    by_cases ha : (s.filter p).active = true
    · simp only [List.cons_append, State.append, ha, if_true]
      cases s.appendByte p b with
      | ok s1 => exact ih s1
      | error e => rfl
    · have ha : (s.filter p).active = false := by simpa using ha
      rw [State.append_inactive ha, State.append_inactive ha]
      exact (State.append_inactive ha y).symm

theorem State.sectionInput_wf {s t : State} {p : Pid} {pusi : Bool} {payload : List Byte}
    (h : s.sectionInput p pusi payload = .ok t) (hw : s.TablesWf) : t.TablesWf := by
  unfold State.sectionInput at h
  dsimp only at h
  split at h
  · cases h; exact hw
  split at h
  · have h1 : ∀ f, ((if (s.filter p).active = true then s.noteSecDiscard else s).setFilter p f).TablesWf := by
      intro f
      split
      · exact ⟨hw.1, State.setFilter_fltWf _ _ _ hw.2⟩
      · exact ⟨hw.1, State.setFilter_fltWf _ _ _ hw.2⟩
    split at h
    · cases h; exact h1 _
    · exact ⟨State.append_mem_wf h (h1 _).1, State.append_flt_wf h (h1 _).2⟩
  · split at h
    · exact ⟨State.append_mem_wf h hw.1, State.append_flt_wf h hw.2⟩
    · cases h; exact hw

/-! ## The packet classes -/

/-- A packet class with operands comes to: the shared prologue and the adaptation field's event (`v`), the section part
(`u`), the PCR part. -/
theorem exec_packet_cases {s t : State} {hdr : TsHdr} {body : List Byte} {i : Instr}
    (hi : i = .tsAfPayload hdr body ∨ i = .tsPayload hdr body ∨ i = .tsAfOnly hdr body) (h : exec i s = .next t) :
    ∃ af payload v u, SectionKeeps hdr.pid (s.received hdr.pid) v ∧ v.mem = s.mem ∧ v.flt = (s.received hdr.pid).flt ∧
      v.sectionPart hdr.pid hdr.pusi payload = .ok u ∧ t = u.trackPcr af s.dmx.regs.offset ∧
      (i = .tsAfOnly hdr body → payload = []) := by
  rcases hi with rfl | rfl | rfl
  · obtain ⟨u, hu, ht⟩ := process_cases h
    exact ⟨_, _, _, u, afEvents_keeps _ _ _, by simp, by simp, hu, ht, by simp⟩
  · obtain ⟨u, hu, ht⟩ := process_cases h
    exact ⟨_, _, _, u, .refl _ _, by simp, rfl, hu, ht, by simp⟩
  · simp only [exec, execTsAfOnly] at h
    obtain ⟨u, hu, ht⟩ := process_cases h
    exact ⟨_, _, _, u, afEvents_keeps _ _ _, by simp, by simp, hu, ht, fun _ => rfl⟩

/-- The two classes with a payload complete where the filter of their PID meets 42 R272; the others always. -/
theorem exec_packet_completes {s : State} {hdr : TsHdr} {body : List Byte} {i : Instr}
    (hi : i = .tsAfPayload hdr body ∨ i = .tsPayload hdr body ∨ i = .tsAfOnly hdr body) (hok : (s.filter hdr.pid).ok) :
    Completes (exec i s) := by
  rcases hi with rfl | rfl | rfl
  · obtain ⟨u, hu, _⟩ := sectionPart_completes
      (s := (s.received hdr.pid).afEvents (afDecode body)) (p := hdr.pid) (by simpa using received_ok hok) hdr.pusi
      (if (afDecode body).afOk then payloadFrom (afDecode body).ps body else [])
    exact ⟨_, by simp only [exec, execTsAfPayload, State.process, hu, finish]; rfl⟩
  · obtain ⟨u, hu, _⟩ := sectionPart_completes (received_ok hok) hdr.pusi body
    exact ⟨_, by simp only [exec, execTsPayload, State.process, hu, finish]; rfl⟩
  · exact ⟨_, by simp only [exec, execTsAfOnly, State.process, sectionPart_nil, finish]; rfl⟩

/-- What every packet leaves alone, whatever its class. -/
structure PacketKeeps (s t : State) : Prop where
  hw : t.hw = s.hw
  cmdStatus : t.cmdStatus = s.cmdStatus
  irqEnable : t.irqEnable = s.irqEnable
  ch : t.ch = s.ch
  env : t.env = s.env
  events : s.irqEvents &&& ~~~t.irqEvents = 0#10
  config : t.dmx.config = s.dmx.config
  fltSel : t.dmx.fltSel = s.dmx.fltSel
  fltLenPos : t.dmx.fltLenPos = s.dmx.fltLenPos
  fltLenSize : t.dmx.fltLenSize = s.dmx.fltLenSize
  shadow : t.dmx.shadow = s.dmx.shadow
  syncPolicyL : t.dmx.syncPolicyL = s.dmx.syncPolicyL
  keyframeModeL : t.dmx.keyframeModeL = s.dmx.keyframeModeL
  truncBytes : t.dmx.truncBytes = s.dmx.truncBytes

theorem PacketKeeps.of_parts {s u t : State} {p : Pid} (h1 : SectionKeeps p (s.received p) u) (h2 : PcrKeeps u t) :
    PacketKeeps s t where
  hw := by rw [h2.hw, h1.hw, received_hw]
  cmdStatus := by rw [h2.cmdStatus, h1.cmdStatus, received_cmdStatus]
  irqEnable := by rw [h2.irqEnable, h1.irqEnable, received_irqEnable]
  ch := by rw [h2.ch, h1.ch, received_ch]
  env := by rw [h2.env, h1.env, received_env]
  events := by
    have := h1.events
    rw [received_irqEvents] at this
    refine events_trans this ?_
    rcases h2.irqEvents with h | h <;> rw [h]
    · simp
    · exact events_raised _ _
  config := by rw [h2.dmx, h1.dmx, received_dmx]; rfl
  fltSel := by rw [h2.dmx, h1.dmx, received_dmx]; rfl
  fltLenPos := by rw [h2.dmx, h1.dmx, received_dmx]; rfl
  fltLenSize := by rw [h2.dmx, h1.dmx, received_dmx]; rfl
  shadow := by rw [h2.dmx, h1.dmx, received_dmx]; rfl
  syncPolicyL := by rw [h2.dmx, h1.dmx, received_dmx]; rfl
  keyframeModeL := by rw [h2.dmx, h1.dmx, received_dmx]; rfl
  truncBytes := by rw [h2.dmx, h1.dmx, received_dmx]; rfl

theorem exec_packet_keeps {s t : State} {hdr : TsHdr} {body : List Byte} {i : Instr}
    (hi : i = .tsAfPayload hdr body ∨ i = .tsPayload hdr body ∨ i = .tsAfOnly hdr body) (h : exec i s = .next t) :
    PacketKeeps s t := by
  obtain ⟨af, payload, v, u, hv, _, _, hu, rfl, _⟩ := exec_packet_cases hi h
  exact .of_parts (hv.trans (sectionPart_keeps hu)) (trackPcr_keeps _ _ _)

end Sys2Proof.Machine
end

