-- ==== Sys2Proof/Laws/Assembly.lean ====
section
/-! SUPPORT. Append, said once: what becomes of the bytes offered to a filter with a section in progress
(`SectionOutcome`), and that the parsers do not see where in the tables their section stood. -/

namespace Sys2Proof.Machine

/-! ## The parsers see of the filters only CODEC, and of the counters not DMX_SEC_DONE -/

/-- `v` is `s` but for the buffers, what a filter holds beside CODEC, DMX_SEC_DONE, which is `w`, and the event bits `e`,
which are set besides. -/
structure ParserView (w : Word) (e : BitVec 10) (s v : State) : Prop where
  codec : ∀ q, (v.filter q).codec = (s.filter q).codec
  eq : v = { s with
    flt := v.flt
    mem := v.mem
    dmx := { s.dmx with secDone := w }
    irqEvents := s.irqEvents ||| e }

namespace ParserView

variable {w : Word} {e : BitVec 10} {s v : State}

theorem hw (h : ParserView w e s v) : v.hw = s.hw := by rw [h.eq]
theorem dmx (h : ParserView w e s v) : v.dmx = { s.dmx with secDone := w } := by rw [h.eq]

/-- The same change of the DMX registers on both sides, DMX_SEC_DONE apart. -/
theorem setDmx (h : ParserView w e s v) {d d' : Dmx} (hd : d' = { d with secDone := w }) :
    ParserView w e (s.setDmx d) (v.setDmx d') where
  codec := h.codec
  eq := by rw [h.eq, hd]; rfl

/-- The same event raised on both sides. -/
theorem raise (h : ParserView w e s v) (x : IrqEvent) : ParserView w e (s.raise x) (v.raise x) where
  codec := h.codec
  eq := by
    rw [h.eq]
    simp only [State.raise, BitVec.or_assoc, BitVec.or_comm e]

/-- The same CODEC given to the same filter on both sides. -/
theorem setCodec (h : ParserView w e s v) (q : Pid) (c : Codec) :
    ParserView w e (s.setFilter q { s.filter q with codec := c }) (v.setFilter q { v.filter q with codec := c }) where
  codec r := by by_cases hr : r = q <;> simp [State.filter_setFilter, hr, h.codec]
  eq := by rw [h.eq]; rfl

theorem parsePat (h : ParserView w e s v) (d : List Byte) (size : Nat) :
    ParserView w e (s.parsePat d size) (v.parsePat d size) := by
  unfold State.parsePat
  split
  · exact h.setDmx (by rw [h.dmx])
  · exact h

theorem pmtEntry (h : ParserView w e s v) (st : Byte) (epid : Pid) :
    ParserView w e (s.pmtEntry st epid) (v.pmtEntry st epid) := by
  unfold State.pmtEntry
  rw [h.hw]
  dsimp only
  split
  · exact (h.setDmx (by rw [h.dmx])).raise .unkStype
  · exact h.setCodec epid _

theorem pmtWalk (d : List Byte) (size fuel off : Nat) (h : ParserView w e s v) :
    ParserView w e (Machine.pmtWalk d size fuel off s) (Machine.pmtWalk d size fuel off v) := by
  induction fuel generalizing off s v with
  | zero => exact h
  | succ n ih =>
    unfold Machine.pmtWalk
    split
    · exact ih _ (h.pmtEntry _ _)
    · exact h

theorem parsePmt (h : ParserView w e s v) (d : List Byte) (size : Nat) :
    ParserView w e (s.parsePmt d size) (v.parsePmt d size) := by
  unfold State.parsePmt
  split
  · exact (h.setDmx (by rw [h.dmx])).raise .malformed
  · exact .pmtWalk d size _ _ (h.setDmx (by rw [h.dmx]))

end ParserView

/-! ## The bytes of a section in progress -/

@[simp] theorem State.sectionBytes_length (s : State) (p : Pid) (n : Nat) : (s.sectionBytes p n).length = n := by
  simp [State.sectionBytes]

theorem State.byteAt_sectionBytes (s : State) (p : Pid) {i n : Nat} (h : i < n) :
    byteAt (s.sectionBytes p n) i = s.data p i := by
  simp [byteAt, State.sectionBytes, h]

theorem byteAt_append_left {x y : List Byte} {i : Nat} (h : i < x.length) : byteAt (x ++ y) i = byteAt x i := by
  simp [byteAt, List.getElem?_append_left h]

/-- The stored byte is the last of the section so far. -/
theorem State.stored_sectionBytes {s : State} {p : Pid} (h : (s.filter p).pos.toNat < 4096) (x : Byte) :
    (s.stored p x).sectionBytes p ((s.filter p).pos.toNat + 1) =
      s.sectionBytes p (s.filter p).pos.toNat ++ [x] := by
  have hself : (s.stored p x).data p (s.filter p).pos.toNat = x := by simp [State.data]
  have hlow : ∀ i ∈ List.range (s.filter p).pos.toNat, (s.stored p x).data p i = s.data p i := by
    intro i hi
    rw [List.mem_range] at hi
    simp only [State.data, State.stored_mem]
    exact Memory.read_write_ne _ (fun e => by have := (dataAddr_inj (by omega) h e).2; omega) _
  rw [State.sectionBytes, List.range_succ, List.map_append, List.map_congr_left hlow]
  simp [State.sectionBytes, hself]

/-! ## Append -/

/-- `v` is `s` with a section in progress on `p`: only the buffers and FLT[p].ACTIVE, POS and SIZE may differ. -/
structure InProgress (s v : State) (p : Pid) : Prop where
  eq : v = { s with flt := v.flt, mem := v.mem }
  others : ∀ q, q ≠ p → v.filter q = s.filter q
  own : v.filter p = { s.filter p with active := true, pos := (v.filter p).pos, size := (v.filter p).size }

/-- Dispatch of a section that is complete in `v`. -/
theorem InProgress.dispatch {s v : State} {p : Pid} (h : InProgress s v p) :
    let size := (v.filter p).size.toNat
    let d := v.sectionBytes p size
    let u := if p = 0#13 then s.parsePat d size else s.parsePmt d size
    (∀ q, (v.dispatch p).filter q =
      if q = p then { u.filter p with active := false, pos := 0#13, size := 0#13 } else u.filter q) ∧
    v.dispatch p = { u with
      flt := (v.dispatch p).flt
      mem := (v.dispatch p).mem
      dmx := { u.dmx with secDone := s.dmx.secDone + 1#32 }
      irqEvents := u.irqEvents ||| 0x100#10 } := by
  intro size d u
  have hcodec : ∀ q, (v.filter q).codec = (s.filter q).codec := by
    intro q
    by_cases hq : q = p
    · rw [hq, h.own]
    · rw [h.others q hq]
  have hnote : ParserView (s.dmx.secDone + 1#32) 0x100#10 s v.noteTable :=
    ⟨hcodec, by rw [h.eq]; rfl⟩
  have hview : ParserView (s.dmx.secDone + 1#32) 0x100#10 u (v.parsed p) := by
    show ParserView _ _ (if _ then _ else _) (if _ then _ else _)
    split
    · exact hnote.parsePat d size
    · exact hnote.parsePmt d size
  have hu : ∀ q, u.filter q = { s.filter q with codec := (u.filter q).codec } := by
    intro q
    dsimp only [u]
    split
    · exact (s.parsePat_parser d size).filter q
    · exact (s.parsePmt_parser d size).filter q
  have hv : ∀ q, (v.parsed p).filter q = { v.filter q with codec := (u.filter q).codec } := by
    intro q
    rw [(v.parsed_parser p).filter q, hview.codec q]
    rfl
  refine ⟨fun q => ?_, ?_⟩
  · rw [State.dispatch_eq, State.filter_setFilter]
    split
    · rw [hv p, hu p, h.own]
    · rw [hv q, hu q, h.others q ‹_›]
  · rw [State.dispatch_eq, State.setFilter, hview.eq]

/-- The third byte fixes the size that 30_encoding.md R141 gives. -/
theorem State.sizeOf3_sectionBytes (s : State) (p : Pid) {n : Nat} (h : 3 ≤ n) (y : List Byte) :
    sizeOf3 (s.sectionBytes p n ++ y) = (sectionSize (s.data p 1) (s.data p 2)).toNat := by
  rw [sizeOf3, byteAt_append_left (by simp; omega), byteAt_append_left (by simp; omega),
    s.byteAt_sectionBytes p (by omega), s.byteAt_sectionBytes p (by omega), sectionSize_toNat, len12_toNat]

/-- A section in progress whose bytes are all appended meets its outcome: it goes on. -/
theorem InProgress.outcome {s v : State} {p : Pid} (h : InProgress s v p) (hok : (v.filter p).ok) :
    SectionOutcome s v p (v.sectionBytes p (v.filter p).pos.toNat)
      (if (v.filter p).size = 0#13 then sizeOf3 (v.sectionBytes p (v.filter p).pos.toNat)
        else (v.filter p).size.toNat) := by
  have hact : (v.filter p).active = true := by rw [h.own]
  obtain ⟨_, _, hc, hd, _⟩ := hok
  by_cases hz : (v.filter p).size = 0#13
  · have hpos := hc ⟨hact, hz⟩
    refine ⟨fun _ => ⟨fun q => ?_, h.eq, ?_⟩, fun hl => ?_, fun hl => ?_⟩
    · split
      · subst_vars
        rw [State.sectionBytes_length, if_pos (by omega), h.own]
        simp [hz]
      · exact h.others q ‹_›
    · rw [State.sectionBytes_length]
    · rw [State.sectionBytes_length] at hl; omega
    · rw [State.sectionBytes_length] at hl; omega
  · obtain ⟨⟨hs1, hs2⟩, hp1, hp2⟩ := hd ⟨hact, hz⟩
    rw [if_neg hz]
    refine ⟨fun _ => ⟨fun q => ?_, h.eq, ?_⟩, fun _ hl => ?_, fun _ _ hl => ?_⟩
    · split
      · subst_vars
        rw [State.sectionBytes_length, if_neg (by omega), h.own]
        simp
      · exact h.others q ‹_›
    · rw [State.sectionBytes_length]
    · omega
    · rw [State.sectionBytes_length] at hl; omega

/-- A section in progress becomes an overflow once its size is known to be above 4096. -/
theorem InProgress.overflow_outcome {s v : State} {p : Pid} (h : InProgress s v p) (hpos : (v.filter p).pos = 3#13)
    (hsize : 4096 < (v.filter p).size.toNat) {held : List Byte} (hl : 3 ≤ held.length) :
    SectionOutcome s (v.overflow p) p held (v.filter p).size.toNat := by
  refine ⟨fun hh => by omega, fun _ _ => ⟨fun q => ?_, ?_⟩, fun _ hh => by omega⟩
  · simp only [State.overflow, State.noteSecOvf, State.raise_filter, State.setDmx_filter, State.filter_setFilter]
    split
    · rw [h.own, hpos]; simp
    · exact h.others q ‹_›
  · rw [State.overflow, h.eq]; rfl

/-- A section in progress is dispatched once its bytes reach its size. -/
theorem InProgress.dispatch_outcome {s v : State} {p : Pid} (h : InProgress s v p)
    (hsize : 3 ≤ (v.filter p).size.toNat ∧ (v.filter p).size.toNat ≤ 4096) (y : List Byte) :
    SectionOutcome s (v.dispatch p) p (v.sectionBytes p (v.filter p).size.toNat ++ y) (v.filter p).size.toNat := by
  have hl : (v.sectionBytes p (v.filter p).size.toNat ++ y).length = (v.filter p).size.toNat + y.length := by simp
  have ht : (v.sectionBytes p (v.filter p).size.toNat ++ y).take (v.filter p).size.toNat =
      v.sectionBytes p (v.filter p).size.toNat := by
    rw [List.take_append_of_le_length (by simp), List.take_of_length_le (by simp)]
  refine ⟨fun hh => ?_, fun _ hh => by omega, fun _ _ _ => ?_⟩
  · omega
  · rw [ht]; exact h.dispatch

/-- Append on a filter with a section in progress, said once: it answers, and the bytes held and offered meet
`SectionOutcome`. -/
theorem State.append_outcome {s v : State} {p : Pid} {x : List Byte} (h : InProgress s v p)
    (hok : (v.filter p).ok) :
    let held := v.sectionBytes p (v.filter p).pos.toNat ++ x
    let size := if (v.filter p).size = 0#13 then sizeOf3 held else (v.filter p).size.toNat
    ∃ t, v.append p x = .ok t ∧ SectionOutcome s t p held size := by
  induction x generalizing v with
  | nil =>
    simp only [List.append_nil]
    exact ⟨v, rfl, h.outcome hok⟩
  | cons y xs ih =>
    intro held size
    have hact : (v.filter p).active = true := by rw [h.own]
    have hlt := hok.pos_lt hact
    have hb := State.appendByte_of_lt hlt y
    have hok' := State.appendByte_ok hok hact hb
    have hstep : v.append p (y :: xs) = ((v.stored p y).appended p).append p xs := by simp [State.append, hact, hb]
    have hheld : held = (v.stored p y).sectionBytes p ((v.filter p).pos.toNat + 1) ++ xs := by
      rw [State.stored_sectionBytes hlt]; simp [held]
    have hf := v.stored_filter p y
    have hpos : ((v.filter p).pos + 1#13).toNat = (v.filter p).pos.toNat + 1 := by
      rw [BitVec.toNat_add]; simp; omega
    have hu : InProgress s (v.stored p y) p :=
      ⟨by rw [h.eq]; rfl, fun q hq => by rw [State.stored, State.filter_setFilter_ne _ hq]; exact h.others q hq,
        by rw [hf]; conv_lhs => rw [h.own]⟩
    rw [hstep]
    generalize hg : v.stored p y = u at *
    rcases u.appended_cases p with ⟨h1, h2, h3⟩ | ⟨h1, h2, h3⟩ | ⟨h1, h2, h3⟩
    · rw [hf] at h1 h2 h3
      simp only at h1 h2 h3
      have hp3 : (v.filter p).pos.toNat + 1 = 3 := by rw [← hpos, h2]; rfl
      have hsz : size = (sectionSize (u.data p 1) (u.data p 2)).toNat := by
        show (if _ then _ else _) = _
        rw [if_pos h1, hheld, hp3, u.sizeOf3_sectionBytes p (Nat.le_refl 3)]
      rw [hp3] at hheld
      generalize sectionSize (u.data p 1) (u.data p 2) = n at h3 hsz
      have h3le : 3 ≤ size := by
        show 3 ≤ (if _ then _ else _)
        rw [if_pos h1]; exact Nat.le_add_right 3 _
      have hw : InProgress s (u.setFilter p { v.filter p with pos := (v.filter p).pos + 1#13, size := n }) p :=
        ⟨by rw [hu.eq]; rfl, fun q hq => by rw [State.filter_setFilter_ne _ hq]; exact hu.others q hq,
          by rw [State.filter_setFilter_self]; conv_lhs => rw [h.own]⟩
      generalize hwg : u.setFilter p { v.filter p with pos := (v.filter p).pos + 1#13, size := n } = w at h3 hw
      have hwf : w.filter p = { v.filter p with pos := (v.filter p).pos + 1#13, size := n } := by rw [← hwg]; simp
      have hwb : w.sectionBytes p 3 = u.sectionBytes p 3 := by rw [← hwg]; rfl
      rcases h3 with ⟨h4, h5⟩ | ⟨h4, h4', h5⟩ | ⟨h4, h4', h5⟩ <;> rw [h5] at hok' ⊢
      · refine ⟨w.overflow p, State.append_inactive (by simp) xs, ?_⟩
        have := hw.overflow_outcome (by rw [hwf]; exact h2) (by rw [hwf]; exact h4) (held := held)
          (by rw [hheld]; simp)
        rwa [hwf, ← hsz] at this
      · refine ⟨w.dispatch p, State.append_inactive (by rw [State.dispatch_filter]) xs, ?_⟩
        have := hw.dispatch_outcome (by rw [hwf]; exact ⟨hsz ▸ h3le, h4⟩) xs
        rw [hwf] at this
        simp only [← hsz] at this
        have h3' : size = 3 := by rw [hsz, ← h4']; rfl
        rwa [h3', hwb, ← hheld, ← h3'] at this
      · have := ih hw hok'
        rw [hwf] at this
        simp only [hpos, hp3, hwb, ← hheld] at this
        rw [if_neg (by rintro rfl; simp at hsz; omega), ← hsz] at this
        exact this
    · rw [hf] at h1 h2
      simp only at h1 h2
      rw [h3] at hok' ⊢
      refine ⟨u.dispatch p, State.append_inactive (by rw [State.dispatch_filter]) xs, ?_⟩
      have hsz : size = (v.filter p).size.toNat := if_neg h1
      have hr : 3 ≤ (v.filter p).size.toNat ∧ (v.filter p).size.toNat ≤ 4096 :=
        (hok.2.2.2.1 ⟨hact, h1⟩).1
      have := hu.dispatch_outcome (by rw [hf]; exact hr) xs
      rw [hf] at this
      simp only [← hsz] at this
      rw [show (v.filter p).pos.toNat + 1 = size by rw [hsz, ← hpos, h2]] at hheld
      rwa [hheld]
    · rw [h3] at hok' ⊢
      have := ih hu hok'
      rw [hf] at this
      simp only [hpos, ← hheld] at this
      exact this

end Sys2Proof.Machine
end

