-- ==== Sys2Proof/Laws/PerInstr.lean ====
section
/-! SUPPORT. Statements made instruction by instruction: the shape of each encoding. -/

namespace Sys2Proof.Laws

/-- A well-formed instruction is stored as one command word with its reserved bits 0 (30_encoding.md R130) or as 188 bytes
(30_encoding.md R134). -/
def EncodeShape.Statement (i : Instr) : Prop :=
  i.wf = true →
    (∃ w, encode i = .command w ∧ cmdReservedZero w = true) ∨ (∃ b, encode i = .packet b ∧ b.length = 188)

theorem reservedZero_cmdWord (opcode : Byte) (chan : Chan) (pid : Pid) :
    cmdReservedZero (cmdWord opcode chan pid) = true := by
  simp only [cmdReservedZero, cmdWord, Bool.and_eq_true, beq_iff_eq, BitVec.cast_eq]
  constructor
  · apply BitVec.eq_of_getLsbD_eq
    intro i hi
    simp only [BitVec.getLsbD_extractLsb', BitVec.getLsbD_append]
    simp [hi, show ¬ 12 + i < 8 by omega, show ¬ 12 + i - 8 < 4 by omega, show 12 + i - 8 - 4 < 4 by omega]
  · apply BitVec.eq_of_getLsbD_eq
    intro i hi
    simp only [BitVec.getLsbD_extractLsb', BitVec.getLsbD_append]
    simp [hi, show ¬ 29 + i < 8 by omega, show ¬ 29 + i - 8 < 4 by omega, show ¬ 29 + i - 8 - 4 < 4 by omega,
      show ¬ 29 + i - 8 - 4 - 4 < 13 by omega]

theorem length_packetBytes (afc : BitVec 2) (f : TsHdr) (body : List Byte) :
    (packetBytes afc f body).length = 4 + body.length := by
  simp [packetBytes, toBytesBE]; omega

theorem encodeShape_of_command {i : Instr} (opcode : Byte) (chan : Chan) (pid : Pid)
    (h : encode i = .command (cmdWord opcode chan pid)) : EncodeShape.Statement i :=
  fun _ => .inl ⟨_, h, reservedZero_cmdWord _ _ _⟩

theorem encodeShape_of_packet {i : Instr} (afc : BitVec 2) (f : TsHdr) (body : List Byte)
    (h : encode i = .packet (packetBytes afc f body)) (hw : i.wf = (body.length == Config.pktSize - 4)) :
    EncodeShape.Statement i := by
  intro hi
  rw [hw] at hi
  refine .inr ⟨_, h, ?_⟩
  rw [length_packetBytes]
  have : body.length = 184 := by simpa [Config.pktSize] using hi
  omega

theorem EncodeShape.nop : EncodeShape.Statement .nop := encodeShape_of_command _ _ _ rfl
theorem EncodeShape.dmxStart : EncodeShape.Statement .dmxStart := encodeShape_of_command _ _ _ rfl
theorem EncodeShape.dmxStop : EncodeShape.Statement .dmxStop := encodeShape_of_command _ _ _ rfl
theorem EncodeShape.fltReset (pid : Pid) : EncodeShape.Statement (.fltReset pid) := encodeShape_of_command _ _ _ rfl
theorem EncodeShape.dlvStart (chan : Chan) : EncodeShape.Statement (.dlvStart chan) := encodeShape_of_command _ _ _ rfl
theorem EncodeShape.dlvStop (chan : Chan) : EncodeShape.Statement (.dlvStop chan) := encodeShape_of_command _ _ _ rfl
theorem EncodeShape.tsAfPayload (hdr : TsHdr) (body : List Byte) : EncodeShape.Statement (.tsAfPayload hdr body) :=
  encodeShape_of_packet _ _ _ rfl rfl
theorem EncodeShape.tsPayload (hdr : TsHdr) (body : List Byte) : EncodeShape.Statement (.tsPayload hdr body) :=
  encodeShape_of_packet _ _ _ rfl rfl
theorem EncodeShape.tsAfOnly (hdr : TsHdr) (body : List Byte) : EncodeShape.Statement (.tsAfOnly hdr body) :=
  encodeShape_of_packet _ _ _ rfl rfl
theorem EncodeShape.tsAfcReserved (hdr : TsHdr) (body : List Byte) : EncodeShape.Statement (.tsAfcReserved hdr body) :=
  encodeShape_of_packet _ _ _ rfl rfl
theorem EncodeShape.tsSyncFault (sync : Byte) (rest : List Byte) : EncodeShape.Statement (.tsSyncFault sync rest) := by
  intro h
  refine .inr ⟨_, rfl, ?_⟩
  simp [Instr.wf, Config.pktSize] at h
  simp [h.2]

end Sys2Proof.Laws
end

