-- ==== Sys2Proof/Machine/HostProgram.lean ====
section
/-! DEFINITION. The host program syntax of 30_encoding.md R156 and the expansions of its pseudo-instructions (R157), as
scheduled host accesses. -/

namespace Sys2Proof.Machine

/-- A statement of a host program; a register name stands for its offset (`Reg.offset`). -/
inductive HostStmt where
  | wr32 (off : BitVec 12) (v : Word)
  | rd32 (off : BitVec 12)
  /-- `cmd <MNEMONIC> [pid=<n>] [ch=<n>]`, the mnemonic by its OPCODE -/
  | cmd (opcode : Byte) (pid : Pid) (ch : Chan)
  /-- `rd64 X`, given the offset of X_LO -/
  | rd64 (lo : BitVec 12)
  /-- `poll`, with how many reads this run takes (log entry 21) -/
  | poll (off : BitVec 12) (mask value : Word) (reads : Nat)
  | ack (mask : Word)
deriving DecidableEq, Repr

/-- The bus accesses a statement performs. -/
def HostStmt.accesses : HostStmt → List Action
  | .wr32 off v => [.hostWrite off 4 v]
  | .rd32 off => [.hostRead off 4]
  | .cmd opcode pid ch => [.hostWrite 0x004#12 4 (cmdWord opcode ch pid)]
  | .rd64 lo => [.hostRead lo 4, .hostRead (lo + 4#12) 4]
  | .poll off _ _ reads => List.replicate reads (.hostRead off 4)
  | .ack mask => [.hostWrite 0x00C#12 4 mask]

/-- The result of `rd64` from its two reads: HI << 32 | LO (R157). -/
def rd64Result (lo hi : Word) : DWord := hi ++ lo

/-- A read ends a `poll`: (result AND mask) = value (R157). -/
def pollEnds (mask value result : Word) : Bool := result &&& mask == value

end Sys2Proof.Machine
end

