-- ==== Sys2Proof/Tests/Slice0.lean ====
section
/-! SUPPORT. Tests and witnesses. A test's expected value comes from spec/95_test_vectors.md (its V, W and P parts) or from
the rule it names. A witness shows values that meet every hypothesis of the obligation it is named after. -/

namespace Sys2Proof.Tests

open Sys2Proof.Machine

/-! ## Helpers -/

/-- The next state, or the reset state where there is none. -/
def after : Host.Outcome State Fault Refusal → State
  | .next t => t
  | .fault _ => State.reset
  | .refused _ => State.reset

/-- There is a next state. -/
def completes : Host.Outcome State Fault Refusal → Bool
  | .next _ => true
  | .fault _ => false
  | .refused _ => false

/-- The outcome is this refusal. -/
def refusedWith (o : Host.Outcome State Fault Refusal) (r : Refusal) : Bool :=
  match o with
  | .refused q => q == r
  | .next _ => false
  | .fault _ => false

/-- Bytes given as numbers. -/
def bytes (l : List Nat) : List Byte := l.map (BitVec.ofNat 8)

/-- `n` bytes of 0xFF. -/
def ff (n : Nat) : List Byte := List.replicate n 0xFF#8

/-- The PAT of W3. -/
def pat20 : List Byte :=
  bytes [0x00, 0xB0, 0x11, 0x00, 0x01, 0xC1, 0x00, 0x00, 0x00, 0x00, 0xE0, 0x10, 0x00, 0x07, 0xF0, 0x00,
    0xDE, 0xAD, 0xBE, 0xEF]

/-- The PMT of W4. -/
def pmt31 : List Byte :=
  bytes [0x02, 0xB0, 0x1C, 0x00, 0x07, 0xC1, 0x00, 0x00, 0xE1, 0x00, 0xF0, 0x00, 0x1B, 0xE1, 0x00, 0xF0, 0x00,
    0x0F, 0xE1, 0x01, 0xF0, 0x00, 0x99, 0xE1, 0x02, 0xF0, 0x00, 0xCA, 0xFE, 0xF0, 0x0D]

/-- The body of a TS_AF_ONLY packet with field length `l`, flags `flags` and the PCR bytes `pcr`. -/
def afBody (l flags : Nat) (pcr : List Nat) : List Byte := bytes (l :: flags :: pcr) ++ ff (182 - pcr.length)

/-- A header on `pid`. -/
def hdr (pid : Nat) (pusi : Bool) : TsHdr := ⟨false, pusi, false, BitVec.ofNat 13 pid, 0#2, 0#4⟩

/-- DMX running since DMX_START, nothing read yet. -/
def running : State := { State.reset with dmx := { Dmx.reset with phase := .run } }

/-- `running` with PCRs seen: the last one at 1 s, offset 0, the next packet at `off`, a duration and a trusted delta. -/
def clocked (off : DWord) (dur last : DWord) : State :=
  { running with dmx := { running.dmx with
      pcrSeen := true
      regs := { running.dmx.regs with
        offset := off, pcrBaseNs := 1000000000#64, pcrPrevNs := 1000000000#64, durationNs := dur,
        lastDeltaNs := last } } }

/-- A record. -/
def aRecord : IdxRecord := ⟨376#64, 10000000000#64, 0#64, true⟩

/-- DMX over, with an untaken record. -/
def latchFull : State :=
  { State.reset with dmx := { Dmx.reset with phase := .done, term := .endOfSource, pcrSeen := true, idxL := some aRecord } }

/-- A channel in the given phase, its epoch captured, with `n` bytes read ahead and `chunks` chunks sent. -/
def chan (phase : DlvPhase) (n : Nat) (chunks : DWord) : Channel :=
  { Channel.reset with
    phase := phase, epochValid := true, ra := List.replicate n 0x47#8
    regs := { Channel.reset.regs with chunks := chunks, bytes := 1316#64 * chunks } }

/-- The reset state with channel 0 replaced and `WALL_NS` set. -/
def withChan (k : Channel) (wall : DWord) : State :=
  { State.reset with ch := [k, Channel.reset], env := { Env.initial with wallNs := wall } }

/-- The state with one scheduled step. -/
def sched (s : State) (a : Action) : State := s.setSched [a]

/-- A filter in which an incomplete section of `size` bytes stands at `pos`. -/
def midSection (pos size : Nat) : Filter :=
  { Filter.reset with seen := true, active := true, pos := BitVec.ofNat 13 pos, size := BitVec.ofNat 13 size }

/-- An overflowed filter (42 R265). -/
def overflowed : Filter := { Filter.reset with seen := true, invalid := true, pos := 3#13, size := 4098#13 }

/-! ## WellFormed: each check refuses an ill-formed term -/

theorem test_wf_tsAfPayload : (Instr.tsAfPayload (hdr 0 false) (ff 183)).wf = false := by decide +kernel
theorem test_wf_tsPayload : (Instr.tsPayload (hdr 0 false) (ff 185)).wf = false := by decide +kernel
theorem test_wf_tsAfOnly : (Instr.tsAfOnly (hdr 0 false) []).wf = false := by decide
theorem test_wf_tsAfcReserved : (Instr.tsAfcReserved (hdr 0 false) (ff 188)).wf = false := by decide +kernel
theorem test_wf_tsSyncFault_sync : (Instr.tsSyncFault 0x47#8 (ff 187)).wf = false := by decide
theorem test_wf_tsSyncFault_length : (Instr.tsSyncFault 0x00#8 (ff 188)).wf = false := by decide +kernel

/-! ## Decoding: the words of V1 and V2, written out, one or more for each constructor -/

theorem test_decode_nop : decodeCommand 0x00000000#32 = .ok .nop := by decide
theorem test_decode_dmxStart : decodeCommand 0x00000001#32 = .ok .dmxStart := by decide
theorem test_decode_dmxStop : decodeCommand 0x00000002#32 = .ok .dmxStop := by decide
theorem test_decode_fltReset : decodeCommand 0x1FFF0003#32 = .ok (.fltReset 0x1FFF#13) := by decide
theorem test_decode_dlvStart : decodeCommand 0x00000210#32 = .ok (.dlvStart 2#4) := by decide
theorem test_decode_dlvStop : decodeCommand 0x00000F11#32 = .ok (.dlvStop 15#4) := by decide
theorem test_decode_reserved_opcode_first : decodeCommand 0x000010FF#32 = .error .reservedOpcode := by decide
theorem test_decode_reserved_bit : decodeCommand 0x20000003#32 = .error .reservedBits := by decide
theorem test_decode_unused_chan : decodeCommand 0x00000103#32 = .error .reservedBits := by decide
theorem test_decode_unused_pid : decodeCommand 0x00010010#32 = .error .reservedBits := by decide

/-- 0x4700_00F0 of V2, with a body. -/
theorem test_decode_tsAfPayload :
    decodePacket (bytes [0x47, 0x00, 0x00, 0xF0] ++ ff 184) =
      .ok (.tsAfPayload ⟨false, false, false, 0#13, 3#2, 0#4⟩ (ff 184)) := by decide +kernel

/-- 0x47E0_1F1F of V2. -/
theorem test_decode_tsPayload :
    decodePacket (bytes [0x47, 0xE0, 0x1F, 0x1F] ++ ff 184) =
      .ok (.tsPayload ⟨true, true, true, 0x01F#13, 0#2, 15#4⟩ (ff 184)) := by decide +kernel

/-- 0x4701_0020 of V2. -/
theorem test_decode_tsAfOnly :
    decodePacket (bytes [0x47, 0x01, 0x00, 0x20] ++ ff 184) =
      .ok (.tsAfOnly ⟨false, false, false, 0x100#13, 0#2, 0#4⟩ (ff 184)) := by decide +kernel

/-- 0x4701_0000 of V2. -/
theorem test_decode_tsAfcReserved :
    decodePacket (bytes [0x47, 0x01, 0x00, 0x00] ++ ff 184) =
      .ok (.tsAfcReserved ⟨false, false, false, 0x100#13, 0#2, 0#4⟩ (ff 184)) := by decide +kernel

/-- 0xFF47_0010 of V2: the sync byte is b[0] only. -/
theorem test_decode_tsSyncFault :
    decodePacket (bytes [0xFF, 0x47, 0x00, 0x10] ++ ff 184) =
      .ok (.tsSyncFault 0xFF#8 (bytes [0x47, 0x00, 0x10] ++ ff 184)) := by decide +kernel

theorem test_decode_packet_length : decodePacket (ff 187) = .error .packetLength := by decide +kernel

/-- The encodings written out: FLT_RESET of V1 row 7, and the header bytes of 0x4750_0010. -/
theorem test_encode_fltReset : encode (.fltReset 0x1000#13) = .command 0x10000003#32 := by decide
theorem test_encode_tsPayload :
    encode (.tsPayload (hdr 0x1000 true) (ff 184)) = .packet (bytes [0x47, 0x50, 0x00, 0x10] ++ ff 184) := by
  decide +kernel

/-- The host's numbering of a table row: a command word, and a header word with an operand of zeros. -/
theorem test_table_command : decodeTableWord 32 0x00000110 = some (.dlvStart 1#4) := by decide
theorem test_table_packet :
    decodeTableWord 32 0x471FFF1F = some (.tsPayload ⟨false, false, false, 0x1FFF#13, 0#2, 15#4⟩ (List.replicate 184 0#8)) := by
  decide +kernel

/-! ## Commands (V1) -/

/-- V1 row 24. -/
theorem test_nop_keeps_the_reason :
    (after (exec .nop { State.reset with cmdStatus := ⟨true, 5#8, .opcode⟩ })).cmdStatus.word = 0x00010500#32 := by
  decide

/-- V1 rows 2 and 3. -/
theorem test_dmxStart_runs : (after (exec .dmxStart State.reset)).dmx.statusWord = 0x00000001#32 := by decide
theorem test_dmxStart_busy :
    ((after (exec .dmxStart running)).cmdStatus.word, (after (exec .dmxStart latchFull)).cmdStatus.word,
      (after (exec .dmxStart latchFull)).irqEvents) = (0x00030101#32, 0x00030101#32, 1#10) := by decide

/-- V1 rows 5 and 6. -/
theorem test_dmxStop_requests : (after (exec .dmxStop running)).dmx.statusWord = 0x00001001#32 := by decide
theorem test_dmxStop_idle : after (exec .dmxStop State.reset) = State.reset := by decide

/-- V1 row 7: SEEN and CODEC are kept. -/
theorem test_fltReset_keeps_seen_and_codec :
    (after (exec (.fltReset 0x1000#13)
        (State.reset.setFilter 0x1000#13 { overflowed with codec := .aac }))).filter 0x1000#13 =
      { Filter.reset with seen := true, codec := .aac } := by decide

/-- V1 rows 11, 12 and 13. -/
theorem test_dlvStart_fills : ((after (exec (.dlvStart 1#4) State.reset)).ch.map Channel.statusWord) = [0#32, 1#32] := by
  decide
theorem test_dlvStart_rejects :
    ((after (exec (.dlvStart 2#4) State.reset)).cmdStatus.word,
      (after (exec (.dlvStart 0#4) (withChan (chan .wait 1316 10#64) 0#64))).cmdStatus.word) =
      (0x00041001#32, 0x00031001#32) := by decide +kernel

/-- V1 rows 14 and 15. -/
theorem test_dlvStop_requests :
    (after (exec (.dlvStop 0#4) (withChan (chan .wait 1316 10#64) 0#64))).ch.map Channel.statusWord =
      [0x00000303#32, 0#32] := by decide +kernel
theorem test_dlvStop_rejects : (after (exec (.dlvStop 15#4) State.reset)).cmdStatus.word = 0x00041101#32 := by decide

/-- V1 row 18, as the host's write to CMD. -/
theorem test_bad_opcode_is_rejected :
    (after (step (sched State.reset (.hostWrite 0x004#12 4 0x000010FF#32)))).cmdStatus.word = 0x0001FF01#32 := by decide

/-! ## Packet classes (V2, V3, W3, W4, V4) -/

/-- V3, L = 6 with the PCR flag: MALFORMED, and the payload is still processed, here dropped on PID 5. -/
theorem test_tsAfPayload_malformed :
    ((after (exec (.tsAfPayload (hdr 5 true) (afBody 6 0x10 [])) running)).dmx.malformed,
      (after (exec (.tsAfPayload (hdr 5 true) (afBody 6 0x10 [])) running)).dmx.pcrSeen) = (1#32, false) := by
  decide +kernel

/-- V3, L = 183 with a PCR: an empty payload never enters the section path, so PID 0 with PUSI is not malformed. -/
theorem test_tsAfPayload_empty :
    ((after (exec (.tsAfPayload (hdr 0 true) (afBody 183 0x10 [0, 0, 0xAF, 0xC8, 0x7E, 0])) running)).dmx.malformed,
      (after (exec (.tsAfPayload (hdr 0 true) (afBody 183 0x10 [0, 0, 0xAF, 0xC8, 0x7E, 0])) running)).dmx.regs.pcrBaseNs) =
      (0#32, 1000000000#64) := by decide +kernel

/-- W3. -/
theorem test_tsPayload_pat :
    ((after (exec (.tsPayload (hdr 0 true) (0x00#8 :: (pat20 ++ ff 163))) running)).dmx.pmtPid,
      (after (exec (.tsPayload (hdr 0 true) (0x00#8 :: (pat20 ++ ff 163))) running)).dmx.secDone,
      (after (exec (.tsPayload (hdr 0 true) (0x00#8 :: (pat20 ++ ff 163))) running)).irqEvents) =
      (0x1000#13, 1#32, 0x100#10) := by decide +kernel

/-- W5: the header 02 BF FF overflows; POS stays 3, SIZE is 4098 (P3). -/
theorem test_tsPayload_overflow :
    ((after (exec (.tsPayload (hdr 0 true) (bytes [0, 0x02, 0xBF, 0xFF] ++ ff 180)) running)).filter 0#13,
      (after (exec (.tsPayload (hdr 0 true) (bytes [0, 0x02, 0xBF, 0xFF] ++ ff 180)) running)).dmx.secOvf) =
      (overflowed, 1#32) := by decide +kernel

/-- The first PCR of P6 under KEYFRAME_MODE_L = 1. -/
theorem test_tsAfOnly_first_pcr :
    (after (exec (.tsAfOnly (hdr 0x100 false) (afBody 0xB7 0x50 [0, 0, 0xAF, 0xC8, 0x7E, 0]))
        { running with dmx := { running.dmx with keyframeModeL := true } })).dmx.idxL =
      some ⟨0#64, 1000000000#64, 0#64, false⟩ := by decide +kernel

/-- V4, a delta of 1 ms at offset 1316: the PCR of 1_001_000_000 ns is 27_027_000 ticks, base 90_090. -/
theorem test_tsAfOnly_valid_delta :
    (after (exec (.tsAfOnly (hdr 0x100 false) (afBody 0xB7 0x10 [0, 0, 0xAF, 0xF5, 0x7E, 0]))
        (clocked 1316#64 5#64 7#64))).dmx.regs =
      { (clocked 1316#64 5#64 7#64).dmx.regs with
        offset := 1504#64, pcrPrevNs := 1001000000#64, pcrPrevOff := 1316#64, durationNs := 1000005#64,
        lastDeltaNs := 1000000#64, bitrateBps := 10528000#64 } := by decide +kernel

/-- V2: SEEN only. -/
theorem test_tsAfcReserved_marks_seen :
    (let t := after (exec (.tsAfcReserved (hdr 0x100 true) (ff 184)) running)
     (t.filter 0x100#13, t.dmx.seenPids, t.dmx.regs.offset, t.dmx.malformed, t.mem)) =
      ({ Filter.reset with seen := true }, 1#14, 188#64, 0#32, []) := by decide +kernel

/-- V2 at offset 752: skip, then abort under SYNC_POLICY_L = 1 (P6's status, less PCR_SEEN). -/
theorem test_tsSyncFault_skips :
    (let t := after (exec (.tsSyncFault 0x00#8 (ff 187)) (clocked 752#64 0#64 0#64))
     (t.dmx.syncFaults, t.dmx.regs.faultOff, t.dmx.regs.offset, t.irqEvents, t.dmx.phase)) =
      (1#32, 752#64, 940#64, 4#10, DmxPhase.run) := by decide +kernel
theorem test_tsSyncFault_aborts :
    (let t := after (exec (.tsSyncFault 0x00#8 (ff 187)) { running with dmx := { running.dmx with syncPolicyL := true } })
     (t.dmx.statusWord, t.irqEvents)) = (0x00000062#32, 6#10) := by decide +kernel

/-! ## The parsers, the clock, the records -/

/-- W4: codecs, PCR PID and the unknown type. -/
theorem test_parsePmt :
    (let t := running.parsePmt pmt31 31
     ((t.filter 0x100#13).codec, (t.filter 0x101#13).codec, (t.filter 0x102#13).codec, t.dmx.pcrPid, t.dmx.unkStype)) =
      (Codec.h264, Codec.aac, Codec.none, 0x100#13, 1#32) := by decide +kernel

/-- W1. -/
theorem test_pcr_to_ns :
    (pcrToNs 0x1FFFFFFFF#33 511#9, pcrToNs 0#33 300#9, pcrToNs 0#33 26#9) =
      (95443717696703#64, 11111#64, 962#64) := by decide

/-- W1: the reserved bits of the PCR field are no part of it. -/
theorem test_pcr_bytes :
    (pcrNs (afBody 7 0x10 [0xFF, 0xFF, 0xFF, 0xFF, 0xFF, 0x2B]), pcrNs (afBody 7 0x10 [0, 0, 0, 0, 0xFE, 0])) =
      (95443717688851, 11111) := by decide +kernel

/-- V7: t2ns truncates toward zero. -/
theorem test_t2ns : (t2ns 27000000, t2ns 1, t2ns (-1), t2ns (-100000000)) = (1000000000, 37, -37, -3703703703) := by
  decide

/-- P6: the JSON line of its record. -/
theorem test_json_line :
    IdxRecord.jsonLine ⟨0#64, 1000000000#64, 0#64, false⟩ =
      [123#8] ++ ascii "\"d\":0,\"p\":1000000000,\"o\":0,\"k\":false" ++ [125#8, 10#8] := by decide +kernel

/-! ## Delivery (V7) -/

/-- The track entry bytes of t10 in V7. -/
theorem test_track_entry : trackEntry (bytes [0, 0, 0, 0, 0x01, 0x9B, 0xFC, 0xC0]) = 27000000#64 := by decide

/-- P2: the check of chunk 10 waits until 6 s. -/
theorem test_check_waits :
    (let k : Channel := (chan .tsread 1316 10#64).check 27000000#64 0#64
     (k.phase, k.regs.wakeNs, k.regs.lastDelay)) = (DlvPhase.wait, 1000000000#64, 1000000000#64) := by decide +kernel

/-- P4: 1.5 s late at chunk 10, so a resync to the pair of this check. -/
theorem test_check_resyncs :
    (let k : Channel := (chan .tsread 1316 10#64).check 27000000#64 2500000000#64
     (k.phase, k.regs.epochWall, k.regs.epochStream, k.resyncs, k.evt)) =
      (DlvPhase.write, 2500000000#64, 27000000#64, 1#32, 4#3) := by decide +kernel

/-! ## Registers (V9, V8) -/

theorem test_reset_words :
    ([Reg.blkId, .hwCfg, .cmd, .dmxStatus, .ch 1 .status].map State.reset.readWord) =
      [0x54534301#32, 0x00004702#32, 0#32, 0#32, 0#32] := by decide

/-- V8, the row of channel 2: IRQ_ENABLE bit 18 is reserved with two channels. -/
theorem test_irq_enable_reserved :
    (after (step (sched State.reset (.hostWrite 0x010#12 4 0x00040000#32)))).irqEnable = 0#32 := by decide

/-- V8, the row with the summary bit of channel 0. -/
theorem test_irq_summary :
    { withChan { chan .done 0 0#64 with evt := 1#3, evtEn := 1#3 } 0#64 with irqEnable := 0x00010000#32 }.irq = true := by
  decide +kernel

/-- V9, the snapshot: the low half, and the high half into the shadow. -/
theorem test_snapshot :
    (let t := after (step (sched
        { running with dmx := { running.dmx with regs := { running.dmx.regs with offset := 0x00000001FFFFFF00#64 } } }
        (.hostRead 0x080#12 4)))
     (t.env.hostRd, t.dmx.shadow.offset)) = ([0xFFFFFF00#32], 1#32) := by decide

/-- 30_encoding.md R156: DLV_EVT_EN[1] is at 0x18C (P4). -/
theorem test_register_offset : Reg.offset (.ch 1 .evtEn) = some 0x18C := by decide

/-- 20_memory.md R101: a 16-bit access is refused. -/
theorem test_host_access : refusedWith (step (sched State.reset (.hostRead 0x000#12 2))) .hostAccess = true := by decide

/-- 60 R430: the wall clock does not run backwards. -/
theorem test_wall_backwards :
    refusedWith (step (sched (withChan Channel.reset 5#64) (.wall 4#64))) .envClock = true := by decide

/-- 00_scope.md R15: a short read is no answer to TS_IN. -/
theorem test_short_packet : refusedWith (step (sched running (.dmx (.bytes (ff 187))))) .envAnswer = true := by
  decide +kernel

/-! ## Witnesses: values that meet every hypothesis of an obligation together, at the boundaries of each clause -/

theorem next_after {o : Host.Outcome State Fault Refusal} (h : completes o = true) : o = .next (after o) := by
  cases o with
  | next t => rfl
  | fault _ => cases h
  | refused _ => cases h

/-- The reset state with one filter changed meets 42 R272 where that filter does. -/
theorem filtersOk_setFilter (p : Pid) {f : Filter} (h : f.ok) : (State.reset.setFilter p f).FiltersOk := by
  intro q
  rw [State.filter_setFilter]
  split
  · exact h
  · show Filter.reset.ok
    decide

theorem witness_DecodeOfEncodeIsIdentity :
    (Instr.tsPayload (hdr 0 false) (ff 184)).wf = true ∧ (Instr.tsSyncFault 0x46#8 (ff 187)).wf = true := by
  decide +kernel

theorem witness_EncodeOfDecodeIsIdentity :
    decode (.command 0x00000F11#32) = .ok (.dlvStop 15#4) ∧
      decode (.packet (bytes [0x47, 0x01, 0x00, 0x20] ++ ff 184)) =
        .ok (.tsAfOnly ⟨false, false, false, 0x100#13, 0#2, 0#4⟩ (ff 184)) := by decide +kernel

/-- An unknown OPCODE; the highest reserved bit, a CHAN and a PID that are not used. -/
theorem witness_BadCommandWordsAreRejected :
    (sched State.reset (.hostWrite 0x004#12 4 0x000010FF#32)).nextAction = some (.hostWrite 0x004#12 4 0x000010FF#32) ∧
      (0x000010FF#32).extractLsb' 0 8 ∉ [0x00#8, 0x01#8, 0x02#8, 0x03#8, 0x10#8, 0x11#8] ∧
      (0x80000000#32).extractLsb' 29 3 ≠ 0#3 ∧ (0x80000000#32).extractLsb' 0 8 = 0x00#8 ∧
      (0x00000103#32).extractLsb' 8 4 ≠ 0#4 ∧ (0x00000103#32).extractLsb' 0 8 = 0x03#8 ∧
      (0x00010010#32).extractLsb' 16 13 ≠ 0#13 ∧ (0x00010010#32).extractLsb' 0 8 = 0x10#8 := by decide

/-- One packet for each class. -/
theorem witness_HeaderBytesSelectTheClass :
    ∀ a ∈ [0x3F, 0x10, 0x20, 0x0F],
      (bytes [0x47, 0, 0, a] ++ ff 184).length = 188 ∧ byteAt (bytes [0x47, 0, 0, a] ++ ff 184) 0 = 0x47#8 ∧
        (byteAt (bytes [0x47, 0, 0, a] ++ ff 184) 3).extractLsb' 4 2 = BitVec.ofNat 2 (a / 16) ∧
        (bytes [0x48, 0, 0, a] ++ ff 184).length = 188 ∧ byteAt (bytes [0x48, 0, 0, a] ++ ff 184) 0 ≠ 0x47#8 := by
  decide +kernel

theorem witness_StepRunsTheDecodedInstruction :
    (sched running (.hostWrite 0x004#12 4 2#32)).env.sched = .hostWrite 0x004#12 4 2#32 :: [] ∧
      decodeCommand 2#32 = .ok .dmxStop ∧
      (sched running (.dmx (.bytes (ff 188)))).env.sched = .dmx (.bytes (ff 188)) :: [] ∧
      running.dmx.phase = .run ∧ running.dmx.stopReq = false ∧ running.dmx.idxL = none ∧
      decodePacket (ff 188) = .ok (.tsSyncFault 0xFF#8 (ff 187)) := by decide +kernel

theorem witness_NopOnlyAccepts : (0x80000000#32).extractLsb' 0 8 = 0#8 ∧ 0x80000000#32 ≠ 0#32 := by decide

/-- IDLE and DONE with an empty latch; RUN; a full latch. -/
theorem witness_DmxStartBeginsAFreshSession :
    (State.reset.dmx.phase ≠ .run ∧ State.reset.dmx.idxL = none) ∧ running.dmx.phase = .run ∧
      latchFull.dmx.idxL ≠ none := by decide

theorem witness_DmxStopCancelsAtTheNextStep :
    State.reset.dmx.phase ≠ .run ∧ latchFull.dmx.phase ≠ .run ∧ running.dmx.phase = .run ∧
      (0x00000102#32).extractLsb' 0 8 = 0x02#8 ∧ 0x00000102#32 ≠ 0x00000002#32 := by decide

/-- CHAN set; the lowest reserved bit above PID set. -/
theorem witness_FltResetReenablesThePid :
    ((0x00000103#32).extractLsb' 0 8 = 0x03#8 ∧ (0x00000103#32).extractLsb' 8 8 ≠ 0#8) ∧
      ((0x20000003#32).extractLsb' 0 8 = 0x03#8 ∧ (0x20000003#32).extractLsb' 29 3 ≠ 0#3) := by decide

/-- The first channel number that is none, an IDLE and a DONE channel, a running one. -/
theorem witness_DlvStartBeginsAFreshSession :
    State.reset.nDlv ≤ (2#4).toNat ∧
      ((withChan (chan .write 1316 1#64) 0#64).ch[(0#4).toNat]? = some (chan .write 1316 1#64) ∧
        (chan .write 1316 1#64).phase ∉ [DlvPhase.idle, .done]) ∧
      ((withChan (chan .done 0 1#64) 0#64).ch[(0#4).toNat]? = some (chan .done 0 1#64) ∧
        (chan .done 0 1#64).phase ∈ [DlvPhase.idle, .done]) ∧
      (State.reset.ch[(1#4).toNat]? = some Channel.reset ∧ Channel.reset.phase ∈ [DlvPhase.idle, .done]) := by
  decide +kernel

theorem witness_DlvStopCancelsAtTheNextStep :
    State.reset.nDlv ≤ (15#4).toNat ∧
      (State.reset.ch[(1#4).toNat]? = some Channel.reset ∧ Channel.reset.phase ∈ [DlvPhase.idle, .done]) ∧
      ((withChan (chan .fill 0 0#64) 0#64).ch[(0#4).toNat]? = some (chan .fill 0 0#64) ∧
        (chan .fill 0 0#64).phase ∉ [DlvPhase.idle, .done]) ∧
      ((0x00010011#32).extractLsb' 0 8 = 0x11#8 ∧ (0x00010011#32).extractLsb' 12 20 ≠ 0#20) := by decide +kernel

theorem witness_SyncFaultSkipsOrAborts :
    running.dmx.syncPolicyL = false ∧ { running.dmx with syncPolicyL := true }.syncPolicyL = true := by decide

/-- L = 184, and L = 1 and 6 with the PCR flag; L = 0, and L = 1 and 183 without it. -/
theorem witness_AfOnlyWithoutPcr :
    183 < (byteAt (afBody 184 0x10 []) 0).toNat ∧
      (∀ l ∈ [1, 6], 1 ≤ (byteAt (afBody l 0x10 []) 0).toNat ∧ (byteAt (afBody l 0x10 []) 0).toNat < 7 ∧
        (byteAt (afBody l 0x10 []) 1).getLsbD 4 = true) ∧
      (byteAt (afBody 0 0x10 []) 0).toNat = 0 ∧
      (∀ l ∈ [1, 183], 1 ≤ (byteAt (afBody l 0x40 []) 0).toNat ∧ (byteAt (afBody l 0x40 []) 0).toNat ≤ 183 ∧
        (byteAt (afBody l 0x40 []) 1).getLsbD 4 = false) := by decide +kernel

theorem hasPcr_boundaries : ∀ l ∈ [7, 183], HasPcr (afBody l 0x10 [0, 0, 0xAF, 0xC8, 0x7E, 0]) := by
  unfold HasPcr; decide +kernel

theorem witness_AfOnlyWithPcrFrame : HasPcr (afBody 183 0x50 [0, 0, 0xAF, 0xC8, 0x7E, 0]) := by
  unfold HasPcr; decide +kernel

theorem witness_FirstPcrSetsTheBase :
    (running.filter 0x100#13).ok ∧ HasPcr (afBody 7 0x50 [0, 0, 0xAF, 0xC8, 0x7E, 0]) ∧ running.dmx.pcrSeen = false ∧
      running.dmx.ok := by
  unfold HasPcr; decide +kernel

/-- V4's first two rows: a delta of 0 and one of 500 ms (PCR base 135_000). -/
theorem witness_ValidDeltaAccumulates :
    ((clocked 188#64 5#64 7#64).filter 0x100#13).ok ∧ (clocked 188#64 5#64 7#64).dmx.pcrSeen = true ∧
      HasPcr (afBody 7 0x10 [0, 0, 0xAF, 0xC8, 0x7E, 0]) ∧
      (pcrNs (afBody 7 0x10 [0, 0, 0xAF, 0xC8, 0x7E, 0]) : Int) - (clocked 188#64 5#64 7#64).dmx.regs.pcrPrevNs.toNat = 0 ∧
      HasPcr (afBody 7 0x10 [0, 1, 0x07, 0xAC, 0x7E, 0]) ∧
      (pcrNs (afBody 7 0x10 [0, 1, 0x07, 0xAC, 0x7E, 0]) : Int) - (clocked 188#64 5#64 7#64).dmx.regs.pcrPrevNs.toNat =
        500000000 := by
  unfold HasPcr; decide +kernel

/-- The nearest PCRs outside the valid range: one tick below 1 s (-38 ns), one above 1.5 s (500_000_037 ns). -/
theorem witness_DiscontinuityAppliesTheLastDelta :
    ((clocked 188#64 5#64 7#64).filter 0x100#13).ok ∧ (clocked 188#64 5#64 7#64).dmx.pcrSeen = true ∧
      HasPcr (afBody 7 0x10 [0, 0, 0xAF, 0xC7, 0xFF, 0x2B]) ∧
      pcrNs (afBody 7 0x10 [0, 0, 0xAF, 0xC7, 0xFF, 0x2B]) < (clocked 188#64 5#64 7#64).dmx.regs.pcrPrevNs.toNat ∧
      HasPcr (afBody 7 0x10 [0, 1, 0x07, 0xAC, 0x7E, 1]) ∧
      500000000 < (pcrNs (afBody 7 0x10 [0, 1, 0x07, 0xAC, 0x7E, 1]) : Int) -
        (clocked 188#64 5#64 7#64).dmx.regs.pcrPrevNs.toNat := by
  unfold HasPcr; decide +kernel

/-- An idle filter, one in the middle of a section at its last byte, an overflowed one; an empty and a full payload. -/
theorem witness_PayloadPacketsComplete :
    Filter.reset.ok ∧ (midSection 4095 4096).ok ∧ overflowed.ok ∧
      (afBody 183 0x10 []).drop (1 + (byteAt (afBody 183 0x10 []) 0).toNat) = [] ∧
      ((afBody 0 0x10 []).drop (1 + (byteAt (afBody 0 0x10 []) 0).toNat)).length = 183 :=
  ⟨by decide, by decide, by decide, by decide +kernel, by decide +kernel⟩

/-- A PID next to PID 0 while PMT_VALID = 0; an invalid filter; no section in progress. -/
theorem witness_DroppedPayloadsChangeNothing :
    (1#13 ≠ 0#13 ∧ ¬ (running.dmx.pmtValid = true ∧ 1#13 = running.dmx.pmtPid)) ∧
      ((running.setFilter 0#13 overflowed).filter 0#13).invalid = true ∧
      ((hdr 0 false).pusi = false ∧ (running.filter 0#13).active = false) := by decide

/-- `running` with the PMT of W3 known, and a PMT section at its last byte. -/
def inPmt : State :=
  ({ running with dmx := { running.dmx with pmtValid := true, pmtPid := 0x1000#13 } } : State).setFilter 0x1000#13
    (midSection 4095 4096)

/-- A payload on the PMT PID: whole, after no adaptation field, and its last byte after one of 182 bytes without a PCR. -/
theorem witness_WholePatPacketIsParsed_input :
    (inPmt.dmx.pmtValid = true ∧ 0x1000#13 = inPmt.dmx.pmtPid) ∧ (inPmt.filter 0x1000#13).ok ∧ ff 184 ≠ [] ∧
      ((byteAt (afBody 0 0x10 []) 0).toNat = 0 ∧ (afBody 0 0x10 []).drop (1 + 0) ≠ []) ∧
      ((byteAt (afBody 182 0x40 []) 0).toNat = 182 ∧ (byteAt (afBody 182 0x40 []) 1).getLsbD 4 = false ∧
        ((afBody 182 0x40 []).drop (1 + 182)).length = 1) :=
  ⟨by decide, by decide, by decide +kernel, by decide +kernel, by decide +kernel⟩

/-- W3's section, whose second entry is its first with a nonzero program number; the shortest and the longest section that
fit, both without such an entry. -/
theorem witness_WholePatPacketIsParsed :
    ((hdr 0 true).pid = 0#13 ∧ (hdr 0 true).pusi = true ∧ (running.filter 0#13).invalid = false) ∧
      (3 ≤ pat20.length ∧ pat20.length ≤ 183 ∧
        pat20.length = 3 + ((byteAt pat20 1).toNat % 16 * 256 + (byteAt pat20 2).toNat) ∧
        8 + 4 * 1 + 8 ≤ pat20.length ∧ byteAt pat20 (8 + 4 * 1) ++ byteAt pat20 (9 + 4 * 1) ≠ 0#16 ∧
        byteAt pat20 (8 + 4 * 0) ++ byteAt pat20 (9 + 4 * 0) = 0#16) ∧
      (∀ z ∈ [bytes [0, 0xB0, 0], bytes [0, 0xB0, 180] ++ List.replicate 180 0#8],
        3 ≤ z.length ∧ z.length ≤ 183 ∧ z.length = 3 + ((byteAt z 1).toNat % 16 * 256 + (byteAt z 2).toNat) ∧
          ∀ n, n < 46 → 8 + 4 * n + 8 ≤ z.length → byteAt z (8 + 4 * n) ++ byteAt z (9 + 4 * n) = 0#16) := by
  decide +kernel

/-- W3's section; its first entry alone, which names no program. -/
theorem witness_PatTakesTheFirstNonzeroProgram :
    (8 + 4 * 1 + 8 ≤ 20 ∧ byteAt pat20 (8 + 4 * 1) ++ byteAt pat20 (9 + 4 * 1) ≠ 0#16 ∧
        ∀ m, m < 1 → byteAt pat20 (8 + 4 * m) ++ byteAt pat20 (9 + 4 * m) = 0#16) ∧
      ∀ n, 8 + 4 * n + 8 ≤ 16 → byteAt pat20 (8 + 4 * n) ++ byteAt pat20 (9 + 4 * n) = 0#16 := by
  refine ⟨by decide, fun n hn => ?_⟩
  obtain rfl : n = 0 := by omega
  decide

/-- W4's stream type that no default row names; 15 bytes are too short; 16 bytes hold a PMT without entries; W4's section holds three. -/
theorem witness_PmtAssignsCodecs :
    0x99#8 ∉ [0x1B#8, 0x02#8, 0x04#8, 0x0F#8, 0x03#8, 0x11#8, 0x81#8] ∧ 15 < 16 ∧ 16 ≤ 16 ∧ pmtEntries pmt31 16 16 12 = [] ∧
      pmtEntries pmt31 31 31 (12 + ((byteAt pmt31 10).toNat % 16 * 256 + (byteAt pmt31 11).toNat)) =
        [(0x1B#8, 0x100#13), (0x0F#8, 0x101#13), (0x99#8, 0x102#13)] := by decide +kernel

/-- Two sections that differ in their last four bytes only. -/
theorem witness_ParsersReadInsideTheSection :
    (∀ i, i + 5 ≤ 20 → byteAt pat20 i = byteAt (pat20.take 16) i) ∧ pat20 ≠ pat20.take 16 := by
  have h : ∀ i, i < 16 → byteAt pat20 i = byteAt (pat20.take 16) i := by decide
  exact ⟨fun i hi => h i (by omega), by decide⟩

/-- What an append answers, or the state itself where it answers a fault. -/
def appended (s : State) (x : List Byte) : State :=
  match s.append 0#13 x with
  | .ok t => t
  | .error _ => s

/-- The second byte of a section; nothing appended to a section at its last byte. -/
theorem witness_BufferHoldsTheAppendedBytes :
    (let s := running.setFilter 0#13 (midSection 1 0)
     (s.filter 0#13).ok ∧ s.append 0#13 [0xB0#8] = .ok (appended s [0xB0#8]) ∧
      ((appended s [0xB0#8]).filter 0#13).active = true) ∧
    (let s := running.setFilter 0#13 (midSection 4095 4096)
     (s.filter 0#13).ok ∧ s.append 0#13 [] = .ok (appended s []) ∧ ((appended s []).filter 0#13).active = true) :=
  ⟨⟨by decide, rfl, by decide⟩, ⟨by decide, rfl, by decide⟩⟩

/-- SectionInput: a pointer field past the payload; two bytes, and three whose size is 3, 4096, 4097; a section that a packet
without PUSI takes to one byte less than its size, to its size, and past it. -/
theorem witness_BufferHoldsTheAppendedBytes_input :
    ((running.filter 0#13).ok ∧ (running.filter 0#13).invalid = false) ∧
      ((ff 183).length < 1 + (byteAt (0xFF#8 :: ff 182) 0).toNat) ∧
      (sectionOffer true (bytes [0, 0x00, 0xB0])).length < 3 ∧
      ([[0x00, 0xB0, 0x00], [0x00, 0xBF, 0xFD], [0x00, 0xBF, 0xFE]].map fun h =>
          sizeOf3 (sectionOffer true (bytes (0 :: h)))) = [3, 4096, 4097] ∧
      (let f := inPmt.filter 0x1000#13; f.ok ∧ f.invalid = false ∧ f.active = true ∧ f.size ≠ 0#13) ∧
      ([0, 1, 184].map fun n => (inPmt.sectionBytes 0x1000#13 4095 ++ sectionOffer false (ff n)).length) =
        [4095, 4096, 4279] :=
  ⟨⟨by decide, by decide⟩, by decide +kernel, by decide, by decide +kernel, by decide, by
    simp [State.sectionBytes, sectionOffer, ff]⟩

/-- The next step of DMX takes a payload-start packet whose section goes on. -/
def startsSection : State := sched running (.dmx (.bytes (bytes [0x47, 0x40, 0, 0x10, 0, 0x00, 0xB0, 0xFF] ++ ff 180)))

theorem witness_OnlyPayloadStartActivates :
    step startsSection = .next (after (step startsSection)) ∧ (startsSection.filter 0#13).active = false ∧
      ((after (step startsSection)).filter 0#13).active = true ∧ startsSection.nextAction ≠ some .reset ∧
      (after (step startsSection)).data 0#13 1 ≠ startsSection.data 0#13 1 :=
  ⟨next_after (by decide +kernel), by decide, by decide +kernel, by decide, by decide +kernel⟩

/-- FLT_RESET of another PID leaves an invalid filter as it is. -/
theorem witness_InvalidFilterStaysUntilReset :
    (let s := sched (running.setFilter 0#13 overflowed) (.hostWrite 0x004#12 4 0x00010003#32)
     step s = .next (after (step s)) ∧ (s.filter 0#13).invalid = true ∧
      s.nextAction ≠ some (.hostWrite 0x004#12 4 (cmdWord 0x03#8 0#4 0#13)) ∧
      s.nextAction ≠ some (.hostWrite 0x004#12 4 0x00000001#32) ∧ s.nextAction ≠ some .reset) :=
  ⟨next_after (by decide), by decide, by decide, by decide, by decide⟩

/-- A filter in the middle of a section, and an overflowed one, with a step that goes on. -/
theorem witness_StepKeepsTheFilterInvariant :
    (State.reset.setFilter 0#13 (midSection 4095 4096)).FiltersOk ∧ (State.reset.setFilter 0#13 overflowed).FiltersOk ∧
      step (State.reset.setFilter 0#13 overflowed) = .next (State.reset.setFilter 0#13 overflowed) :=
  ⟨filtersOk_setFilter _ (by decide), filtersOk_setFilter _ (by decide), rfl⟩

theorem witness_SectionBuffersAreNeverOverrun : (State.reset.setFilter 0#13 (midSection 4095 4096)).FiltersOk :=
  filtersOk_setFilter _ (by decide)

theorem witness_StepKeepsTheTablesCanonical :
    (let s := sched { running with mem := [(3, 0x47#8)], flt := [(0, overflowed)] } (.hostWrite 0x004#12 4 3#32)
     s.TablesWf ∧ step s = .next (after (step s))) :=
  ⟨by decide +kernel, next_after (by decide)⟩

theorem witness_StepKeepsSeenPidsCounted : State.reset.SeenCounted ∧ step State.reset = .next State.reset := by
  refine ⟨?_, rfl⟩
  have h : (Finset.univ.filter fun p : Pid => (State.reset.filter p).seen = true) = ∅ :=
    Finset.filter_eq_empty_iff.mpr fun _ _ => Bool.false_ne_true
  rw [State.SeenCounted, h]
  rfl

/-- IDLE; RUN with a stop request; RUN with a full latch; RUN. -/
theorem witness_DmxStepSelection :
    (sched State.reset (.dmx .fault)).nextAction = some (.dmx .fault) ∧ State.reset.dmx.phase ≠ .run ∧
      (let d : Dmx := { running.dmx with stopReq := true }; d.phase = .run ∧ d.stopReq = true) ∧
      (let d : Dmx := { latchFull.dmx with phase := .run }
       d.phase = .run ∧ d.stopReq = false ∧ d.idxL ≠ none) ∧
      (running.dmx.phase = .run ∧ running.dmx.stopReq = false ∧ running.dmx.idxL = none) := by decide

theorem witness_EndOfInputEndsTheSession :
    (running.dmx.phase = .run ∧ running.dmx.stopReq = false ∧ running.dmx.idxL = none) ∧
      (∀ k ∈ [0, 1, 187], (sched running (.dmx (.eos k))).nextAction = some (.dmx (.eos k))) ∧
      (sched running (.dmx .fault)).nextAction = some (.dmx .fault) := by decide

theorem witness_StepKeepsTheDmxInvariant :
    (clocked 188#64 5#64 500000000#64).dmx.ok ∧ (sched running (.dmx (.eos 187))).dmx.ok ∧
      step (sched running (.dmx (.eos 187))) = .next (after (step (sched running (.dmx (.eos 187))))) :=
  ⟨by decide, by decide, next_after (by decide)⟩

/-- The largest duration that one more trusted delta keeps below 2^63. -/
theorem witness_DurationNeverDecreases :
    (let s := sched (clocked 188#64 (BitVec.ofNat 64 (2 ^ 63 - 500000001)) 500000000#64) (.dmx (.eos 0))
     s.dmx.ok ∧ s.dmx.phase = .run ∧ step s = .next (after (step s)) ∧ s.nextAction ≠ some .reset ∧
      s.dmx.regs.durationNs.toInt + 500000000 < 2 ^ 63) :=
  ⟨by decide, by decide, next_after (by decide), by decide, by decide⟩

theorem witness_TakeStepDeliversTheRecord :
    (sched latchFull .take).nextAction = some .take ∧ latchFull.dmx.idxL = some aRecord ∧
      (sched running .take).nextAction = some .take ∧ running.dmx.idxL = none ∧
      (sched latchFull (.dmx .unanswered)).nextAction = some (.dmx .unanswered) ∧ latchFull.dmx.stopReq = false := by
  decide

/-- One scheduled step of channel 0, in the given state of it. -/
def chanStep (k : Channel) (wall : DWord) (ans : PortAns) : State := sched (withChan k wall) (.dlv 0 ans)

theorem chanStep_next (k : Channel) (wall : DWord) (ans : PortAns) :
    (chanStep k wall ans).nextAction = some (.dlv 0 ans) ∧ (chanStep k wall ans).ch[0]? = some k := ⟨rfl, rfl⟩

/-- DONE; a WAIT with a stop request; a WRITE that is not answered; a WAIT 1 ns too early. -/
theorem witness_ChannelStepSelection :
    (chan .done 0 0#64).phase ∈ [DlvPhase.idle, .done] ∧
      (let k : Channel := { chan .wait 1316 10#64 with stopReq := true }
       k.phase ∉ [DlvPhase.idle, .done] ∧ k.stopReq = true ∧
        (chanStep k 0#64 .unanswered).nextAction = some (.dlv 0 .unanswered)) ∧
      ((chan .write 1316 0#64).phase ∈ [DlvPhase.fill, .tsread, .write] ∧ (chan .write 1316 0#64).stopReq = false) ∧
      (let k : Channel := { chan .wait 1316 10#64 with regs := { DlvWide.const 0#64 with wakeNs := 5#64 } }
       k.phase = .wait ∧ k.stopReq = false ∧ (withChan k 4#64).env.wallNs.toNat < k.regs.wakeNs.toNat) := by
  decide +kernel

/-- The fewest and the most bytes a read may bring; the end of source; a fault. -/
theorem witness_FillAppendsOrEnds :
    (chan .fill 1315 0#64).phase = .fill ∧ (chan .fill 1315 0#64).stopReq = false ∧
      (∀ n ∈ [1, 2781], 1 ≤ (ff n).length ∧
        (ff n).length ≤ State.reset.hw.raBufSize - (chan .fill 1315 0#64).ra.length) ∧
      (chanStep (chan .fill 1315 0#64) 0#64 (.eos 0)).nextAction = some (.dlv 0 (.eos 0)) ∧
      (chanStep (chan .fill 1315 0#64) 0#64 .fault).nextAction = some (.dlv 0 .fault) := by decide +kernel

/-- Chunk 0; chunks 1, 9 and 11; a track that ends before an entry and 7 bytes into one. -/
theorem witness_TsreadTakesTheTimestamp :
    (ff 8).length = 8 ∧ (chan .tsread 1316 0#64).phase = .tsread ∧ (chan .tsread 1316 0#64).stopReq = false ∧
      (chan .tsread 1316 0#64).regs.chunks = 0#64 ∧
      (∀ n ∈ [1, 9, 11], (chan .tsread 1316 (BitVec.ofNat 64 n)).regs.chunks.toNat % 10 ≠ 0) ∧
      (0 < 8 ∧ 7 < 8) ∧
      (chanStep (chan .tsread 1316 0#64) 0#64 .fault).nextAction = some (.dlv 0 .fault) := by decide +kernel

/-- Chunk 10 with timestamp 27_000_000, so 1 s of stream time: past a cap of 1 s by one tick more, and not past it; 1 ns ahead; exactly on time and exactly 1 s late; 1 ns more than 1 s late. -/
theorem witness_CheckPointPacesTheChannel :
    (let k : Channel := chan .tsread 1316 10#64
     k.phase = .tsread ∧ k.stopReq = false ∧ k.regs.chunks ≠ 0#64 ∧ k.regs.chunks.toNat % 10 = 0 ∧
      (bytes [0, 0, 0, 0, 0x01, 0x9B, 0xFC, 0xC0]).length = 8 ∧ k.maxDurL = 0#32 ∧
      capPassed { k with maxDurL := 1#32 } 27000001#64 = true ∧ capPassed { k with maxDurL := 1#32 } 27000000#64 = false ∧
      checkDelay k 27000000#64 999999999#64 = 1 ∧ checkDelay k 27000000#64 1000000000#64 = 0 ∧
      checkDelay k 27000000#64 2000000000#64 = -1000000000 ∧
      checkDelay k 27000000#64 2000000001#64 = -1000000001) := by decide +kernel

/-- WALL_NS at WAKE_NS, and 1 ns before it. -/
theorem witness_WaitEndsAtTheWakeTime :
    (let k : Channel := { chan .wait 1316 10#64 with regs := { DlvWide.const 0#64 with wakeNs := 5#64 } }
     k.phase = .wait ∧ k.stopReq = false ∧ k.regs.wakeNs.toNat ≤ (withChan k 5#64).env.wallNs.toNat ∧
      (withChan k 4#64).env.wallNs.toNat < k.regs.wakeNs.toNat) := by decide +kernel

theorem witness_WriteConsumesOneChunk :
    (chan .write 1316 0#64).phase = .write ∧ (chan .write 1316 0#64).stopReq = false ∧
      (chanStep (chan .write 1316 0#64) 0#64 .ok).nextAction = some (.dlv 0 .ok) ∧
      (chanStep (chan .write 2632 0#64) 0#64 .fault).nextAction = some (.dlv 0 .fault) := by decide +kernel

theorem witness_SessionsAreIndependent :
    completes ((withChan (chan .write 1316 0#64) 0#64).dlvStep 0 .ok) = true ∧
      (withChan (chan .write 1316 0#64) 0#64).ch[0]? = (withChan (chan .write 1316 0#64) 0#64).ch[0]? ∧
      completes (running.dmxStep .fault) = true := by decide +kernel

theorem witness_StepKeepsTheChannelInvariant :
    (let s := chanStep (chan .write 1316 1#64) 0#64 .fault
     s.ChannelsOk ∧ step s = .next (after (step s))) := by
  refine ⟨?_, next_after (by decide +kernel)⟩
  show ∀ k ∈ [chan .write 1316 1#64, Channel.reset], k.ok 4096
  decide +kernel

theorem witness_StepKeepsBytesCounted :
    (let s := chanStep (chan .write 1316 1#64) 0#64 .fault
     (∀ k ∈ s.ch, k.BytesCounted) ∧ step s = .next (after (step s))) := by
  refine ⟨?_, next_after (by decide +kernel)⟩
  show ∀ k ∈ [chan .write 1316 1#64, Channel.reset], k.BytesCounted
  decide +kernel

/-- Bit 9 of IRQ_STATUS and bit 2 of DLV_EVT[0] cleared by the host. -/
theorem witness_EventBitsStayUntilCleared :
    (let s := sched { State.reset with irqEvents := 0x200#10 } (.hostWrite 0x00C#12 4 0x200#32)
     step s = .next (after (step s)) ∧ s.nextAction ≠ some .reset ∧ s.irqEvents.getLsbD 9 = true ∧
      (after (step s)).irqEvents.getLsbD 9 = false) ∧
    (let s := sched (withChan { Channel.reset with evt := 4#3 } 0#64) (.hostWrite 0x108#12 4 4#32)
     step s = .next (after (step s)) ∧ s.nextAction ≠ some .reset ∧
      (s.ch.map fun k => k.evt.getLsbD 2) = [true, false] ∧
      ((after (step s)).ch.map fun k => k.evt.getLsbD 2) = [false, false]) :=
  ⟨⟨next_after (by decide), by decide, by decide, by decide⟩,
    ⟨next_after (by decide +kernel), by decide, by decide +kernel, by decide +kernel⟩⟩

/-- The ends of each reserved range, for two channels. -/
theorem witness_ReservedOffsetsReadZero :
    (∀ a ∈ [0x018, 0x03C, 0x0BC, 0x0C8, 0x0FC, 0x168, 0x17C, 0x168 + 0x80, 0x17C + 0x80, 0x200, 0xFFC],
        (BitVec.ofNat 12 a).toNat = a ∧ a % 4 = 0) ∧
      State.reset.nDlv = 2 ∧
      (sched State.reset (.hostRead 0x018#12 4)).nextAction = some (.hostRead 0x018#12 4) ∧
      (sched State.reset (.hostWrite 0xFFC#12 4 1#32)).nextAction = some (.hostWrite 0xFFC#12 4 1#32) := by decide

/-- The first and the last 64-bit register of DMX and of channel 0; a read that changes a shadow, and one that changes the
FLT_LEN shadow. -/
theorem witness_SnapshotProtocol :
    regAt 2 0x080 = .dmxLo .offset ∧ regAt 2 0x0C4 = .dmxHi .pcrPrevOff ∧ regAt 2 0x118 = .ch 0 (.lo .chunks) ∧
      regAt 2 0x164 = .ch 0 (.hi .lastDelay) ∧ State.reset.ch[0]? = some Channel.reset ∧
      (let s := sched { running with dmx := { running.dmx with regs := DmxWide.const 0x100000000#64 } } (.hostRead 0x080#12 4)
       completes (step s) = true ∧ s.nextAction ≠ some .reset ∧
        (after (step s)).dmx.shadow.get .offset ≠ s.dmx.shadow.get .offset) ∧
      0 < 2 ∧ 1 < 2 ∧ (sched running (.hostRead 0x0B8#12 4)).nextAction = some (.hostRead 0x0B8#12 4) ∧
      (let s := sched (running.setFilter 0#13 overflowed) (.hostRead 0x07C#12 4)
       completes (step s) = true ∧ (after (step s)).dmx.fltLenPos ≠ s.dmx.fltLenPos) ∧
      (let s := sched (withChan (chan .done 0 0x100000000#64) 0#64) (.hostRead 0x118#12 4)
       completes (step s) = true ∧ ((after (step s)).ch.map fun k => k.shadow.chunks) ≠ (s.ch.map fun k => k.shadow.chunks)) := by
  decide +kernel

theorem witness_StatusReadsShowTheirFields :
    (∀ a ∈ [0x000, 0x00C, 0x078, 0x100, 0x184, 0x194],
        (sched State.reset (.hostRead (BitVec.ofNat 12 a) 4)).nextAction = some (.hostRead (BitVec.ofNat 12 a) 4)) ∧
      (0x100#12).toNat = 0x100 + 0x80 * 0 + 0x00 ∧ State.reset.ch[0]? = some Channel.reset ∧
      (0x194#12).toNat = 0x100 + 0x80 * 1 + 0x14 ∧ State.reset.ch[1]? = some Channel.reset := by decide

theorem witness_WriteOneClears :
    (sched State.reset (.hostWrite 0x00C#12 4 1#32)).nextAction = some (.hostWrite 0x00C#12 4 1#32) ∧
      (sched State.reset (.hostWrite 0x188#12 4 1#32)).nextAction = some (.hostWrite 0x188#12 4 1#32) ∧
      (0x188#12).toNat = 0x108 + 0x80 * 1 ∧ State.reset.ch[1]? = some Channel.reset := by decide

/-- One channel number below N_DLV, and the bound of N_DLV. -/
theorem witness_ReadWriteRegistersStore :
    State.reset.nDlv ≤ 16 ∧ (State.resetWith 16 .default .initial).nDlv ≤ 16 ∧
      (∀ a ∈ [0x010, 0x040, 0x078, 0x180, 0x18C],
        (sched State.reset (.hostWrite (BitVec.ofNat 12 a) 4 5#32)).nextAction =
          some (.hostWrite (BitVec.ofNat 12 a) 4 5#32)) ∧
      (0x180#12).toNat = 0x100 + 0x80 * 1 ∧ (0x18C#12).toNat = 0x10C + 0x80 * 1 ∧
      State.reset.ch[1]? = some Channel.reset := by decide

/-- BLK_ID, DMX_STATUS, the last register of channel 1, and what would be DLV_CONFIG of channel 2. -/
theorem witness_OtherWritesHaveNoEffect :
    ∀ a ∈ [0x000, 0x044, 0x1E4, 0x200],
      (sched State.reset (.hostWrite (BitVec.ofNat 12 a) 4 1#32)).nextAction =
          some (.hostWrite (BitVec.ofNat 12 a) 4 1#32) ∧
        (BitVec.ofNat 12 a).toNat % 4 = 0 ∧ (BitVec.ofNat 12 a).toNat ∉ [0x004, 0x00C, 0x010, 0x040, 0x078] ∧
        ∀ c, c < State.reset.nDlv →
          (BitVec.ofNat 12 a).toNat ∉ [0x100 + 0x80 * c, 0x108 + 0x80 * c, 0x10C + 0x80 * c] := by decide

/-- The highest aligned word; its second half-word; widths 3 and 5. -/
theorem witness_OnlyAlignedWordsAreAdmitted :
    (sched State.reset (.hostRead 0xFFC#12 4)).nextAction = some (.hostRead 0xFFC#12 4) ∧ (0xFFC#12).toNat % 4 = 0 ∧
      (sched State.reset (.hostWrite 0xFFE#12 4 0#32)).nextAction = some (.hostWrite 0xFFE#12 4 0#32) ∧
      ¬ ((0xFFE#12).toNat % 4 = 0) ∧ ¬ (3 = 4) ∧ ¬ (5 = 4) := by decide

theorem witness_StepKeepsHardwareAndClock :
    (let s := sched { State.reset with irqEnable := 0x000303FF#32 } (.wall 0xFFFFFFFFFFFFFFFF#64)
     step s = .next (after (step s)) ∧ s.EnableOk) := ⟨next_after (by decide), by decide⟩

/-- The least and the greatest N_DLV, the first and the last offset. -/
theorem witness_RegistersReadTheirResetValues :
    (1 ≤ 1 ∧ 1 ≤ 16) ∧ (1 ≤ 16 ∧ 16 ≤ 16) ∧ (0x000 < 0x1000 ∧ 0x000 % 4 = 0) ∧ (0xFFC < 0x1000 ∧ 0xFFC % 4 = 0) := by
  decide

theorem witness_ResetStopsEverySession : (sched running .reset).nextAction = some .reset := rfl

end Sys2Proof.Tests
end

/-! PROOFS. The register space (20_memory.md): the layer of facts about the map of offsets, about the words registers read
as, and about the two host accesses; then the statements of R101, R103 and R106. -/

section
/-! ## The map of offsets (20_memory.md R102) -/

namespace Sys2Proof.Machine

theorem regAt_of_lt (n : Nat) {a : Nat} (h : a < 0x100) : regAt n a = (globalMap.lookup a).getD .reserved := by
  simp [regAt, h]

theorem regAt_channelBlock {n c o : Nat} (hc : c < n) (ho : o < 0x80) :
    regAt n (0x100 + 0x80 * c + o) = .ch c ((channelMap.lookup o).getD .reserved) := by
  have hge : ¬ 0x100 + 0x80 * c + o < 0x100 := by omega
  have hblock : (0x100 + 0x80 * c + o - 0x100) / 0x80 = c := by omega
  have hoff : (0x100 + 0x80 * c + o - 0x100) % 0x80 = o := by omega
  simp only [regAt, hge, hblock, hoff, hc, if_true, if_false]

theorem regAt_beyond {n a : Nat} (h : 0x100 + 0x80 * n ≤ a) : regAt n a = .reserved := by
  have hge : ¬ a < 0x100 := by omega
  have hblock : ¬ (a - 0x100) / 0x80 < n := by omega
  simp only [regAt, hge, hblock, if_false]

/-- FLT_INFO stands at its own offset only, so the access that sets the FLT_LEN shadow is one offset (10_state.md R56). -/
theorem eq_of_regAt_fltInfo {n a : Nat} (h : regAt n a = .fltInfo) : a = 0x07C := by
  by_cases ha : a < 0x100
  · rw [regAt_of_lt n ha] at h
    cases hl : globalMap.lookup a with
    | none => simp [hl] at h
    | some r =>
      obtain rfl : r = .fltInfo := by simpa [hl] using h
      obtain ⟨l₁, l₂, hmap, -⟩ := List.lookup_eq_some_iff.1 hl
      have hrow : ∀ e ∈ globalMap, e.2 = .fltInfo → e.1 = 0x07C := by decide
      exact hrow (a, .fltInfo) (by simp [hmap]) rfl
  · simp only [regAt, ha, if_false] at h
    split at h <;> cases h

/-- The offsets of the 64-bit DMX registers' low halves (10_state.md R58 to R65). -/
def dmxWideOffsets : List (Nat × DmxWideReg) :=
  [(0x080, .offset), (0x088, .faultOff), (0x090, .pcrBaseNs), (0x098, .pcrPrevNs), (0x0A0, .durationNs),
   (0x0A8, .lastDeltaNs), (0x0B0, .bitrateBps), (0x0C0, .pcrPrevOff)]

/-- The offsets from B(c) of the 64-bit channel registers' low halves (10_state.md R78 to R87). -/
def dlvWideOffsets : List (Nat × DlvWideReg) :=
  [(0x18, .chunks), (0x20, .bytes), (0x28, .epochWall), (0x30, .epochStream), (0x38, .firstTs), (0x40, .prevTs),
   (0x48, .lastGoodDelta), (0x50, .curTs), (0x58, .wakeNs), (0x60, .lastDelay)]

theorem regAt_dmxWideOffsets (n : Nat) : ∀ e ∈ dmxWideOffsets,
    regAt n e.1 = .dmxLo e.2 ∧ regAt n (e.1 + 4) = .dmxHi e.2 := by
  have hmap : ∀ e ∈ dmxWideOffsets, e.1 + 4 < 0x100 ∧ globalMap.lookup e.1 = some (.dmxLo e.2) ∧
      globalMap.lookup (e.1 + 4) = some (.dmxHi e.2) := by decide
  intro e he
  obtain ⟨hlt, hlo, hhi⟩ := hmap e he
  rw [regAt_of_lt n hlt, regAt_of_lt n (by omega), hlo, hhi]
  exact ⟨rfl, rfl⟩

theorem regAt_dlvWideOffsets {n c : Nat} (hc : c < n) : ∀ e ∈ dlvWideOffsets,
    regAt n (0x100 + 0x80 * c + e.1) = .ch c (.lo e.2) ∧ regAt n (0x100 + 0x80 * c + e.1 + 4) = .ch c (.hi e.2) := by
  have hmap : ∀ e ∈ dlvWideOffsets, e.1 + 4 < 0x80 ∧ channelMap.lookup e.1 = some (.lo e.2) ∧
      channelMap.lookup (e.1 + 4) = some (.hi e.2) := by decide
  intro e he
  obtain ⟨hlt, hlo, hhi⟩ := hmap e he
  rw [Nat.add_assoc _ e.1 4, regAt_channelBlock hc hlt, regAt_channelBlock hc (by omega), hlo, hhi]
  exact ⟨rfl, rfl⟩

/-! ### Reserved offsets (20_memory.md R103) -/

/-- The reserved ranges of 20_memory.md R102, with `n` channels. -/
def ReservedOffset (n a : Nat) : Prop :=
  (0x018 ≤ a ∧ a ≤ 0x03C) ∨ a = 0x0BC ∨ (0x0C8 ≤ a ∧ a ≤ 0x0FC) ∨
    (∃ c, c < n ∧ 0x168 + 0x80 * c ≤ a ∧ a ≤ 0x17C + 0x80 * c) ∨ 0x100 + 0x80 * n ≤ a

/-- Nothing is at the register: outside the channel blocks, or inside one. -/
def Reg.IsReserved (r : Reg) : Prop := r = .reserved ∨ ∃ c, r = .ch c .reserved

theorem Reg.IsReserved.ne_cmd {r : Reg} (h : r.IsReserved) : r ≠ .cmd := by
  obtain rfl | ⟨c, rfl⟩ := h <;> exact Reg.noConfusion

theorem globalMap_lookup_gap {a : Nat} (h : (0x018 ≤ a ∧ a ≤ 0x03C) ∨ a = 0x0BC ∨ (0x0C8 ≤ a ∧ a ≤ 0x0FC)) :
    globalMap.lookup a = none := by
  have rows : ∀ e ∈ globalMap,
      e.1 ≤ 0x014 ∨ (0x040 ≤ e.1 ∧ e.1 ≤ 0x0B8) ∨ (0x0C0 ≤ e.1 ∧ e.1 ≤ 0x0C4) := by decide
  rw [List.lookup_eq_none_iff]
  intro e he
  have := rows e he
  rw [bne_iff_ne]
  omega

theorem channelMap_lookup_gap {o : Nat} (h : 0x68 ≤ o) : channelMap.lookup o = none := by
  have rows : ∀ e ∈ channelMap, e.1 ≤ 0x64 := by decide
  rw [List.lookup_eq_none_iff]
  intro e he
  have := rows e he
  rw [bne_iff_ne]
  omega

theorem ReservedOffset.isReserved {n a : Nat} (h : ReservedOffset n a) : (regAt n a).IsReserved := by
  have gap (hg : (0x018 ≤ a ∧ a ≤ 0x03C) ∨ a = 0x0BC ∨ (0x0C8 ≤ a ∧ a ≤ 0x0FC)) : (regAt n a).IsReserved :=
    .inl (by rw [regAt_of_lt n (by omega), globalMap_lookup_gap hg]; rfl)
  rcases h with h | h | h | ⟨c, hc, hlo, hhi⟩ | h
  · exact gap (.inl h)
  · exact gap (.inr (.inl h))
  · exact gap (.inr (.inr h))
  · obtain ⟨o, rfl⟩ : ∃ o, a = 0x100 + 0x80 * c + o := ⟨a - (0x100 + 0x80 * c), by omega⟩
    refine .inr ⟨c, ?_⟩
    rw [regAt_channelBlock hc (by omega), channelMap_lookup_gap (by omega)]
    rfl
  · exact .inl (regAt_beyond h)

/-! ## 64-bit registers by name -/

theorem DmxWide.get_set {α : Type} (w : DmxWide α) (v : α) (r r' : DmxWideReg) :
    (w.set v r).get r' = if r' = r then v else w.get r' := by
  cases r <;> cases r' <;> rfl

theorem DlvWide.get_set {α : Type} (w : DlvWide α) (v : α) (r r' : DlvWideReg) :
    (w.set v r).get r' = if r' = r then v else w.get r' := by
  cases r <;> cases r' <;> rfl

theorem DmxWide.eq_of_get_set_ne {α : Type} {w : DmxWide α} {v : α} {r r' : DmxWideReg}
    (h : (w.set v r).get r' ≠ w.get r') : r' = r := by
  rw [DmxWide.get_set] at h
  exact of_not_not fun hne => h (if_neg hne)

theorem DlvWide.eq_of_get_set_ne {α : Type} {w : DlvWide α} {v : α} {r r' : DlvWideReg}
    (h : (w.set v r).get r' ≠ w.get r') : r' = r := by
  rw [DlvWide.get_set] at h
  exact of_not_not fun hne => h (if_neg hne)

/-! ## The words of a register, as its fields in a row -/

theorem fieldAt_zero (w : Word) : fieldAt w 0 = w := by simp [fieldAt]

@[simp] theorem fieldAt_zero_field (n lo : Nat) : fieldAt (0#n) lo = 0#32 := by simp [fieldAt]

/-- A field made of two neighbours is the lower one at its place and the upper one above it. -/
theorem fieldAt_append {m n : Nat} (hi : BitVec m) (lo : BitVec n) (p : Nat) :
    fieldAt (hi ++ lo) p = fieldAt hi (p + n) ||| fieldAt lo p := by
  apply BitVec.eq_of_getLsbD_eq
  intro i hi32
  simp only [fieldAt, BitVec.getLsbD_or, BitVec.getLsbD_shiftLeft, BitVec.getLsbD_setWidth, BitVec.getLsbD_append]
  by_cases hp : i < p
  · simp [hp, show i < p + n by omega]
  · by_cases hn : i - p < n
    · simp [hp, hn, hi32, show i < p + n by omega, show i - p < 32 by omega]
    · simp [hp, hn, hi32, show ¬ i < p + n by omega, show i - p < 32 by omega, show i - (p + n) < 32 by omega,
        Nat.sub_sub, BitVec.getLsbD_of_ge lo (i - p) (by omega)]

theorem Filter.infoWord_eq (f : Filter) :
    f.infoWord = 0#25 ++ f.codec.code ++ 0#1 ++ boolBit f.active ++ boolBit f.invalid ++ boolBit f.seen := by
  rw [← fieldAt_zero (_ ++ _), fieldAt_append (m := 25 + 3 + 1 + 1 + 1), fieldAt_append, fieldAt_append,
    fieldAt_append, fieldAt_append, fieldAt_zero_field, fieldAt_zero_field]
  simp only [Filter.infoWord, flagAt, Nat.reduceAdd, BitVec.zero_or]
  ac_rfl

theorem Dmx.fltLenWord_eq (d : Dmx) : d.fltLenWord = 0#3 ++ d.fltLenSize ++ 0#3 ++ d.fltLenPos := by
  rw [← fieldAt_zero (_ ++ _), fieldAt_append (m := 3 + 13 + 3), fieldAt_append, fieldAt_append,
    fieldAt_zero_field, fieldAt_zero_field, BitVec.zero_or, BitVec.or_zero]
  exact BitVec.or_comm _ _

/-! ## What a read returns and what it copies -/

theorem State.readWord_ch {s : State} {c : Nat} {k : Channel} (h : s.ch[c]? = some k) (r : ChReg) :
    s.readWord (.ch c r) = k.readWord r := by
  simp only [State.readWord, h]

theorem State.snapshot_ch_lo {s : State} {c : Nat} {k : Channel} (h : s.ch[c]? = some k) (r : DlvWideReg) :
    s.snapshot (.ch c (.lo r)) =
      s.setCh c { k with shadow := k.shadow.set ((k.regs.get r).extractLsb' 32 32) r } := by
  simp only [State.snapshot, h, hiHalf]

/-- A read copies into the shadow of its own X_LO, or of FLT_INFO; every other read copies nothing (20_memory.md R111). -/
theorem State.snapshot_cases (s : State) (r : Reg) :
    s.snapshot r = s ∨
    (∃ q, r = .dmxLo q ∧ s.snapshot r =
      s.setDmx { s.dmx with shadow := s.dmx.shadow.set (hiHalf (s.dmx.regs.get q)) q }) ∨
    (r = .fltInfo ∧ s.snapshot r = s.setDmx { s.dmx with
      fltLenPos := (s.filter s.dmx.fltSel).pos
      fltLenSize := (s.filter s.dmx.fltSel).size }) ∨
    (∃ c q k, r = .ch c (.lo q) ∧ s.ch[c]? = some k ∧
      s.snapshot r = s.setCh c { k with shadow := k.shadow.set (hiHalf (k.regs.get q)) q }) := by
  unfold State.snapshot
  split
  · exact .inr (.inl ⟨_, rfl, rfl⟩)
  · exact .inr (.inr (.inl ⟨rfl, rfl⟩))
  · next c q =>
    cases hk : s.ch[c]? with
    | none => exact .inl rfl
    | some k => exact .inr (.inr (.inr ⟨c, q, k, rfl, hk, rfl⟩))
  · exact .inl rfl

@[simp] theorem State.snapshot_env (s : State) (r : Reg) : (s.snapshot r).env = s.env := by
  rcases s.snapshot_cases r with h | ⟨_, _, h⟩ | ⟨_, h⟩ | ⟨_, _, _, _, _, h⟩ <;> simp [h]

theorem State.readWord_popped (s : State) (r : Reg) : s.popped.readWord r = s.readWord r := by
  cases r <;> rfl

theorem State.readWord_of_isReserved (s : State) {r : Reg} (h : r.IsReserved) : s.readWord r = 0#32 := by
  obtain rfl | ⟨c, rfl⟩ := h
  · rfl
  · cases hk : s.ch[c]? with
    | none => simp only [State.readWord, hk]
    | some k => rw [State.readWord_ch hk]; rfl

theorem State.snapshot_of_isReserved (s : State) {r : Reg} (h : r.IsReserved) : s.snapshot r = s := by
  obtain rfl | ⟨c, rfl⟩ := h <;> rfl

/-! ## What a write stores -/

theorem State.setCh_self {s : State} {c : Nat} {k : Channel} (h : s.ch[c]? = some k) : s.setCh c k = s := by
  obtain ⟨hc, rfl⟩ := List.getElem?_eq_some_iff.1 h
  simp [State.setCh]

theorem State.writeWord_ch {s : State} {c : Nat} {k : Channel} (h : s.ch[c]? = some k) (v : Word) (r : ChReg) :
    s.writeWord v (.ch c r) = s.setCh c (k.writeWord v r) := by
  simp only [State.writeWord, h]

theorem State.writeWord_ch_none {s : State} {c : Nat} (h : s.ch[c]? = none) (v : Word) (r : ChReg) :
    s.writeWord v (.ch c r) = s := by
  simp only [State.writeWord, h]

theorem State.writeWord_of_isReserved (s : State) (v : Word) {r : Reg} (h : r.IsReserved) : s.writeWord v r = s := by
  obtain rfl | ⟨c, rfl⟩ := h
  · rfl
  · cases hk : s.ch[c]? with
    | none => exact State.writeWord_ch_none hk v _
    | some k => rw [State.writeWord_ch hk]; exact State.setCh_self hk

/-! ## The two host accesses -/

theorem accessOk_iff (a width : Nat) : accessOk a width = true ↔ width = 4 ∧ a % 4 = 0 := by
  simp [accessOk]

theorem step_hostRead {s : State} {a : BitVec 12} (h : s.nextAction = some (.hostRead a 4)) (ha : a.toNat % 4 = 0) :
    step s = .next ((s.popped.snapshot (regAt s.nDlv a.toNat)).setEnv
      { s.popped.env with hostRd := s.env.hostRd ++ [s.readWord (regAt s.nDlv a.toNat)] }) := by
  rw [step_of_nextAction h]
  simp only [State.act, State.hostRead, (accessOk_iff _ _).2 ⟨rfl, ha⟩, if_true, State.snapshot_env,
    State.readWord_popped, State.popped_nDlv]
  rfl

theorem State.hostWrite_of_ne_cmd {s : State} {a : BitVec 12} (ha : a.toNat % 4 = 0) (v : Word)
    (hr : regAt s.nDlv a.toNat ≠ .cmd) :
    s.hostWrite a 4 v = .next (s.writeWord v (regAt s.nDlv a.toNat)) := by
  simp only [State.hostWrite, (accessOk_iff _ _).2 ⟨rfl, ha⟩, if_true]

theorem step_hostWrite {s : State} {a : BitVec 12} {v : Word} (h : s.nextAction = some (.hostWrite a 4 v))
    (ha : a.toNat % 4 = 0) (hr : regAt s.nDlv a.toNat ≠ .cmd) :
    step s = .next (s.popped.writeWord v (regAt s.nDlv a.toNat)) := by
  rw [step_of_nextAction h]
  exact State.hostWrite_of_ne_cmd (s := s.popped) ha v hr

theorem State.hostWrite_cmd {s : State} {a : BitVec 12} (ha : a.toNat % 4 = 0) (v : Word)
    (hr : regAt s.nDlv a.toNat = .cmd) : s.hostWrite a 4 v = s.command v := by
  simp only [State.hostWrite, (accessOk_iff _ _).2 ⟨rfl, ha⟩, if_true, hr]

theorem State.hostRead_refused (s : State) {a : BitVec 12} {width : Nat} (h : ¬ (width = 4 ∧ a.toNat % 4 = 0)) :
    s.hostRead a width = .refused .hostAccess :=
  if_neg (mt (accessOk_iff _ _).1 h)

theorem State.hostWrite_refused (s : State) {a : BitVec 12} {width : Nat} (v : Word)
    (h : ¬ (width = 4 ∧ a.toNat % 4 = 0)) : s.hostWrite a width v = .refused .hostAccess :=
  if_neg (mt (accessOk_iff _ _).1 h)

/-! ## Every command completes (40_host_commands.md R199) -/

/-- The instruction is one of the six host commands. -/
def IsHostCommand : Instr → Prop
  | .nop | .dmxStart | .dmxStop | .fltReset _ | .dlvStart _ | .dlvStop _ => True
  | .tsAfPayload .. | .tsPayload .. | .tsAfOnly .. | .tsAfcReserved .. | .tsSyncFault .. => False

theorem isHostCommand_of_decodeCommand {w : Word} {i : Instr} (h : decodeCommand w = .ok i) : IsHostCommand i := by
  simp only [decodeCommand] at h
  split_ifs at h <;> cases h <;> trivial

theorem completes_next (s : State) : Completes (.next s) := ⟨s, rfl⟩

theorem exec_command_completes {i : Instr} (hi : IsHostCommand i) (s : State) : Completes (exec i s) := by
  cases i <;> simp only [IsHostCommand] at hi
  case nop => exact completes_next _
  case dmxStart => simp only [exec, execDmxStart]; split <;> exact completes_next _
  case dmxStop => simp only [exec, execDmxStop]; split <;> exact completes_next _
  case fltReset pid => exact completes_next _
  case dlvStart chan =>
    simp only [exec, execDlvStart]
    split
    · exact completes_next _
    · split <;> exact completes_next _
  case dlvStop chan =>
    simp only [exec, execDlvStop]
    split
    · exact completes_next _
    · split <;> exact completes_next _

theorem State.command_completes (s : State) (w : Word) : Completes (s.command w) := by
  unfold State.command
  split
  · next i h => exact exec_command_completes (isHostCommand_of_decodeCommand h) s
  · exact completes_next _

theorem State.hostRead_completes (s : State) {a : BitVec 12} (ha : a.toNat % 4 = 0) : Completes (s.hostRead a 4) := by
  simp only [State.hostRead, (accessOk_iff _ _).2 ⟨rfl, ha⟩, if_true]
  exact completes_next _

theorem State.hostWrite_completes (s : State) {a : BitVec 12} (ha : a.toNat % 4 = 0) (v : Word) :
    Completes (s.hostWrite a 4 v) := by
  by_cases hr : regAt s.nDlv a.toNat = .cmd
  · rw [State.hostWrite_cmd ha v hr]; exact s.command_completes v
  · rw [State.hostWrite_of_ne_cmd ha v hr]; exact completes_next _

end Sys2Proof.Machine
end

section
/-! ## Every agent but a host read and the platform leaves the shadows alone (20_memory.md R106) -/

namespace Sys2Proof.Machine

/-- Every shadow of 20_memory.md R106 is in `t` what it is in `s`. -/
structure ShadowsKept (s t : State) : Prop where
  dmx : t.dmx.shadow = s.dmx.shadow
  fltLenPos : t.dmx.fltLenPos = s.dmx.fltLenPos
  fltLenSize : t.dmx.fltLenSize = s.dmx.fltLenSize
  ch : t.ch.map Channel.shadow = s.ch.map Channel.shadow

theorem ShadowsKept.refl (s : State) : ShadowsKept s s := ⟨rfl, rfl, rfl, rfl⟩

theorem ShadowsKept.channel {s t : State} (h : ShadowsKept s t) {c : Nat} {k k' : Channel} (hk : s.ch[c]? = some k)
    (hk' : t.ch[c]? = some k') : k'.shadow = k.shadow := by
  simpa [hk, hk'] using congrArg (fun l => l[c]?) h.ch

theorem ShadowsKept.of_setCh {s t : State} {c : Nat} {k k1 : Channel} (hk : s.ch[c]? = some k)
    (hshadow : k1.shadow = k.shadow) (hdmx : t.dmx = s.dmx) (hch : t.ch = s.ch.set c k1) : ShadowsKept s t := by
  obtain ⟨hc, rfl⟩ := List.getElem?_eq_some_iff.1 hk
  refine ⟨by rw [hdmx], by rw [hdmx], by rw [hdmx], ?_⟩
  rw [hch, List.map_set, hshadow, ← List.getElem_map Channel.shadow (h := by simpa using hc), List.set_getElem_self]

theorem PacketKeeps.shadowsKept {s t : State} (h : PacketKeeps s t) : ShadowsKept s t :=
  ⟨h.shadow, h.fltLenPos, h.fltLenSize, by rw [h.ch]⟩

theorem Channel.writeWord_shadow (k : Channel) (v : Word) (r : ChReg) : (k.writeWord v r).shadow = k.shadow := by
  cases r <;> rfl

theorem State.writeWord_shadowsKept (s : State) (v : Word) (r : Reg) : ShadowsKept s (s.writeWord v r) := by
  cases r with
  | ch c r =>
    cases hk : s.ch[c]? with
    | none => rw [State.writeWord_ch_none hk]; exact .refl s
    | some k => rw [State.writeWord_ch hk]; exact .of_setCh hk (k.writeWord_shadow v r) rfl rfl
  | _ => exact ⟨rfl, rfl, rfl, rfl⟩

theorem Channel.timestamp_shadow (k : Channel) (ts now : DWord) : (k.timestamp ts now).shadow = k.shadow := by
  have hcheck (k : Channel) : (k.check ts now).shadow = k.shadow := by
    simp only [Channel.check]
    split_ifs <;> rfl
  simp only [Channel.timestamp]
  split_ifs
  · rfl
  · exact hcheck _
  · rfl

theorem Channel.step_shadow {k k1 : Channel} {n : Nat} {now : DWord} {ans : PortAns} {out : Option (List Byte)}
    (h : k.step n now ans = .go k1 out) : k1.shadow = k.shadow := by
  rcases Channel.step_cases h with ⟨_, _, _, rfl⟩ | ⟨_, hfill | htsread | hwait | hwrite⟩
  · rfl
  · obtain ⟨_, _, ⟨_, _, _, _, rfl⟩ | rfl | rfl⟩ := hfill <;> rfl
  · obtain ⟨_, _, ⟨_, _, _, rfl⟩ | rfl | rfl⟩ := htsread
    · exact k.timestamp_shadow _ _
    · rfl
    · rfl
  · obtain ⟨_, _, _, rfl⟩ := hwait
    rfl
  · obtain ⟨_, ⟨_, _, rfl⟩ | ⟨_, _, rfl⟩⟩ := hwrite <;> rfl

theorem dlvStep_shadowsKept {s t : State} {c : Nat} {ans : PortAns} (h : s.dlvStep c ans = .next t) :
    ShadowsKept s t := by
  rcases dlvStep_cases h with rfl | ⟨k, k1, hk, ⟨hstep, rfl⟩ | ⟨chunk, hstep, rfl⟩⟩
  · exact .refl _
  · exact .of_setCh hk (Channel.step_shadow hstep) rfl rfl
  · exact .of_setCh hk (Channel.step_shadow hstep) rfl rfl

theorem exec_shadowsKept {s t : State} {i : Instr} (h : exec i s = .next t) : ShadowsKept s t := by
  cases i with
  | nop => cases h; exact ⟨rfl, rfl, rfl, rfl⟩
  | dmxStart =>
    simp only [exec, execDmxStart] at h
    split at h <;> cases h <;> exact ⟨rfl, rfl, rfl, rfl⟩
  | dmxStop =>
    simp only [exec, execDmxStop] at h
    split at h <;> cases h <;> exact ⟨rfl, rfl, rfl, rfl⟩
  | fltReset pid => cases h; exact ⟨rfl, rfl, rfl, rfl⟩
  | dlvStart chan =>
    simp only [exec, execDlvStart] at h
    split at h
    · cases h; exact ⟨rfl, rfl, rfl, rfl⟩
    next k hk =>
    split at h <;> cases h
    · exact ⟨rfl, rfl, rfl, rfl⟩
    · exact .of_setCh hk (k1 := k.start) rfl rfl rfl
  | dlvStop chan =>
    simp only [exec, execDlvStop] at h
    split at h
    · cases h; exact ⟨rfl, rfl, rfl, rfl⟩
    next k hk =>
    split at h <;> cases h
    · exact .of_setCh hk (k1 := { k with stopReq := true }) rfl rfl rfl
    · exact ⟨rfl, rfl, rfl, rfl⟩
  | tsAfPayload hdr body => exact (exec_packet_keeps (.inl rfl) h).shadowsKept
  | tsPayload hdr body => exact (exec_packet_keeps (.inr (.inl rfl)) h).shadowsKept
  | tsAfOnly hdr body => exact (exec_packet_keeps (.inr (.inr rfl)) h).shadowsKept
  | tsAfcReserved hdr body =>
    cases h
    exact ⟨by rw [received_dmx]; rfl, by rw [received_dmx]; rfl, by rw [received_dmx]; rfl, by rw [received_ch]⟩
  | tsSyncFault sync rest =>
    simp only [exec, execTsSyncFault, Host.Outcome.next.injEq] at h
    subst h
    split <;> exact ⟨rfl, rfl, rfl, rfl⟩

theorem dmxStep_shadowsKept {s t : State} {ans : PortAns} (h : s.dmxStep ans = .next t) : ShadowsKept s t := by
  rcases dmxStep_cases h with
    rfl | ⟨_, _, rfl⟩ | ⟨_, _, _, ⟨_, _, _, _, hexec⟩ | ⟨n, _, _, rfl⟩ | ⟨_, rfl⟩⟩
  · exact .refl _
  · exact ⟨rfl, rfl, rfl, rfl⟩
  · exact exec_shadowsKept hexec
  · rcases dmxEos_cases s n with ⟨_, heos⟩ | ⟨_, heos⟩ <;> rw [heos] <;> exact ⟨rfl, rfl, rfl, rfl⟩
  · exact ⟨rfl, rfl, rfl, rfl⟩

theorem hostWrite_shadowsKept {s t : State} {a : BitVec 12} {n : Nat} {v : Word} (h : s.hostWrite a n v = .next t) :
    ShadowsKept s t := by
  obtain ⟨_, _, ⟨_, hcmd⟩ | ⟨_, rfl⟩⟩ := hostWrite_cases h
  · rcases command_cases hcmd with ⟨_, _, hexec⟩ | ⟨_, _, rfl⟩
    · exact exec_shadowsKept hexec
    · exact ⟨rfl, rfl, rfl, rfl⟩
  · exact s.writeWord_shadowsKept v _

theorem takeRecord_shadowsKept (s : State) : ShadowsKept s s.takeRecord := by
  unfold State.takeRecord
  split <;> exact ⟨rfl, rfl, rfl, rfl⟩

theorem wallStep_shadowsKept {s t : State} {ns : DWord} (h : s.wallStep ns = .next t) : ShadowsKept s t := by
  unfold State.wallStep at h
  split at h <;> cases h
  exact ⟨rfl, rfl, rfl, rfl⟩

/-- A step keeps every shadow, or is a hardware reset, or is a host read, whose effect on the shadows is its snapshot. -/
theorem step_shadows {s t : State} (h : step s = .next t) :
    ShadowsKept s t ∨ s.nextAction = some .reset ∨
      ∃ a e, s.nextAction = some (.hostRead a 4) ∧ t = (s.popped.snapshot (regAt s.nDlv a.toNat)).setEnv e := by
  rcases step_cases h with ⟨_, rfl⟩ | ⟨act, hact, h⟩
  · exact .inl (.refl _)
  have kept (hk : ShadowsKept s.popped t) : ShadowsKept s t := ⟨hk.dmx, hk.fltLenPos, hk.fltLenSize, hk.ch⟩
  cases act with
  | hostRead a width =>
    obtain ⟨rfl, _, rfl⟩ := hostRead_cases h
    exact .inr (.inr ⟨a, _, hact, rfl⟩)
  | hostWrite a width v => exact .inl (kept (hostWrite_shadowsKept h))
  | dmx ans => exact .inl (kept (dmxStep_shadowsKept h))
  | dlv c ans => exact .inl (kept (dlvStep_shadowsKept h))
  | take => cases h; exact .inl (kept (takeRecord_shadowsKept _))
  | wall ns => exact .inl (kept (wallStep_shadowsKept h))
  | reset => exact .inr (.inl hact)

/-! ### What a snapshot changes -/

theorem State.eq_dmxLo_of_snapshot {s : State} {r : Reg} {q : DmxWideReg}
    (h : (s.snapshot r).dmx.shadow.get q ≠ s.dmx.shadow.get q) : r = .dmxLo q := by
  rcases s.snapshot_cases r with heq | ⟨q', rfl, heq⟩ | ⟨_, heq⟩ | ⟨_, _, _, _, _, heq⟩ <;> rw [heq] at h
  · exact absurd rfl h
  · rw [DmxWide.eq_of_get_set_ne h]
  · exact absurd rfl h
  · exact absurd rfl h

theorem State.eq_fltInfo_of_snapshot {s : State} {r : Reg}
    (h : (s.snapshot r).dmx.fltLenPos ≠ s.dmx.fltLenPos ∨ (s.snapshot r).dmx.fltLenSize ≠ s.dmx.fltLenSize) :
    r = .fltInfo := by
  rcases s.snapshot_cases r with heq | ⟨_, _, heq⟩ | ⟨rfl, _⟩ | ⟨_, _, _, _, _, heq⟩
  · simp [heq] at h
  · simp [heq] at h
  · rfl
  · simp [heq] at h

theorem State.eq_chLo_of_snapshot {s : State} {r : Reg} {c : Nat} {k k' : Channel} {q : DlvWideReg}
    (hk : s.ch[c]? = some k) (hk' : (s.snapshot r).ch[c]? = some k') (h : k'.shadow.get q ≠ k.shadow.get q) :
    r = .ch c (.lo q) := by
  have unchanged (hch : (s.snapshot r).ch[c]? = s.ch[c]?) : False := by
    obtain rfl : k = k' := by simpa [hk, hk'] using hch.symm
    exact h rfl
  rcases s.snapshot_cases r with heq | ⟨_, _, heq⟩ | ⟨_, heq⟩ | ⟨c', q', k₀, rfl, hk₀, heq⟩
  · exact (unchanged (by rw [heq])).elim
  · exact (unchanged (by rw [heq]; rfl)).elim
  · exact (unchanged (by rw [heq]; rfl)).elim
  · by_cases hc : c' = c
    · subst hc
      obtain rfl : k₀ = k := by simpa [hk₀] using hk
      obtain ⟨hlt, -⟩ := List.getElem?_eq_some_iff.1 hk
      rw [heq, State.setCh_ch, List.getElem?_set_self hlt, Option.some.injEq] at hk'
      subst hk'
      rw [DlvWide.eq_of_get_set_ne h]
    · exact (unchanged (by rw [heq, State.setCh_ch, List.getElem?_set_ne hc])).elim

end Sys2Proof.Machine
end

section
/-! ## The statements -/

namespace Sys2Proof.Proofs

open Sys2Proof.Machine

/-- Settles O56: an aligned read always answers; an aligned write is a register write or a command, and every command
completes, with its effect or with its rejection. -/
theorem onlyAlignedWordsAreAdmitted : Obligations.OnlyAlignedWordsAreAdmitted := by
  rintro s a width v (h | h) <;> rw [step_of_nextAction h] <;> constructor
  · rintro ⟨rfl, ha⟩
    exact s.popped.hostRead_completes ha
  · exact s.popped.hostRead_refused
  · rintro ⟨rfl, ha⟩
    exact s.popped.hostWrite_completes ha v
  · exact s.popped.hostWrite_refused v

/-- Settles O50: no row of the map names a reserved offset, and neither access does anything at such a register. -/
theorem reservedOffsetsReadZero : Obligations.ReservedOffsetsReadZero := by
  intro s a v ha h
  have hr : (regAt s.nDlv a.toNat).IsReserved := ReservedOffset.isReserved h
  constructor
  · intro hact
    rw [step_hostRead hact ha, State.snapshot_of_isReserved _ hr, State.readWord_of_isReserved _ hr]
    rfl
  · intro hact
    rw [step_hostWrite hact ha hr.ne_cmd, State.writeWord_of_isReserved _ v hr]

theorem step_hostRead_fltInfo {s : State} (h : s.nextAction = some (.hostRead 0x07C#12 4)) :
    step s = .next { s.popped with
      dmx := { s.dmx with
        fltLenPos := (s.filter s.dmx.fltSel).pos
        fltLenSize := (s.filter s.dmx.fltSel).size }
      env := { s.popped.env with hostRd := s.env.hostRd ++
        [0#25 ++ (s.filter s.dmx.fltSel).codec.code ++ 0#1 ++ boolBit (s.filter s.dmx.fltSel).active ++
          boolBit (s.filter s.dmx.fltSel).invalid ++ boolBit (s.filter s.dmx.fltSel).seen] } } := by
  have hreg : regAt s.nDlv (0x07C#12).toNat = .fltInfo := rfl
  rw [step_hostRead h rfl, hreg, ← Filter.infoWord_eq]
  rfl

theorem step_hostRead_fltLen {s : State} (h : s.nextAction = some (.hostRead 0x0B8#12 4)) :
    step s = .next { s.popped with
      env := { s.popped.env with
        hostRd := s.env.hostRd ++ [0#3 ++ s.dmx.fltLenSize ++ 0#3 ++ s.dmx.fltLenPos] } } := by
  have hreg : regAt s.nDlv (0x0B8#12).toNat = .fltLen := rfl
  rw [step_hostRead h rfl, hreg, ← Dmx.fltLenWord_eq]
  rfl

/-- A shadow that a step other than hardware reset changes is that of the register the host has read. -/
theorem shadow_changed_only_by_its_read {s t : State} (h : step s = .next t) (hreset : s.nextAction ≠ some .reset) :
    (∀ r, t.dmx.shadow.get r ≠ s.dmx.shadow.get r →
      ∃ a, s.nextAction = some (.hostRead a 4) ∧ regAt s.nDlv a.toNat = .dmxLo r) ∧
    (t.dmx.fltLenPos ≠ s.dmx.fltLenPos ∨ t.dmx.fltLenSize ≠ s.dmx.fltLenSize →
      s.nextAction = some (.hostRead 0x07C#12 4)) ∧
    (∀ c k k' r, s.ch[c]? = some k → t.ch[c]? = some k' → k'.shadow.get r ≠ k.shadow.get r →
      ∃ a, s.nextAction = some (.hostRead a 4) ∧ regAt s.nDlv a.toNat = .ch c (.lo r)) := by
  rcases step_shadows h with hkept | hact | ⟨a, e, hact, rfl⟩
  · refine ⟨fun r hne => ?_, fun hne => ?_, fun c k k' r hk hk' hne => ?_⟩
    · exact absurd (by rw [hkept.dmx]) hne
    · simp [hkept.fltLenPos, hkept.fltLenSize] at hne
    · exact absurd (by rw [hkept.channel hk hk']) hne
  · exact absurd hact hreset
  · refine ⟨fun r hne => ⟨a, hact, State.eq_dmxLo_of_snapshot (s := s.popped) hne⟩, fun hne => ?_,
      fun c k k' r hk hk' hne => ⟨a, hact, State.eq_chLo_of_snapshot (s := s.popped) hk hk' hne⟩⟩
    have ha : a.toNat = 0x07C := eq_of_regAt_fltInfo (State.eq_fltInfo_of_snapshot (s := s.popped) hne)
    rw [hact, BitVec.eq_of_toNat_eq (y := 0x07C#12) ha]

/-- Settles O51: the map places the 64-bit registers, a shadow is written by the snapshot of its own register's read, and
every other agent keeps all shadows. -/
theorem snapshotProtocol : Obligations.SnapshotProtocol := by
  refine ⟨regAt_dmxWideOffsets, fun n c hc => regAt_dlvWideOffsets hc, fun α w => ⟨rfl, w.get_set⟩,
    fun α w => ⟨rfl, w.get_set⟩, fun n hw env => ⟨rfl, rfl, rfl, fun k hk => ?_⟩,
    fun s => ⟨step_hostRead_fltInfo, step_hostRead_fltLen⟩, fun s a r hact ha => ⟨fun hreg => ?_, fun hreg => ?_⟩,
    fun s a c k r hact ha hk => ⟨fun hreg => ?_, fun hreg => ?_⟩, fun s t => shadow_changed_only_by_its_read⟩
  · rw [List.eq_of_mem_replicate hk]; rfl
  · rw [step_hostRead hact ha, hreg]; rfl
  · rw [step_hostRead hact ha, hreg]; rfl
  · rw [step_hostRead hact ha, hreg, State.snapshot_ch_lo (s := s.popped) hk, State.readWord_ch hk]; rfl
  · rw [step_hostRead hact ha, hreg, State.readWord_ch hk]; rfl

end Sys2Proof.Proofs
end

/-! PROOFS. The encoding (30_encoding.md): the layer of facts about the command decoder's refusals and about the bits and
the bytes of the header word; then the statements of R132 and of R135 and R137. -/

section
/-! ## The command decoder's refusals (30_encoding.md R132) -/

namespace Sys2Proof

/-- The OPCODEs of the map of R131. -/
def commandOpcodes : List Byte := [0x00#8, 0x01#8, 0x02#8, 0x03#8, 0x10#8, 0x11#8]

/-- The reserved bits of a command word and the fields its OPCODE does not use are 0 (R130, R131). -/
def UnusedBitsZero (w : Word) : Prop :=
  cmdReservedZero w = true ∧ (cmdOpcode w ∈ [0x10#8, 0x11#8] ∨ cmdChan w = 0#4) ∧
    (cmdOpcode w = 0x03#8 ∨ cmdPid w = 0#13)

theorem decodeCommand_of_unknown_opcode {w : Word} (h : cmdOpcode w ∉ commandOpcodes) :
    decodeCommand w = .error .reservedOpcode := by
  simp only [commandOpcodes, List.mem_cons, List.not_mem_nil, or_false, not_or] at h
  obtain ⟨hnop, hdmxStart, hdmxStop, hfltReset, hdlvStart, hdlvStop⟩ := h
  simp only [decodeCommand, hnop, hdmxStart, hdmxStop, hfltReset, hdlvStart, hdlvStop, if_false]

theorem decodeCommand_of_not_unusedBitsZero {w : Word} (hop : cmdOpcode w ∈ commandOpcodes)
    (h : ¬ UnusedBitsZero w) : decodeCommand w = .error .reservedBits := by
  simp only [commandOpcodes, List.mem_cons, List.not_mem_nil, or_false] at hop
  rcases hop with hop | hop | hop | hop | hop | hop <;>
    simpa [decodeCommand, UnusedBitsZero, hop] using h

end Sys2Proof

namespace Sys2Proof.Machine

theorem State.command_of_error (s : State) {w : Word} {e : DecodeError} (h : decodeCommand w = .error e) :
    s.command w = .next (s.reject (cmdOpcode w) (DecodeError.reason e)) := by
  simp only [State.command, h]

theorem step_command {s : State} {w : Word} (h : s.nextAction = some (.hostWrite 0x004#12 4 w)) :
    step s = s.popped.command w := by
  rw [step_of_nextAction h]
  exact State.hostWrite_cmd (s := s.popped) rfl w rfl

theorem step_command_of_error {s : State} {w : Word} {e : DecodeError}
    (h : s.nextAction = some (.hostWrite 0x004#12 4 w)) (he : decodeCommand w = .error e) :
    step s = .next (s.popped.reject (cmdOpcode w) (DecodeError.reason e)) := by
  rw [step_command h, State.command_of_error _ he]

end Sys2Proof.Machine
end

section
/-! ## The header word by its bits (30_encoding.md R134, R137) -/

namespace Sys2Proof

theorem append_eq_append_iff {m n : Nat} {x x' : BitVec m} {y y' : BitVec n} :
    x ++ y = x' ++ y' ↔ x = x' ∧ y = y' := by
  refine ⟨fun h => ⟨?_, ?_⟩, fun ⟨hx, hy⟩ => by rw [hx, hy]⟩
  · simpa only [BitVec.extractLsb'_append_eq_left] using congrArg (·.extractLsb' n m) h
  · simpa only [BitVec.extractLsb'_append_eq_right] using congrArg (·.extractLsb' 0 n) h

theorem toNat_append_eq_mul_add {m n : Nat} (x : BitVec m) (y : BitVec n) :
    (x ++ y).toNat = x.toNat * 2 ^ n + y.toNat := by
  rw [BitVec.toNat_append, ← Nat.shiftLeft_add_eq_or_of_lt y.isLt, Nat.shiftLeft_eq]

/-- A header word, cut at its sync byte and its AFC. -/
theorem header_split (h : Word) :
    h.extractLsb' 24 8 ++ h.extractLsb' 6 18 ++ h.extractLsb' 4 2 ++ h.extractLsb' 0 4 = h := by
  rw [BitVec.extractLsb'_append_extractLsb'_eq_extractLsb' (show 24 = 6 + 18 from rfl),
    BitVec.extractLsb'_append_extractLsb'_eq_extractLsb' (show 6 = 4 + 2 from rfl),
    BitVec.extractLsb'_append_extractLsb'_eq_extractLsb' (show 4 = 0 + 4 from rfl)]
  exact BitVec.extractLsb'_eq_self

theorem and_classMask (h : Word) :
    h &&& 0xFF000030#32 = h.extractLsb' 24 8 ++ 0#18 ++ h.extractLsb' 4 2 ++ 0#4 := by
  have hmask : 0xFF000030#32 = BitVec.allOnes 8 ++ 0#18 ++ BitVec.allOnes 2 ++ 0#4 := rfl
  conv_lhs => rw [← header_split h, hmask]
  rw [BitVec.and_append, BitVec.and_append, BitVec.and_append, BitVec.and_allOnes, BitVec.and_allOnes, BitVec.and_zero,
    BitVec.and_zero]

/-- The match of a row of R137 that asks for SYNC_BYTE and an AFC. -/
theorem and_classMask_eq_iff (h : Word) (afc : BitVec 2) :
    h &&& 0xFF000030#32 = Config.syncByte ++ 0#18 ++ afc ++ 0#4 ↔
      h.extractLsb' 24 8 = 0x47#8 ∧ h.extractLsb' 4 2 = afc := by
  rw [and_classMask, BitVec.append_left_inj, append_eq_append_iff, BitVec.append_left_inj]
  rfl

/-- The four rows of R137 with SYNC_BYTE leave out no AFC. -/
theorem afc_cases : ∀ afc : BitVec 2, afc = 3#2 ∨ afc = 1#2 ∨ afc = 2#2 ∨ afc = 0#2 := by decide

theorem headerClass_eq (h : Word) :
    headerClass h =
      if h.extractLsb' 24 8 = 0x47#8 then
        if h.extractLsb' 4 2 = 3#2 then .afPayload
        else if h.extractLsb' 4 2 = 1#2 then .payload
        else if h.extractLsb' 4 2 = 2#2 then .afOnly
        else .afcReserved
      else .syncFault := by
  have hrows : headerClass h =
      if h &&& 0xFF000030#32 = Config.syncByte ++ 0#18 ++ 3#2 ++ 0#4 then .afPayload
      else if h &&& 0xFF000030#32 = Config.syncByte ++ 0#18 ++ 1#2 ++ 0#4 then .payload
      else if h &&& 0xFF000030#32 = Config.syncByte ++ 0#18 ++ 2#2 ++ 0#4 then .afOnly
      else if h &&& 0xFF000030#32 = Config.syncByte ++ 0#18 ++ 0#2 ++ 0#4 then .afcReserved
      else .syncFault := rfl
  simp only [hrows, and_classMask_eq_iff]
  by_cases hsync : h.extractLsb' 24 8 = 0x47#8
  · rcases afc_cases (h.extractLsb' 4 2) with hafc | hafc | hafc | hafc <;> simp [hsync, hafc]
  · simp [hsync]

end Sys2Proof
end

section
/-! ## The header word by its bytes (30_encoding.md R134, R135) -/

namespace Sys2Proof

variable {b : List Byte}

/-- H is the first four bytes in a row, grouped around the two that hold the PID. -/
theorem headerWord_eq (hb : 4 ≤ b.length) :
    headerWord b = byteAt b 0 ++ (byteAt b 1 ++ byteAt b 2) ++ byteAt b 3 := by
  match b, hb with
  | b0 :: b1 :: b2 :: b3 :: _, _ =>
    apply BitVec.eq_of_toNat_eq
    have hlt := (b0 ++ (b1 ++ b2) ++ b3).isLt
    simp only [toNat_append_eq_mul_add] at hlt
    simp only [headerWord, beNat, byteAt, List.take, List.foldl, List.getD_cons_zero, List.getD_cons_succ,
      toNat_append_eq_mul_add, BitVec.toNat_ofNat]
    omega

theorem syncByte_headerWord (hb : 4 ≤ b.length) : (headerWord b).extractLsb' 24 8 = byteAt b 0 := by
  rw [headerWord_eq hb, BitVec.extractLsb'_append_eq_of_le (by decide), BitVec.extractLsb'_append_eq_of_le (by decide)]
  exact BitVec.extractLsb'_eq_self

theorem pid_headerWord (hb : 4 ≤ b.length) :
    (headerWord b).extractLsb' 8 13 = (byteAt b 1).extractLsb' 0 5 ++ byteAt b 2 := by
  rw [headerWord_eq hb, BitVec.extractLsb'_append_eq_of_le (by decide),
    BitVec.extractLsb'_append_eq_of_add_le (by decide)]
  exact Machine.pid13_eq _ _

/-- The bits of b[1]: they stand at 16 and above in H. -/
theorem getLsbD_headerWord (hb : 4 ≤ b.length) {i : Nat} (hi : i < 8) :
    (headerWord b).getLsbD (16 + i) = (byteAt b 1).getLsbD i := by
  have hplace : 16 + i - 8 - 8 = i := by omega
  rw [headerWord_eq hb, BitVec.getLsbD_append, if_neg (by omega), BitVec.getLsbD_append, if_pos (by omega),
    BitVec.getLsbD_append, if_neg (by omega), hplace]

/-- The fields inside b[3]: it is the low byte of H. -/
theorem extractLsb'_headerWord (hb : 4 ≤ b.length) {lo len : Nat} (h : lo + len ≤ 8) :
    (headerWord b).extractLsb' lo len = (byteAt b 3).extractLsb' lo len := by
  rw [headerWord_eq hb, BitVec.extractLsb'_append_eq_of_add_le h]

theorem headerFields_headerWord (hb : 4 ≤ b.length) :
    headerFields (headerWord b) =
      { tei := (byteAt b 1).getLsbD 7
        pusi := (byteAt b 1).getLsbD 6
        prio := (byteAt b 1).getLsbD 5
        pid := (byteAt b 1).extractLsb' 0 5 ++ byteAt b 2
        tsc := (byteAt b 3).extractLsb' 6 2
        cc := (byteAt b 3).extractLsb' 0 4 } := by
  rw [headerFields, pid_headerWord hb, extractLsb'_headerWord hb (by decide), extractLsb'_headerWord hb (by decide),
    ← getLsbD_headerWord hb (i := 7) (by decide), ← getLsbD_headerWord hb (i := 6) (by decide),
    ← getLsbD_headerWord hb (i := 5) (by decide)]

theorem headerClass_headerWord (hb : 4 ≤ b.length) :
    headerClass (headerWord b) =
      if byteAt b 0 = 0x47#8 then
        if (byteAt b 3).extractLsb' 4 2 = 3#2 then .afPayload
        else if (byteAt b 3).extractLsb' 4 2 = 1#2 then .payload
        else if (byteAt b 3).extractLsb' 4 2 = 2#2 then .afOnly
        else .afcReserved
      else .syncFault := by
  rw [headerClass_eq, syncByte_headerWord hb, extractLsb'_headerWord hb (by decide)]

/-- The instruction of a packet class: the fields and the bytes of the packet that it carries. -/
def TsClass.instr (hdr : TsHdr) (b : List Byte) : TsClass → Instr
  | .afPayload => .tsAfPayload hdr (b.drop 4)
  | .payload => .tsPayload hdr (b.drop 4)
  | .afOnly => .tsAfOnly hdr (b.drop 4)
  | .afcReserved => .tsAfcReserved hdr (b.drop 4)
  | .syncFault => .tsSyncFault (byteAt b 0) (b.drop 1)

theorem decodePacket_eq (hb : b.length = Config.pktSize) :
    decodePacket b = .ok ((headerClass (headerWord b)).instr (headerFields (headerWord b)) b) := by
  simp only [decodePacket, if_pos hb]
  cases headerClass (headerWord b) <;> rfl

end Sys2Proof
end

section
/-! ## The statements -/

namespace Sys2Proof.Proofs

open Sys2Proof.Machine

/-- Settles O4: the decoder refuses the word, for the reserved OPCODE first, and a refused word is rejected with the
decoder's reason. -/
theorem badCommandWordsAreRejected : Obligations.BadCommandWordsAreRejected := by
  intro s w h op known clean rejected
  have hclean : UnusedBitsZero w ↔ clean := by
    rw [UnusedBitsZero, cmdReservedZero, Bool.and_eq_true, beq_iff_eq, beq_iff_eq, and_assoc]
    rfl
  constructor
  · intro hop
    exact step_command_of_error h (decodeCommand_of_unknown_opcode hop)
  · intro hop hused
    exact step_command_of_error h (decodeCommand_of_not_unusedBitsZero hop (mt hclean.1 hused))

/-- Settles O5: the class and the fields of the header word are read off the first four bytes, and each class keeps the
rest of the packet. -/
theorem headerBytesSelectTheClass : Obligations.HeaderBytesSelectTheClass := by
  intro b hlen hdr afc
  have hb : 4 ≤ b.length := by omega
  rw [decodePacket_eq hlen, headerFields_headerWord hb, headerClass_headerWord hb]
  refine ⟨?_, ?_, ?_, ?_, fun hsync => by rw [if_neg hsync]; rfl⟩
  all_goals
    rintro ⟨hsync, hafc⟩
    rw [if_pos hsync, show (byteAt b 3).extractLsb' 4 2 = _ from hafc]
    rfl

end Sys2Proof.Proofs
end

/-! PROOFS. The host's commands and register writes (40_host_commands.md): the layer of facts about the layout of a command
word, about each command's cases, about the two cancel steps, and about which registers a write can change; then the
statements of R200, R202 to R206 and R208. -/

section
/-! ## Command words by their fields (30_encoding.md R130) -/

namespace Sys2Proof

/-- A command word, cut at its fields. -/
theorem command_split (w : Word) :
    w.extractLsb' 29 3 ++ cmdPid w ++ w.extractLsb' 12 4 ++ cmdChan w ++ cmdOpcode w = w := by
  rw [cmdPid, cmdChan, cmdOpcode, BitVec.extractLsb'_append_extractLsb'_eq_extractLsb' (show 29 = 16 + 13 from rfl),
    BitVec.extractLsb'_append_extractLsb'_eq_extractLsb' (show 16 = 12 + 4 from rfl),
    BitVec.extractLsb'_append_extractLsb'_eq_extractLsb' (show 12 = 8 + 4 from rfl),
    BitVec.extractLsb'_append_extractLsb'_eq_extractLsb' (show 8 = 0 + 8 from rfl)]
  exact BitVec.extractLsb'_eq_self

/-- The parts of a row of bit fields are the parts it was made of. -/
theorem fields_cmdWord (opcode : Byte) (chan : Chan) (pid : Pid) :
    cmdOpcode (cmdWord opcode chan pid) = opcode ∧ cmdChan (cmdWord opcode chan pid) = chan ∧
      cmdPid (cmdWord opcode chan pid) = pid := by
  have h := command_split (cmdWord opcode chan pid)
  rw [show cmdWord opcode chan pid = 0#3 ++ pid ++ 0#4 ++ chan ++ opcode from rfl] at h ⊢
  simp only [append_eq_append_iff] at h
  obtain ⟨⟨⟨⟨-, hpid⟩, -⟩, hchan⟩, hopcode⟩ := h
  exact ⟨hopcode, hchan, hpid⟩

@[simp] theorem cmdOpcode_cmdWord (opcode : Byte) (chan : Chan) (pid : Pid) :
    cmdOpcode (cmdWord opcode chan pid) = opcode := (fields_cmdWord opcode chan pid).1

@[simp] theorem cmdChan_cmdWord (opcode : Byte) (chan : Chan) (pid : Pid) :
    cmdChan (cmdWord opcode chan pid) = chan := (fields_cmdWord opcode chan pid).2.1

@[simp] theorem cmdPid_cmdWord (opcode : Byte) (chan : Chan) (pid : Pid) :
    cmdPid (cmdWord opcode chan pid) = pid := (fields_cmdWord opcode chan pid).2.2

/-- R130 as a sum of shifted fields, as the rules of 40_host_commands.md write their words. -/
theorem cmdWord_eq_fieldAt (opcode : Byte) (chan : Chan) (pid : Pid) :
    cmdWord opcode chan pid =
      Machine.fieldAt pid 16 ||| Machine.fieldAt chan 8 ||| Machine.fieldAt opcode 0 := by
  rw [← Machine.fieldAt_zero (cmdWord _ _ _), show cmdWord opcode chan pid = 0#3 ++ pid ++ 0#4 ++ chan ++ opcode from rfl,
    Machine.fieldAt_append (m := 3 + 13 + 4 + 4), Machine.fieldAt_append (m := 3 + 13 + 4),
    Machine.fieldAt_append (m := 3 + 13), Machine.fieldAt_append, Machine.fieldAt_zero_field, Machine.fieldAt_zero_field,
    BitVec.zero_or, BitVec.or_zero]

theorem decodeCommand_fltReset_word (p : Pid) :
    decodeCommand (p.setWidth 32 <<< 16 ||| 0x03#32) = .ok (.fltReset p) := by
  have hword : p.setWidth 32 <<< 16 ||| 0x03#32 = cmdWord 0x03#8 0#4 p := by
    rw [cmdWord_eq_fieldAt, Machine.fieldAt_zero_field, BitVec.or_zero]
    rfl
  simp [hword, decodeCommand, Laws.reservedZero_cmdWord]

/-- The word `(c << 8) | opcode` of R204 and R205. -/
theorem channelWord_eq_cmdWord (opcode : Byte) (c : Chan) :
    c.setWidth 32 <<< 8 ||| opcode.setWidth 32 = cmdWord opcode c 0#13 := by
  rw [cmdWord_eq_fieldAt, Machine.fieldAt_zero_field, BitVec.zero_or]
  simp [Machine.fieldAt]

theorem decodeCommand_dlvStart_word (c : Chan) :
    decodeCommand (c.setWidth 32 <<< 8 ||| 0x10#32) = .ok (.dlvStart c) := by
  have hword : c.setWidth 32 <<< 8 ||| 0x10#32 = cmdWord 0x10#8 c 0#13 := channelWord_eq_cmdWord 0x10#8 c
  simp [hword, decodeCommand, Laws.reservedZero_cmdWord]

theorem decodeCommand_dlvStop_word (c : Chan) :
    decodeCommand (c.setWidth 32 <<< 8 ||| 0x11#32) = .ok (.dlvStop c) := by
  have hword : c.setWidth 32 <<< 8 ||| 0x11#32 = cmdWord 0x11#8 c 0#13 := channelWord_eq_cmdWord 0x11#8 c
  simp [hword, decodeCommand, Laws.reservedZero_cmdWord]

/-! ### Words with a bit set that their opcode does not use (30_encoding.md R132) -/

theorem cmdReservedZero_iff (w : Word) :
    cmdReservedZero w = true ↔ w.extractLsb' 12 4 = 0#4 ∧ w.extractLsb' 29 3 = 0#3 := by
  simp [cmdReservedZero]

theorem UnusedBitsZero.reservedBits {w : Word} (h : UnusedBitsZero w) :
    w.extractLsb' 12 4 = 0#4 ∧ w.extractLsb' 29 3 = 0#3 :=
  (cmdReservedZero_iff w).1 h.1

theorem eq_cmdWord_of_reservedZero {w : Word} (h : cmdReservedZero w = true) :
    w = cmdWord (cmdOpcode w) (cmdChan w) (cmdPid w) := by
  obtain ⟨hlow, hhigh⟩ := (cmdReservedZero_iff w).1 h
  conv_lhs => rw [← command_split w, hlow, hhigh]
  rfl

theorem UnusedBitsZero.eq_cmdWord {w : Word} (h : UnusedBitsZero w) (hchan : cmdOpcode w ∉ [0x10#8, 0x11#8])
    (hpid : cmdOpcode w ≠ 0x03#8) : w = cmdWord (cmdOpcode w) 0#4 0#13 := by
  obtain ⟨hreserved, hc, hp⟩ := h
  rw [← hc.resolve_left hchan, ← hp.resolve_left hpid]
  exact eq_cmdWord_of_reservedZero hreserved

/-- CHAN and the reserved bits above it are the second byte of a command word. -/
theorem UnusedBitsZero.second_byte {w : Word} (h : UnusedBitsZero w) (hchan : cmdOpcode w ∉ [0x10#8, 0x11#8]) :
    w.extractLsb' 8 8 = 0#8 := by
  obtain ⟨hlow, -⟩ := h.reservedBits
  obtain ⟨-, hc, -⟩ := h
  have hbyte : w.extractLsb' 8 8 = w.extractLsb' 12 4 ++ cmdChan w :=
    (BitVec.extractLsb'_append_extractLsb'_eq_extractLsb' (show 12 = 8 + 4 from rfl)).symm
  rw [hbyte, hlow, hc.resolve_left hchan]
  rfl

/-- Above CHAN stand PID and reserved bits only. -/
theorem UnusedBitsZero.above_chan {w : Word} (h : UnusedBitsZero w) (hpid : cmdOpcode w ≠ 0x03#8) :
    w.extractLsb' 12 20 = 0#20 := by
  obtain ⟨hlow, hhigh⟩ := h.reservedBits
  obtain ⟨-, -, hp⟩ := h
  have hbits : w.extractLsb' 12 20 = w.extractLsb' 29 3 ++ cmdPid w ++ w.extractLsb' 12 4 := by
    rw [cmdPid, BitVec.extractLsb'_append_extractLsb'_eq_extractLsb' (show 29 = 16 + 13 from rfl),
      BitVec.extractLsb'_append_extractLsb'_eq_extractLsb' (show 16 = 12 + 4 from rfl)]
  rw [hbits, hlow, hhigh, hp.resolve_left hpid]
  rfl

end Sys2Proof
end

section
/-! ## What each command does (40_host_commands.md R199 to R205) -/

namespace Sys2Proof.Machine

variable {s : State}

theorem State.command_of_stray_bits (s : State) {w : Word} {opcode : Byte} (hopcode : cmdOpcode w = opcode)
    (hknown : opcode ∈ commandOpcodes) (h : ¬ UnusedBitsZero w) :
    s.command w = .next (s.reject opcode .reservedBits) := by
  subst hopcode
  exact s.command_of_error (decodeCommand_of_not_unusedBitsZero hknown h)

/-- An opcode that uses neither CHAN nor PID has one word; every other one is rejected. -/
theorem State.command_of_ne_cmdWord (s : State) {w : Word} {opcode : Byte} (hopcode : cmdOpcode w = opcode)
    (hknown : opcode ∈ [0x00#8, 0x01#8, 0x02#8]) (hw : w ≠ cmdWord opcode 0#4 0#13) :
    s.command w = .next (s.reject opcode .reservedBits) := by
  have plain : ∀ o ∈ [0x00#8, 0x01#8, 0x02#8], o ∈ commandOpcodes ∧ o ∉ [0x10#8, 0x11#8] ∧ o ≠ 0x03#8 := by decide
  obtain ⟨hmem, hchan, hpid⟩ := plain opcode hknown
  subst hopcode
  exact s.command_of_stray_bits rfl hmem fun hclean => hw (hclean.eq_cmdWord hchan hpid)

theorem exec_dmxStop_of_run (h : s.dmx.phase = .run) :
    exec .dmxStop s = .next (s.accept.setDmx { s.dmx with stopReq := true }) :=
  if_pos h

theorem exec_dmxStop_of_not_run (h : s.dmx.phase ≠ .run) : exec .dmxStop s = .next s.accept :=
  if_neg h

/-- FLT_RESET clears in its own filter what R203 names and keeps the rest of the table. -/
theorem fltReset_filter (s : State) (p q : Pid) :
    (s.setFilter p { s.filter p with invalid := false, active := false, size := 0#13, pos := 0#13 }).filter q =
      if q = p then { s.filter q with invalid := false, active := false, size := 0#13, pos := 0#13 }
      else s.filter q := by
  rw [State.filter_setFilter]
  by_cases hq : q = p
  · subst hq; rfl
  · rw [if_neg hq, if_neg hq]

/-- Without a section in progress a packet that starts no payload offers nothing (42 R261). -/
theorem State.sectionInput_of_inactive {p : Pid} (h : (s.filter p).active = false) (payload : List Byte) :
    s.sectionInput p false payload = .ok s := by
  simp [State.sectionInput, h]

theorem DlvPhase.running_iff (p : DlvPhase) : p.running = true ↔ p ∉ [DlvPhase.idle, .done] := by
  cases p <;> decide

theorem DlvPhase.not_running_iff (p : DlvPhase) : p.running = false ↔ p ∈ [DlvPhase.idle, .done] := by
  cases p <;> decide

section Channel

variable {c : Chan} {k : Channel}

theorem exec_dlvStart_of_no_channel (h : s.nDlv ≤ c.toNat) :
    exec (.dlvStart c) s = .next (s.reject 0x10#8 .channel) := by
  simp only [exec, execDlvStart, List.getElem?_eq_none h]

theorem exec_dlvStart_of_running (hk : s.ch[c.toNat]? = some k) (h : k.phase.running = true) :
    exec (.dlvStart c) s = .next (s.reject 0x10#8 .busy) := by
  simp only [exec, execDlvStart, hk, h, if_true]

theorem exec_dlvStart_of_not_running (hk : s.ch[c.toNat]? = some k) (h : k.phase.running = false) :
    exec (.dlvStart c) s = .next (s.accept.setCh c.toNat k.start) := by
  simp only [exec, execDlvStart, hk, h, Bool.false_eq_true, if_false]

theorem exec_dlvStop_of_no_channel (h : s.nDlv ≤ c.toNat) :
    exec (.dlvStop c) s = .next (s.reject 0x11#8 .channel) := by
  simp only [exec, execDlvStop, List.getElem?_eq_none h]

theorem exec_dlvStop_of_running (hk : s.ch[c.toNat]? = some k) (h : k.phase.running = true) :
    exec (.dlvStop c) s = .next (s.accept.setCh c.toNat { k with stopReq := true }) := by
  simp only [exec, execDlvStop, hk, h, if_true]

theorem exec_dlvStop_of_not_running (hk : s.ch[c.toNat]? = some k) (h : k.phase.running = false) :
    exec (.dlvStop c) s = .next s.accept := by
  simp only [exec, execDlvStop, hk, h, Bool.false_eq_true, if_false]

end Channel

/-! ### The cancel steps (41 R230, 45 R360) -/

theorem State.dmxStep_of_stopReq (hrun : s.dmx.phase = .run) (hstop : s.dmx.stopReq = true) (ans : PortAns) :
    s.dmxStep ans = .next (s.terminateDmx .cancelled) := by
  simp [State.dmxStep, hrun, hstop]

theorem Channel.step_of_stopReq {k : Channel} (hrun : k.phase.running = true) (hstop : k.stopReq = true) (n : Nat)
    (now : DWord) (ans : PortAns) : k.step n now ans = .go (k.terminate .cancelled) none := by
  simp [Channel.step, hrun, hstop]

theorem State.dlvStep_of_stopReq {c : Nat} {k : Channel} (hk : s.ch[c]? = some k) (hrun : k.phase.running = true)
    (hstop : k.stopReq = true) (ans : PortAns) : s.dlvStep c ans = .next (s.setCh c (k.terminate .cancelled)) := by
  simp only [State.dlvStep, hk, Channel.step_of_stopReq hrun hstop]

/-- The cancel step of a channel right after a write to it: the write's channel is the one that ends. -/
theorem State.dlvStep_setCh_of_stopReq {c : Nat} {k : Channel} (hc : c < s.ch.length) (hrun : k.phase.running = true)
    (hstop : k.stopReq = true) (ans : PortAns) :
    (s.setCh c k).dlvStep c ans = .next (s.setCh c (k.terminate .cancelled)) := by
  have hk : (s.setCh c k).ch[c]? = some k := List.getElem?_set_self hc
  rw [State.dlvStep_of_stopReq hk hrun hstop]
  simp only [State.setCh, List.set_set]

end Sys2Proof.Machine
end

section
/-! ## What a register write can change (40_host_commands.md R206 to R208) -/

namespace Sys2Proof.Machine

theorem getLsbD_w1c {n : Nat} (old v : BitVec n) {i : Nat} (hi : i < n) :
    (w1c old v).getLsbD i = (old.getLsbD i && !v.getLsbD i) := by
  simp [w1c, hi]

/-- The write to an event register, by the bits of the word written. -/
theorem getLsbD_w1c_extract {n : Nat} (old : BitVec n) (v : Word) {i : Nat} (hi : i < n) :
    (w1c old (v.extractLsb' 0 n)).getLsbD i = (old.getLsbD i && !v.getLsbD i) := by
  rw [getLsbD_w1c _ _ hi, BitVec.getLsbD_extractLsb', decide_eq_true hi, Bool.true_and, Nat.zero_add]

/-- The register of a channel's block that a write can change. -/
def ChReg.writable : ChReg → Bool
  | .config | .evt | .evtEn => true
  | _ => false

/-- The register is CMD, or one that a write can change. -/
def Reg.writable : Reg → Bool
  | .cmd | .irqStatus | .irqEnable | .dmxConfig | .fltSel => true
  | .ch _ r => r.writable
  | _ => false

theorem Channel.writeWord_of_not_writable (k : Channel) (v : Word) {r : ChReg} (h : r.writable = false) :
    k.writeWord v r = k := by
  cases r with
  | config | evt | evtEn => cases h
  | _ => rfl

theorem State.writeWord_of_not_writable (s : State) (v : Word) {r : Reg} (h : r.writable = false) :
    s.writeWord v r = s := by
  cases r with
  | irqStatus | irqEnable | dmxConfig | fltSel => cases h
  | ch c r =>
    cases hk : s.ch[c]? with
    | none => exact State.writeWord_ch_none hk v r
    | some k => rw [State.writeWord_ch hk, k.writeWord_of_not_writable v h]; exact State.setCh_self hk
  | _ => rfl

/-- What a lookup with a default finds: no row, or a row of the table. -/
theorem getD_lookup_cases {β : Type} (l : List (Nat × β)) (a : Nat) (d : β) :
    (l.lookup a).getD d = d ∨ (a, (l.lookup a).getD d) ∈ l := by
  cases h : l.lookup a with
  | none => exact .inl rfl
  | some b =>
    obtain ⟨l₁, l₂, rfl, -⟩ := List.lookup_eq_some_iff.1 h
    exact .inr (by simp)

/-- The map of offsets, read backwards: nothing, a row of the global map, or a channel's block with a row of its map. -/
theorem regAt_cases (n a : Nat) :
    (regAt n a).IsReserved ∨ (a, regAt n a) ∈ globalMap ∨
      ∃ c o r, c < n ∧ a = 0x100 + 0x80 * c + o ∧ regAt n a = .ch c r ∧ (o, r) ∈ channelMap := by
  by_cases ha : a < 0x100
  · rw [regAt_of_lt n ha]
    exact (getD_lookup_cases globalMap a .reserved).imp .inl .inl
  by_cases hn : 0x100 + 0x80 * n ≤ a
  · exact .inl (.inl (regAt_beyond hn))
  obtain ⟨c, o, hc, ho, rfl⟩ : ∃ c o, c < n ∧ o < 0x80 ∧ a = 0x100 + 0x80 * c + o :=
    ⟨(a - 0x100) / 0x80, (a - 0x100) % 0x80, by omega, by omega, by omega⟩
  have hreg := regAt_channelBlock hc ho
  rcases getD_lookup_cases channelMap o .reserved with hr | hr
  · exact .inl (.inr ⟨c, by rw [hreg, hr]⟩)
  · exact .inr (.inr ⟨c, o, _, hc, rfl, hreg, hr⟩)

theorem Reg.IsReserved.not_writable {r : Reg} (h : r.IsReserved) : r.writable = false := by
  obtain rfl | ⟨c, rfl⟩ := h <;> rfl

/-- The offsets R206 and R207 name, CMD among them, are all at which a write does anything. -/
theorem offset_of_writable {n a : Nat} (h : (regAt n a).writable = true) :
    a ∈ [0x004, 0x00C, 0x010, 0x040, 0x078] ∨
      ∃ c, c < n ∧ a ∈ [0x100 + 0x80 * c, 0x108 + 0x80 * c, 0x10C + 0x80 * c] := by
  have globalRows : ∀ e ∈ globalMap, e.2.writable = true → e.1 ∈ [0x004, 0x00C, 0x010, 0x040, 0x078] := by decide
  have channelRows : ∀ e ∈ channelMap, e.2.writable = true → e.1 ∈ [0x00, 0x08, 0x0C] := by decide
  rcases regAt_cases n a with hr | hrow | ⟨c, o, r, hc, rfl, hreg, hrow⟩
  · rw [hr.not_writable] at h; cases h
  · exact .inl (globalRows _ hrow h)
  · refine .inr ⟨c, hc, ?_⟩
    rw [hreg] at h
    have ho := channelRows _ hrow h
    simp only [List.mem_cons, List.not_mem_nil, or_false] at ho ⊢
    omega

end Sys2Proof.Machine
end

section
/-! ## The statements -/

namespace Sys2Proof.Proofs

open Sys2Proof.Machine

/-- Settles O9: DMX_STOP sets STOP_REQ of a session that runs, and the cancel step comes before the hold on the latch and
the read. -/
theorem dmxStopCancelsAtTheNextStep : Obligations.DmxStopCancelsAtTheNextStep := by
  refine ⟨rfl, fun s w hop hw => ?_, fun s => ⟨exec_dmxStop_of_not_run, fun hrun => ⟨?_, fun ans => ?_⟩⟩⟩
  · exact s.command_of_ne_cmdWord hop (by decide) hw
  · exact exec_dmxStop_of_run hrun
  · exact State.dmxStep_of_stopReq (s := s.accept.setDmx { s.dmx with stopReq := true }) hrun rfl ans

/-- Settles O10: the filter table changes at one PID, and an inactive filter takes nothing from a packet that starts no
payload. -/
theorem fltResetReenablesThePid : Obligations.FltResetReenablesThePid := by
  refine ⟨decodeCommand_fltReset_word, fun s w hop hw => ?_, fun s p => ⟨_, rfl, ?_, fltReset_filter s.accept p, rfl⟩⟩
  · refine s.command_of_stray_bits hop (by decide) fun hclean => ?_
    have hchan : cmdOpcode w ∉ [0x10#8, 0x11#8] := by rw [show cmdOpcode w = 0x03#8 from hop]; decide
    obtain ⟨-, hhigh⟩ := hclean.reservedBits
    exact hw.elim (absurd (hclean.second_byte hchan)) (absurd hhigh)
  · exact State.sectionInput_of_inactive (by rw [State.filter_setFilter_self])

/-- Settles O11: the channel range is checked first, then the session; `Channel.start` writes the session's registers and
no other. -/
theorem dlvStartBeginsAFreshSession : Obligations.DlvStartBeginsAFreshSession := by
  refine ⟨decodeCommand_dlvStart_word, fun s c =>
    ⟨exec_dlvStart_of_no_channel, fun k hk hphase => ?_, fun k hk hphase => ?_⟩⟩
  · exact exec_dlvStart_of_running hk (k.phase.running_iff.2 hphase)
  · exact exec_dlvStart_of_not_running hk (k.phase.not_running_iff.2 hphase)

/-- Settles O12: DLV_STOP sets STOP_REQ of a running channel and keeps its phase, so the channel's next step is its cancel
step. -/
theorem dlvStopCancelsAtTheNextStep : Obligations.DlvStopCancelsAtTheNextStep := by
  refine ⟨decodeCommand_dlvStop_word, fun s w hop hw => ?_, fun s c =>
    ⟨exec_dlvStop_of_no_channel, fun k hk hphase => ?_, fun k hk hphase => ?_⟩⟩
  · refine s.command_of_stray_bits hop (by decide) fun hclean => hw (hclean.above_chan ?_)
    rw [show cmdOpcode w = 0x11#8 from hop]
    decide
  · exact exec_dlvStop_of_not_running hk (k.phase.not_running_iff.2 hphase)
  · have hrun : k.phase.running = true := k.phase.running_iff.2 hphase
    obtain ⟨hc, -⟩ := List.getElem?_eq_some_iff.1 hk
    exact ⟨exec_dlvStop_of_running hk hrun,
      State.dlvStep_setCh_of_stopReq (s := s.accept) (k := { k with stopReq := true }) hc hrun rfl⟩

/-- Settles O53: both event registers are written with `w1c`, which clears the bits written 1. -/
theorem writeOneClears : Obligations.WriteOneClears := by
  refine fun s v => ⟨fun hact => ⟨_, ?_, fun i => getLsbD_w1c_extract s.irqEvents v⟩,
    fun a c k hact ha hk => ⟨_, ?_, fun j => getLsbD_w1c_extract k.evt v⟩⟩
  · have hreg : regAt s.nDlv (0x00C#12).toNat = .irqStatus := rfl
    rw [step_hostWrite hact rfl (by rw [hreg]; decide), hreg]
    rfl
  · obtain ⟨hc, -⟩ := List.getElem?_eq_some_iff.1 hk
    have hreg : regAt s.nDlv a.toNat = .ch c .evt := by
      rw [ha, Nat.add_right_comm 0x100 8]
      exact regAt_channelBlock hc (by decide)
    rw [step_hostWrite hact (by omega) (by rw [hreg]; exact Reg.noConfusion), hreg,
      State.writeWord_ch (s := s.popped) hk]
    rfl

/-- Settles O55: the map has no writable register at such an offset. -/
theorem otherWritesHaveNoEffect : Obligations.OtherWritesHaveNoEffect := by
  intro s a v hact halign hglobal hchannel
  have hr : (regAt s.nDlv a.toNat).writable = false := by
    rw [← Bool.not_eq_true]
    intro h
    obtain hmem | ⟨c, hc, hmem⟩ := offset_of_writable h
    · exact hglobal hmem
    · exact hchannel c hc hmem
  have hcmd : regAt s.nDlv a.toNat ≠ .cmd := fun h => by rw [h] at hr; cases hr
  rw [step_hostWrite hact halign hcmd, State.writeWord_of_not_writable _ v hr]

/-- Settles O7: NOP is `accept`; OPCODE 0 without stray bits is the word 0. -/
theorem nopOnlyAccepts : Obligations.NopOnlyAccepts := by
  refine ⟨rfl, fun s => ⟨rfl, fun w hop hw => ?_⟩⟩
  exact s.command_of_ne_cmdWord hop (by decide) hw

end Sys2Proof.Proofs
end

/-! PROOFS. The packet framer (41_packet_framer.md): the layer of facts about the header words of the classes TS_SYNC_FAULT
and TS_AFC_RESERVED, about the two outcomes of a bad sync byte, and about DMX's step selection; then the statements of
R230, R233, R239, R241 and R242. -/

section
/-! ## The classes of R233 and R239 by the header word (30_encoding.md R137) -/

namespace Sys2Proof

theorem headerClass_eq_syncFault_iff (h : Word) : headerClass h = .syncFault ↔ h.extractLsb' 24 8 ≠ 0x47#8 := by
  rw [headerClass_eq]
  by_cases hsync : h.extractLsb' 24 8 = 0x47#8
  · rw [if_pos hsync]
    split_ifs <;> simp [hsync]
  · simp [hsync]

theorem headerClass_eq_afcReserved_iff (h : Word) :
    headerClass h = .afcReserved ↔ h &&& 0xFF000030#32 = 0x47000000#32 := by
  have hrow : h &&& 0xFF000030#32 = 0x47000000#32 ↔ h.extractLsb' 24 8 = 0x47#8 ∧ h.extractLsb' 4 2 = 0#2 :=
    and_classMask_eq_iff h 0#2
  rw [hrow, headerClass_eq]
  by_cases hsync : h.extractLsb' 24 8 = 0x47#8
  · rcases afc_cases (h.extractLsb' 4 2) with hafc | hafc | hafc | hafc <;> simp [hsync, hafc]
  · simp [hsync]

end Sys2Proof
end

section
/-! ## What a packet with a bad sync byte does, and DMX's step selection (41 R230, R233, R241) -/

namespace Sys2Proof.Machine

variable {s : State}

/-! ### A bad sync byte (41 R233) -/

/-- The prologue and the fault together: the fault's offset is that of the packet's first byte, before the prologue. -/
theorem noteSyncFault_prologue (s : State) :
    s.prologue.noteSyncFault s.dmx.regs.offset =
      (s.setDmx { s.dmx with
        pktCount := s.dmx.pktCount + 1#32
        syncFaults := s.dmx.syncFaults + 1#32
        regs := { s.dmx.regs with offset := s.dmx.regs.offset + 188#64, faultOff := s.dmx.regs.offset } }).raise
          .syncFault := by
  rw [← offset_advance]
  rfl

theorem exec_tsSyncFault_of_skip (h : s.dmx.syncPolicyL = false) (sync : Byte) (rest : List Byte) :
    exec (.tsSyncFault sync rest) s = .next (s.prologue.noteSyncFault s.dmx.regs.offset) := by
  simp [exec, execTsSyncFault, h]

theorem exec_tsSyncFault_of_abort (h : s.dmx.syncPolicyL = true) (sync : Byte) (rest : List Byte) :
    exec (.tsSyncFault sync rest) s =
      .next ((s.prologue.noteSyncFault s.dmx.regs.offset).terminateDmx .syncAbort) := by
  simp [exec, execTsSyncFault, h]

/-! ### The step selection (41 R230); its cancel step is `State.dmxStep_of_stopReq` -/

theorem Dmx.idxFull_iff (d : Dmx) : d.idxFull = true ↔ d.idxL ≠ none :=
  Option.isSome_iff_ne_none

theorem Dmx.idxFull_eq_false_iff (d : Dmx) : d.idxFull = false ↔ d.idxL = none :=
  Option.isSome_eq_false_iff.trans Option.isNone_iff_eq_none

theorem State.dmxStep_of_not_run (h : s.dmx.phase ≠ .run) (ans : PortAns) : s.dmxStep ans = .next s :=
  if_pos h

theorem State.dmxStep_of_idxFull (hrun : s.dmx.phase = .run) (hstop : s.dmx.stopReq = false)
    (hfull : s.dmx.idxFull = true) (ans : PortAns) : s.dmxStep ans = .next s := by
  simp [State.dmxStep, hrun, hstop, hfull]

theorem State.dmxStep_of_read (hrun : s.dmx.phase = .run) (hstop : s.dmx.stopReq = false)
    (hempty : s.dmx.idxFull = false) (ans : PortAns) : s.dmxStep ans = s.dmxRead ans := by
  simp [State.dmxStep, hrun, hstop, hempty]

theorem step_dmx {ans : PortAns} (h : s.nextAction = some (.dmx ans)) : step s = s.popped.dmxStep ans :=
  step_of_nextAction h

theorem step_dmx_of_read {ans : PortAns} (h : s.nextAction = some (.dmx ans)) (hrun : s.dmx.phase = .run)
    (hstop : s.dmx.stopReq = false) (hlatch : s.dmx.idxL = none) : step s = s.popped.dmxRead ans := by
  rw [step_dmx h]
  exact State.dmxStep_of_read (s := s.popped) hrun hstop (s.dmx.idxFull_eq_false_iff.2 hlatch) ans

/-! ### The ends of the input (41 R241) -/

theorem State.dmxRead_eos (s : State) {k : Nat} (hk : k < 188) : s.dmxRead (.eos k) = .next (s.dmxEos k) :=
  if_pos hk

theorem State.dmxEos_zero (s : State) : s.dmxEos 0 = s.terminateDmx .endOfSource := rfl

theorem State.dmxEos_of_pos (s : State) {k : Nat} (hk : 0 < k) :
    s.dmxEos k =
      ((s.setDmx { s.dmx with truncBytes := BitVec.ofNat 8 k }).raise .trunc).terminateDmx .endOfSource := by
  rw [State.dmxEos, if_pos hk]

end Sys2Proof.Machine
end

section
/-! ## The statements -/

namespace Sys2Proof.Proofs

open Sys2Proof.Machine

/-- Settles O13: the class has the last row of R137 with SYNC_BYTE, and its packet does what every received packet does
and no more. -/
theorem afcReservedOnlyMarksSeen : Obligations.AfcReservedOnlyMarksSeen :=
  ⟨headerClass_eq_afcReserved_iff, fun s hdr _ =>
    ⟨s.received hdr.pid, rfl, received_filter s hdr.pid, received_eq s hdr.pid⟩⟩

/-- Settles O14: a fault is counted and raised under both policies; the latched policy decides only whether the session
ends after it. -/
theorem syncFaultSkipsOrAborts : Obligations.SyncFaultSkipsOrAborts := by
  refine ⟨headerClass_eq_syncFault_iff, fun s sync rest => ⟨fun hskip => ?_, fun habort => ?_⟩⟩
  · rw [exec_tsSyncFault_of_skip hskip, noteSyncFault_prologue]
    rfl
  · rw [exec_tsSyncFault_of_abort habort, noteSyncFault_prologue]
    rfl

/-- Settles O34: the branches of the step selection in their order. -/
theorem dmxStepSelection : Obligations.DmxStepSelection := by
  intro s ans hact
  refine ⟨fun hidle => ?_, fun hrun hstop => ?_, fun hrun hstop hlatch => ?_, step_dmx_of_read hact⟩
  · rw [step_dmx hact]
    exact State.dmxStep_of_not_run (s := s.popped) hidle ans
  · rw [step_dmx hact]
    exact State.dmxStep_of_stopReq (s := s.popped) hrun hstop ans
  · rw [step_dmx hact]
    exact State.dmxStep_of_idxFull (s := s.popped) hrun hstop (s.dmx.idxFull_iff.2 hlatch) ans

/-- Settles O35: each end of the input is a read that DMX selects, and ends the session without the prologue, which alone
moves DMX_OFFSET. -/
theorem endOfInputEndsTheSession : Obligations.EndOfInputEndsTheSession := by
  intro s hrun hstop hlatch
  refine ⟨fun hact => ?_, fun k hpos hk hact => ?_, fun hact => ?_⟩
  · rw [step_dmx_of_read hact hrun hstop hlatch, State.dmxRead_eos _ (by decide), State.dmxEos_zero]
    rfl
  · rw [step_dmx_of_read hact hrun hstop hlatch, State.dmxRead_eos _ hk, State.dmxEos_of_pos _ hpos]
    rfl
  · rw [step_dmx_of_read hact hrun hstop hlatch]
    rfl

end Sys2Proof.Proofs
end

/-! PROOFS. The section reassembler (42_section_reassembler.md): the layer of facts about what a step does to the filter
table and its buffers, about the walks of the two parsers, and about the bytes they read; then the statements of R262,
R267 to R270 and R272. -/

section
/-! ## What a step does to the filter table and its buffers -/

namespace Sys2Proof.Machine

variable {s t u : State} {p : Pid}

/-! ### The section input of one packet on PID `p` stores to no other buffer -/

theorem State.append_data_ne {q : Pid} (hq : q ≠ p) {i : Nat} (hi : i < 4096) {x : List Byte}
    (h : s.append p x = .ok t) : t.data q i = s.data q i := by
  induction x generalizing s with
  | nil => cases h; rfl
  | cons b x ih =>
    unfold State.append at h
    split at h
    · split at h
      · next s1 hs =>
        obtain ⟨hpos, rfl⟩ := State.appendByte_cases hs
        rw [ih h, State.data, State.appended_mem, State.stored_mem]
        exact Memory.read_write_ne _ (fun e => hq (dataAddr_inj hi hpos e).1) b
      · cases h
    · cases h; rfl

/-- SectionInput stores nothing, or what Append stores (42 R261). -/
theorem State.sectionInput_mem_cases {pusi : Bool} {payload : List Byte}
    (h : s.sectionInput p pusi payload = .ok t) :
    t.mem = s.mem ∨ ∃ (v : State) (x : List Byte), v.mem = s.mem ∧ v.append p x = .ok t := by
  unfold State.sectionInput at h
  dsimp only at h
  split at h
  · cases h; exact .inl rfl
  split at h
  · have hmem (f : Filter) :
        ((if (s.filter p).active = true then s.noteSecDiscard else s).setFilter p f).mem = s.mem := by
      split <;> rfl
    split at h
    · cases h; exact .inl (hmem (s.filter p).cleared)
    · exact .inr ⟨_, _, hmem _, h⟩
  · split at h
    · exact .inr ⟨s, _, rfl, h⟩
    · cases h; exact .inl rfl

theorem State.sectionInput_data_ne {q : Pid} (hq : q ≠ p) {i : Nat} (hi : i < 4096) {pusi : Bool}
    {payload : List Byte} (h : s.sectionInput p pusi payload = .ok t) : t.data q i = s.data q i := by
  rcases State.sectionInput_mem_cases h with hmem | ⟨v, x, hmem, happend⟩
  · rw [State.data, State.data, hmem]
  · rw [State.append_data_ne hq hi happend, State.data, State.data, hmem]

/-! ### The cases of a step -/

/-- `b` is a payload-carrying packet with the header fields `hdr`. -/
def PayloadPacket (b : List Byte) (hdr : TsHdr) : Prop :=
  ∃ body, decodePacket b = .ok (.tsPayload hdr body) ∨ decodePacket b = .ok (.tsAfPayload hdr body)

/-- What the step `a` from `s` to `t` does to the filter table and the buffers: nothing; an accepted DMX_START or a
hardware reset empties the table; FLT_RESET clears one filter; a packet marks its PID seen, and then, with a payload on a
section PID, is section input. -/
inductive TableStep (a : Action) (s t : State) : Prop
  | kept (hflt : t.flt = s.flt) (hmem : t.mem = s.mem)
  | dmxStart (hflt : t.flt = []) (hmem : t.mem = s.mem)
  | hardReset (hact : a = .reset) (hflt : t.flt = [])
  | fltReset (p : Pid) (hmem : t.mem = s.mem)
      (hfilter : ∀ q, t.filter q =
        if q = p then { s.filter q with invalid := false, active := false, size := 0#13, pos := 0#13 }
        else s.filter q)
  | seen (p : Pid) (hmem : t.mem = s.mem) (hseen : OnlySeen s t p)
  | input (b : List Byte) (hdr : TsHdr) (payload : List Byte) (v u : State) (hact : a = .dmx (.bytes b))
      (hpacket : PayloadPacket b hdr) (hmem : v.mem = s.mem) (hseen : OnlySeen s v hdr.pid)
      (hinput : v.sectionInput hdr.pid hdr.pusi payload = .ok u) (hflt' : t.flt = u.flt) (hmem' : t.mem = u.mem)

theorem State.filter_congr (h : t.flt = s.flt) (q : Pid) : t.filter q = s.filter q := by
  rw [State.filter, State.filter, h]

theorem State.data_congr (h : t.mem = s.mem) (q : Pid) (i : Nat) : t.data q i = s.data q i := by
  rw [State.data, State.data, h]

theorem State.filter_of_flt_nil (h : s.flt = []) (q : Pid) : s.filter q = Filter.reset := by
  rw [State.filter, h, sparseGet_nil]

variable {a : Action}

theorem exec_command_tables {i : Instr} (hi : IsHostCommand i) (h : exec i s = .next t) : TableStep a s t := by
  cases i with
  | nop => cases h; exact .kept rfl rfl
  | dmxStart =>
    simp only [exec, execDmxStart] at h
    split at h <;> cases h
    · exact .kept rfl rfl
    · exact .dmxStart rfl rfl
  | dmxStop =>
    simp only [exec, execDmxStop] at h
    split at h <;> cases h <;> exact .kept rfl rfl
  | fltReset p =>
    cases h
    exact .fltReset p rfl (fltReset_filter s.accept p)
  | dlvStart c =>
    simp only [exec, execDlvStart] at h
    split at h
    · cases h; exact .kept rfl rfl
    · split at h <;> cases h <;> exact .kept rfl rfl
  | dlvStop c =>
    simp only [exec, execDlvStop] at h
    split at h
    · cases h; exact .kept rfl rfl
    · split at h <;> cases h <;> exact .kept rfl rfl
  | tsAfPayload | tsPayload | tsAfOnly | tsAfcReserved | tsSyncFault => exact hi.elim

/-- The three packet classes with operands: only a section part that is section input does more than mark the PID. -/
theorem exec_operand_packet_tables {b : List Byte} {hdr : TsHdr} {body : List Byte} {i : Instr}
    (hi : i = .tsAfPayload hdr body ∨ i = .tsPayload hdr body ∨ i = .tsAfOnly hdr body) (hb : decodePacket b = .ok i)
    (h : exec i s = .next t) : TableStep (.dmx (.bytes b)) s t := by
  obtain ⟨af, payload, v, u, -, hmem, hflt, hpart, rfl, hnil⟩ := exec_packet_cases hi h
  have hpcr := trackPcr_keeps u af s.dmx.regs.offset
  have hseen : OnlySeen s v hdr.pid := fun q => by rw [State.filter_congr hflt, received_filter]
  rcases sectionPart_cases hpart with ⟨hpayload, -, hinput⟩ | rfl
  · have hpacket : PayloadPacket b hdr := by
      rcases hi with rfl | rfl | rfl
      · exact ⟨body, .inr hb⟩
      · exact ⟨body, .inl hb⟩
      · exact absurd (hnil rfl) hpayload
    exact .input b hdr payload v u rfl hpacket hmem hseen hinput hpcr.flt hpcr.mem
  · exact .seen hdr.pid (hpcr.mem.trans hmem) fun q => (hpcr.filter q).trans (hseen q)

theorem exec_packet_tables {b : List Byte} {i : Instr} (hb : decodePacket b = .ok i) (h : exec i s = .next t) :
    TableStep (.dmx (.bytes b)) s t := by
  cases i with
  | tsAfPayload hdr body => exact exec_operand_packet_tables (.inl rfl) hb h
  | tsPayload hdr body => exact exec_operand_packet_tables (.inr (.inl rfl)) hb h
  | tsAfOnly hdr body => exact exec_operand_packet_tables (.inr (.inr rfl)) hb h
  | tsAfcReserved hdr body =>
    cases h
    exact .seen hdr.pid (received_mem s hdr.pid) (received_filter s hdr.pid)
  | tsSyncFault sync rest =>
    simp only [exec, execTsSyncFault, Host.Outcome.next.injEq] at h
    subst h
    split <;> exact .kept rfl rfl
  | nop | dmxStart | dmxStop | fltReset | dlvStart | dlvStop =>
    refine exec_command_tables ?_ h
    trivial

theorem dmxStep_tables {ans : PortAns} (h : s.dmxStep ans = .next t) : TableStep (.dmx ans) s t := by
  rcases dmxStep_cases h with
    rfl | ⟨_, _, rfl⟩ | ⟨_, _, _, ⟨b, i, rfl, hb, hexec⟩ | ⟨n, _, _, rfl⟩ | ⟨_, rfl⟩⟩
  · exact .kept rfl rfl
  · exact .kept rfl rfl
  · exact exec_packet_tables hb hexec
  · rcases dmxEos_cases s n with ⟨_, heos⟩ | ⟨_, heos⟩ <;> rw [heos] <;> exact .kept rfl rfl
  · exact .kept rfl rfl

theorem hostRead_tables {addr : BitVec 12} {width : Nat} (h : s.hostRead addr width = .next t) :
    TableStep a s t := by
  obtain ⟨_, _, rfl⟩ := hostRead_cases h
  rcases s.snapshot_cases (regAt s.nDlv addr.toNat) with heq | ⟨_, _, heq⟩ | ⟨_, heq⟩ | ⟨_, _, _, _, _, heq⟩ <;>
    rw [heq] <;> exact .kept rfl rfl

theorem writeWord_tables (s : State) (v : Word) (r : Reg) : TableStep a s (s.writeWord v r) := by
  cases r with
  | ch c r =>
    cases hk : s.ch[c]? with
    | none => rw [State.writeWord_ch_none hk]; exact .kept rfl rfl
    | some k => rw [State.writeWord_ch hk]; exact .kept rfl rfl
  | _ => exact .kept rfl rfl

theorem hostWrite_tables {addr : BitVec 12} {width : Nat} {v : Word} (h : s.hostWrite addr width v = .next t) :
    TableStep a s t := by
  obtain ⟨_, _, ⟨_, hcmd⟩ | ⟨_, rfl⟩⟩ := hostWrite_cases h
  · rcases command_cases hcmd with ⟨_, hi, hexec⟩ | ⟨_, _, rfl⟩
    · exact exec_command_tables (isHostCommand_of_decodeCommand hi) hexec
    · exact .kept rfl rfl
  · exact writeWord_tables s v _

theorem act_tables (h : s.act a = .next t) : TableStep a s t := by
  cases a with
  | hostRead addr width => exact hostRead_tables h
  | hostWrite addr width v => exact hostWrite_tables h
  | dmx ans => exact dmxStep_tables h
  | dlv c ans =>
    rcases dlvStep_cases h with rfl | ⟨_, _, _, ⟨_, rfl⟩ | ⟨_, _, rfl⟩⟩ <;> exact .kept rfl rfl
  | take =>
    cases h
    unfold State.takeRecord
    split <;> exact .kept rfl rfl
  | wall ns =>
    simp only [State.act, State.wallStep] at h
    split at h <;> cases h
    exact .kept rfl rfl
  | reset => cases h; exact .hardReset rfl rfl

theorem TableStep.of_popped (h : TableStep a s.popped t) : TableStep a s t := by
  cases h with
  | kept hflt hmem => exact .kept hflt hmem
  | dmxStart hflt hmem => exact .dmxStart hflt hmem
  | hardReset hact hflt => exact .hardReset hact hflt
  | fltReset p hmem hfilter => exact .fltReset p hmem hfilter
  | seen p hmem hseen => exact .seen p hmem hseen
  | input b hdr payload v u hact hpacket hmem hseen hinput hflt' hmem' =>
    exact .input b hdr payload v u hact hpacket hmem hseen hinput hflt' hmem'

/-- The whole of a step, as the filter table and the buffers see it. -/
theorem step_tables (h : step s = .next t) :
    (s.nextAction = none ∧ t = s) ∨ ∃ a, s.nextAction = some a ∧ TableStep a s t := by
  rcases step_cases h with hidle | ⟨a, hact, h⟩
  · exact .inl hidle
  · exact .inr ⟨a, hact, (act_tables h).of_popped⟩

/-! ### 42 R272 -/

theorem State.FiltersOk.of_flt_nil (h : s.flt = []) : s.FiltersOk := by
  intro q
  rw [State.filter_of_flt_nil h]
  decide

theorem OnlySeen.ok (h : OnlySeen s t p) (hok : s.FiltersOk) : t.FiltersOk := by
  intro q
  rw [h q]
  split <;> exact hok q

theorem sectionInput_filtersOk {pusi : Bool} {payload : List Byte} (hok : s.FiltersOk)
    (h : s.sectionInput p pusi payload = .ok t) : t.FiltersOk := by
  intro q
  by_cases hq : q = p
  · subst hq
    obtain ⟨t', ht', hok'⟩ := State.sectionInput_completes (hok q) pusi payload
    obtain rfl : t' = t := Except.ok.inj (ht'.symm.trans h)
    exact hok'
  · rw [(State.sectionInput_keeps h).others q hq]
    exact hok q

theorem TableStep.filtersOk (h : TableStep a s t) (hok : s.FiltersOk) : t.FiltersOk := by
  cases h with
  | kept hflt _ => exact fun q => State.filter_congr hflt q ▸ hok q
  | dmxStart hflt _ => exact .of_flt_nil hflt
  | hardReset _ hflt => exact .of_flt_nil hflt
  | fltReset p _ hfilter =>
    intro q
    rw [hfilter q]
    split
    · simp [Filter.ok]
    · exact hok q
  | seen p _ hseen => exact hseen.ok hok
  | input b hdr payload v u _ _ _ hseen hinput hflt' _ =>
    exact fun q => State.filter_congr hflt' q ▸ sectionInput_filtersOk (hseen.ok hok) hinput q

/-! ### 42 R262 -/

theorem OnlySeen.active (h : OnlySeen s t p) (q : Pid) : (t.filter q).active = (s.filter q).active := by
  rw [h q]
  split <;> rfl

/-- Section input of a packet that starts no payload on `q` neither wakes the inactive filter of `q` nor stores to its
buffer. -/
theorem sectionInput_inactive {q : Pid} {pusi : Bool} {payload : List Byte} (hinactive : (s.filter q).active = false)
    (h : s.sectionInput p pusi payload = .ok t) (hstart : ¬ (p = q ∧ pusi = true)) :
    (t.filter q).active = false ∧ ∀ i, i < 4096 → t.data q i = s.data q i := by
  by_cases hq : q = p
  · subst hq
    obtain rfl : pusi = false := by simpa using hstart
    rw [State.sectionInput_of_inactive hinactive] at h
    cases h
    exact ⟨hinactive, fun _ _ => rfl⟩
  · refine ⟨?_, fun i hi => State.sectionInput_data_ne hq hi h⟩
    rw [(State.sectionInput_keeps h).others q hq]
    exact hinactive

theorem TableStep.inactive (h : TableStep a s t) (hinactive : (s.filter p).active = false) :
    ((t.filter p).active = false ∧ (a ≠ .reset → ∀ i, i < 4096 → t.data p i = s.data p i)) ∨
      ∃ b hdr, a = .dmx (.bytes b) ∧ hdr.pid = p ∧ hdr.pusi = true ∧ PayloadPacket b hdr := by
  cases h with
  | kept hflt hmem =>
    exact .inl ⟨by rwa [State.filter_congr hflt], fun _ i _ => State.data_congr hmem p i⟩
  | dmxStart hflt hmem =>
    exact .inl ⟨by rw [State.filter_of_flt_nil hflt]; rfl, fun _ i _ => State.data_congr hmem p i⟩
  | hardReset hact hflt =>
    exact .inl ⟨by rw [State.filter_of_flt_nil hflt]; rfl, fun hne => absurd hact hne⟩
  | fltReset p' hmem hfilter =>
    refine .inl ⟨?_, fun _ i _ => State.data_congr hmem p i⟩
    rw [hfilter p]
    split
    · rfl
    · exact hinactive
  | seen p' hmem hseen =>
    exact .inl ⟨(hseen.active p).trans hinactive, fun _ i _ => State.data_congr hmem p i⟩
  | input b hdr payload v u hact hpacket hmem hseen hinput hflt' hmem' =>
    by_cases hstart : hdr.pid = p ∧ hdr.pusi = true
    · exact .inr ⟨b, hdr, hact, hstart.1, hstart.2, hpacket⟩
    · obtain ⟨hfilter, hdata⟩ := sectionInput_inactive ((hseen.active p).trans hinactive) hinput hstart
      refine .inl ⟨by rwa [State.filter_congr hflt'], fun _ i hi => ?_⟩
      rw [State.data_congr hmem', hdata i hi, State.data_congr hmem]

end Sys2Proof.Machine
end

section
/-! ## The walks of the two parsers (42 R267, R269) -/

namespace Sys2Proof.Machine

variable {d d' : List Byte} {size : Nat}

/-! ### ParsePAT -/

/-- The program number of the 4-byte PAT entry at offset `off` (30_encoding.md R142). -/
def programNumber (d : List Byte) (off : Nat) : BitVec 16 := byteAt d off ++ byteAt d (off + 1)

theorem patWalk_of_end {off : Nat} (h : size < off + 8) (fuel : Nat) : patWalk d size (fuel + 1) off = none :=
  if_neg (by omega)

theorem patWalk_of_nonzero {off : Nat} (hfit : off + 8 ≤ size) (h : programNumber d off ≠ 0#16) (fuel : Nat) :
    patWalk d size (fuel + 1) off = some (pid13 (byteAt d (off + 2)) (byteAt d (off + 3))) :=
  (if_pos hfit).trans (if_pos h)

theorem patWalk_of_zero {off : Nat} (hfit : off + 8 ≤ size) (h : programNumber d off = 0#16) (fuel : Nat) :
    patWalk d size (fuel + 1) off = patWalk d size fuel (off + 4) :=
  (if_pos hfit).trans (if_neg (not_not_intro h))

theorem patWalk_first_nonzero {fuel off n : Nat} (hfuel : n < fuel) (hfit : off + 4 * n + 8 ≤ size)
    (hnonzero : programNumber d (off + 4 * n) ≠ 0#16) (hzero : ∀ m, m < n → programNumber d (off + 4 * m) = 0#16) :
    patWalk d size fuel off = some (pid13 (byteAt d (off + 4 * n + 2)) (byteAt d (off + 4 * n + 3))) := by
  induction fuel generalizing off n with
  | zero => omega
  | succ fuel ih =>
    cases n with
    | zero => exact patWalk_of_nonzero hfit hnonzero fuel
    | succ n =>
      have hnext (m : Nat) : off + 4 + 4 * m = off + 4 * (m + 1) := by omega
      rw [patWalk_of_zero (off := off) (by omega) (hzero 0 (by omega)), ih (n := n) (by omega) (by omega), hnext]
      · rwa [hnext]
      · intro m hm
        rw [hnext]
        exact hzero (m + 1) (by omega)

theorem patWalk_all_zero {off : Nat} (hzero : ∀ n, off + 4 * n + 8 ≤ size → programNumber d (off + 4 * n) = 0#16)
    (fuel : Nat) : patWalk d size fuel off = none := by
  induction fuel generalizing off with
  | zero => rfl
  | succ fuel ih =>
    rcases Nat.lt_or_ge size (off + 8) with hend | hfit
    · exact patWalk_of_end hend fuel
    · rw [patWalk_of_zero hfit (hzero 0 (by omega))]
      refine ih fun n hn => ?_
      have hnext : off + 4 + 4 * n = off + 4 * (n + 1) := by omega
      rw [hnext]
      exact hzero (n + 1) (by omega)

/-! ### ParsePMT -/

/-- The entries of a PMT section taken one after the other. -/
def State.pmtListed (s : State) (es : List (Byte × Pid)) : State := es.foldl (fun u e => u.pmtEntry e.1 e.2) s

theorem State.pmtListed_cons (s : State) (e : Byte × Pid) (es : List (Byte × Pid)) :
    s.pmtListed (e :: es) = (s.pmtEntry e.1 e.2).pmtListed es := rfl

theorem pmtWalk_eq (d : List Byte) (size fuel off : Nat) (s : State) :
    pmtWalk d size fuel off s = s.pmtListed (pmtEntries d size fuel off) := by
  induction fuel generalizing off s with
  | zero => rfl
  | succ fuel ih =>
    unfold pmtWalk pmtEntries
    by_cases hfit : off + 5 + 4 ≤ size
    · rw [if_pos hfit, if_pos (by omega), ih, len12_toNat, pid13_eq, State.pmtListed_cons]
    · rw [if_neg hfit, if_neg (by omega)]
      rfl

/-- An entry's type is one that STYPE_MAP gives no codec. -/
def unknownType (rows : List (Byte × Codec)) (e : Byte × Pid) : Bool := stypeMap rows e.1 == .none

/-- The codec of `q` after the entries `es`, where it was `c`: that of its last entry of a known type. -/
def lastCodec (rows : List (Byte × Codec)) (es : List (Byte × Pid)) (q : Pid) (c : Codec) : Codec :=
  (es.reverse.find? fun e => e.2 == q && !unknownType rows e).elim c fun e => stypeMap rows e.1

theorem lastCodec_cons (rows : List (Byte × Codec)) (e : Byte × Pid) (es : List (Byte × Pid)) (q : Pid) (c : Codec) :
    lastCodec rows (e :: es) q c =
      lastCodec rows es q (if e.2 = q ∧ unknownType rows e = false then stypeMap rows e.1 else c) := by
  unfold lastCodec
  rw [List.reverse_cons, List.find?_append]
  cases es.reverse.find? fun e => e.2 == q && !unknownType rows e with
  | some e' => rfl
  | none => by_cases h : e.2 = q ∧ unknownType rows e = false <;> simp [h]

variable {s : State} {e : Byte × Pid}

theorem State.pmtEntry_of_unknown (h : unknownType s.hw.stypeRows e = true) :
    s.pmtEntry e.1 e.2 = s.noteUnkStype :=
  if_pos (by simpa [unknownType] using h)

theorem State.pmtEntry_of_known (h : unknownType s.hw.stypeRows e = false) :
    s.pmtEntry e.1 e.2 = s.setFilter e.2 { s.filter e.2 with codec := stypeMap s.hw.stypeRows e.1 } :=
  if_neg (by simpa [unknownType] using h)

theorem State.pmtEntry_hw (s : State) (e : Byte × Pid) : (s.pmtEntry e.1 e.2).hw = s.hw :=
  (s.pmtEntry_keeps e.2 e.1 e.2).hw

theorem State.pmtEntry_codec (s : State) (e : Byte × Pid) (q : Pid) :
    ((s.pmtEntry e.1 e.2).filter q).codec =
      if e.2 = q ∧ unknownType s.hw.stypeRows e = false then stypeMap s.hw.stypeRows e.1 else (s.filter q).codec := by
  cases h : unknownType s.hw.stypeRows e with
  | true => rw [State.pmtEntry_of_unknown h]; simp
  | false =>
    rw [State.pmtEntry_of_known h, State.filter_setFilter]
    by_cases hq : e.2 = q
    · simp [hq]
    · simp [hq, Ne.symm hq]

theorem State.pmtListed_codec (s : State) (es : List (Byte × Pid)) (q : Pid) :
    ((s.pmtListed es).filter q).codec = lastCodec s.hw.stypeRows es q (s.filter q).codec := by
  induction es generalizing s with
  | nil => rfl
  | cons e es ih => rw [State.pmtListed_cons, ih, State.pmtEntry_hw, State.pmtEntry_codec, lastCodec_cons]

/-- Beside the filter table the entries change only what the unknown types among them count. -/
theorem State.pmtListed_eq (s : State) (es : List (Byte × Pid)) :
    s.pmtListed es = { s with
      flt := (s.pmtListed es).flt
      irqEvents := if es.any (unknownType s.hw.stypeRows) then s.irqEvents ||| 0x20#10 else s.irqEvents
      dmx := { s.dmx with
        unkStype := s.dmx.unkStype + BitVec.ofNat 32 (es.countP (unknownType s.hw.stypeRows)) } } := by
  induction es generalizing s with
  | nil => simp [State.pmtListed]
  | cons e es ih =>
    rw [State.pmtListed_cons, ih]
    cases h : unknownType s.hw.stypeRows e with
    | true =>
      have hbit : 1#10 <<< IrqEvent.unkStype.bit = 0x20#10 := by decide
      rw [State.pmtEntry_of_unknown h]
      simp [h, hbit, BitVec.or_assoc, BitVec.add_assoc, BitVec.ofNat_add, BitVec.add_comm]
    | false =>
      rw [State.pmtEntry_of_known h]
      simp [h]

theorem State.parsePmt_of_short (h : size < 16) (d : List Byte) : s.parsePmt d size = s.noteMalformed := if_pos h

theorem State.parsePmt_of_long (h : 16 ≤ size) (d : List Byte) :
    s.parsePmt d size =
      (s.setDmx { s.dmx with
        pcrPid := (byteAt d 8).extractLsb' 0 5 ++ byteAt d 9
        pcrPidValid := true }).pmtListed
        (pmtEntries d size size (12 + ((byteAt d 10).toNat % 16 * 256 + (byteAt d 11).toNat))) := by
  rw [State.parsePmt, if_neg (by omega), pmtWalk_eq, len12_toNat, pid13_eq]

/-! ### Which types STYPE_MAP knows (30_encoding.md R151, R152) -/

theorem stypeMap_of_unlisted {rows : List (Byte × Codec)} {st : Byte} (hne : st ≠ 0x1B#8)
    (h : ∀ r ∈ rows, st ≠ r.1) : stypeMap rows st = .none := by
  have hlookup : rows.lookup st = none := List.lookup_eq_none_iff.2 fun r hr => by simpa using h r hr
  rw [stypeMap, if_neg hne, hlookup, Option.getD_none]

/-! ### The bytes the parsers read (42 R268, R270) -/

theorem patWalk_congr (h : ∀ i, i + 5 ≤ size → byteAt d i = byteAt d' i) (fuel off : Nat) :
    patWalk d size fuel off = patWalk d' size fuel off := by
  induction fuel generalizing off with
  | zero => rfl
  | succ fuel ih =>
    unfold patWalk
    by_cases hfit : off + 4 + 4 ≤ size
    · rw [if_pos hfit, if_pos hfit, h off (by omega), h (off + 1) (by omega), h (off + 2) (by omega),
        h (off + 3) (by omega), ih]
    · rw [if_neg hfit, if_neg hfit]

theorem pmtEntries_congr (h : ∀ i, i + 5 ≤ size → byteAt d i = byteAt d' i) (fuel off : Nat) :
    pmtEntries d size fuel off = pmtEntries d' size fuel off := by
  induction fuel generalizing off with
  | zero => rfl
  | succ fuel ih =>
    unfold pmtEntries
    by_cases hfit : off + 5 ≤ size - 4
    · rw [if_pos hfit, if_pos hfit, h off (by omega), h (off + 1) (by omega), h (off + 2) (by omega),
        h (off + 3) (by omega), h (off + 4) (by omega), ih]
    · rw [if_neg hfit, if_neg hfit]

theorem State.parsePat_congr (s : State) (h : ∀ i, i + 5 ≤ size → byteAt d i = byteAt d' i) :
    s.parsePat d size = s.parsePat d' size := by
  rw [State.parsePat, State.parsePat, patWalk_congr h]

theorem State.parsePmt_congr (s : State) (h : ∀ i, i + 5 ≤ size → byteAt d i = byteAt d' i) :
    s.parsePmt d size = s.parsePmt d' size := by
  rcases Nat.lt_or_ge size 16 with hsize | hsize
  · rw [State.parsePmt_of_short hsize, State.parsePmt_of_short hsize]
  · rw [State.parsePmt_of_long hsize, State.parsePmt_of_long hsize, h 8 (by omega), h 9 (by omega), h 10 (by omega),
      h 11 (by omega), pmtEntries_congr h]

end Sys2Proof.Machine
end

section
/-! ## The statements -/

namespace Sys2Proof.Proofs

open Sys2Proof.Machine

/-- Settles O30: the table of a reset state is empty, and a step does to it only what `TableStep` names. -/
theorem stepKeepsTheFilterInvariant : Obligations.StepKeepsTheFilterInvariant := by
  refine ⟨fun n hw env => .of_flt_nil rfl, fun s t hok hstep => ?_⟩
  rcases step_tables hstep with ⟨_, rfl⟩ | ⟨a, _, htables⟩
  · exact hok
  · exact htables.filtersOk hok

/-- Settles O24: the walk passes over entries of program number 0 and stops at the first other one. -/
theorem patTakesTheFirstNonzeroProgram : Obligations.PatTakesTheFirstNonzeroProgram := by
  have hnext (n : Nat) : 8 + 4 * n + 1 = 9 + 4 * n := by omega
  refine fun s d size => ⟨fun n hfit hnonzero hzero => ?_, fun hzero => ?_⟩
  · have hwalk : patWalk d size size 8 = some (pid13 (byteAt d (8 + 4 * n + 2)) (byteAt d (8 + 4 * n + 3))) := by
      refine patWalk_first_nonzero (by omega) hfit ?_ fun m hm => ?_
      · rwa [programNumber, hnext]
      · rw [programNumber, hnext]
        exact hzero m hm
    rw [State.parsePat, hwalk, pid13_eq, show 8 + 4 * n + 2 = 10 + 4 * n by omega,
      show 8 + 4 * n + 3 = 11 + 4 * n by omega]
    rfl
  · have hwalk : patWalk d size size 8 = none := by
      refine patWalk_all_zero (fun n hn => ?_) size
      rw [programNumber, hnext]
      exact hzero n hn
    rw [State.parsePat, hwalk]

/-- Settles O25: the PMT walk is the list of its entries taken in order. -/
theorem pmtAssignsCodecs : Obligations.PmtAssignsCodecs := by
  refine ⟨fun _ => rfl, by decide, fun st hst => ?_, by decide, fun s d size => ⟨fun hshort => ?_, fun hlong => ?_⟩⟩
  · simp only [List.mem_cons, List.not_mem_nil, or_false, not_or] at hst
    exact stypeMap_of_unlisted hst.1 (by simpa [HwParams.default, defaultStypeRows] using hst.2)
  · rw [State.parsePmt_of_short hshort]
    rfl
  · intro t es unknown
    have ht : t = (s.setDmx { s.dmx with
        pcrPid := (byteAt d 8).extractLsb' 0 5 ++ byteAt d 9
        pcrPidValid := true }).pmtListed es := State.parsePmt_of_long hlong d
    refine ⟨fun q => ?_, ?_⟩
    · have hcodec : (t.filter q).codec = lastCodec s.hw.stypeRows es q (s.filter q).codec := by
        rw [ht, State.pmtListed_codec]
        rfl
      rw [(s.parsePmt_parser d size).filter q, hcodec]
      refine congrArg (fun c => { s.filter q with codec := c }) ?_
      change (es.reverse.find? fun e => e.2 == q && !unknown e).elim _ _ = _
      cases es.reverse.find? fun e => e.2 == q && !unknown e <;> rfl
    · conv_lhs => rw [ht, State.pmtListed_eq, ← ht]
      rfl

/-- Settles O26: both walks read the fixed bytes of an entry only where all of them stand below size - 4, where the buffers
agree. -/
theorem parsersReadInsideTheSection : Obligations.ParsersReadInsideTheSection :=
  fun s _ _ _ h => ⟨s.parsePat_congr h, s.parsePmt_congr h⟩

/-- Settles O28: of the effects a step has on the tables, only section input of a payload-start packet reaches a filter
that is not active. -/
theorem onlyPayloadStartActivates : Obligations.OnlyPayloadStartActivates := by
  intro s t p hstep hinactive hwakes
  rcases step_tables hstep with ⟨_, rfl⟩ | ⟨a, hact, htables⟩
  · rcases hwakes with hactive | ⟨_, _, _, hne⟩
    · exact absurd hactive (by simp [hinactive])
    · exact absurd rfl hne
  rcases htables.inactive hinactive with ⟨hstill, hdata⟩ | ⟨b, hdr, rfl, hpid, hpusi, body, hpacket⟩
  · rcases hwakes with hactive | ⟨hreset, i, hi, hne⟩
    · exact absurd hactive (by simp [hstill])
    · exact absurd (hdata (fun ha => hreset (ha ▸ hact)) i hi) hne
  · exact ⟨b, hdr, body, hact, hpid, hpusi, hpacket⟩

end Sys2Proof.Proofs
end

/-! PROOFS. The clock tracker (43_clock_tracker.md): the layer of facts about the PCR in nanoseconds, about the three
outcomes of ClockTrack as they change the registers, and about the packets that bring it a PCR; then the statements of
R301 to R308. -/

section
/-! ## The PCR in nanoseconds and the valid delta (43 R301, R303, R304) -/

namespace Sys2Proof.Machine

theorem pcrTicks_le (base : BitVec 33) (ext : BitVec 9) : base.toNat * 300 + ext.toNat ≤ 2576980377811 := by
  have hbase := base.isLt
  have hext := ext.isLt
  omega

/-- No PCR reaches 2^64 ns, so the register holds the quotient itself. -/
theorem pcrToNs_toNat (base : BitVec 33) (ext : BitVec 9) :
    (pcrToNs base ext).toNat = (base.toNat * 300 + ext.toNat) * 1000 / 27 := by
  have hticks := pcrTicks_le base ext
  have hquot : ticksToNs (base.toNat * Config.pcrMul + ext.toNat) =
      (((base.toNat * 300 + ext.toNat) * 1000 / 27 : Nat) : Int) := by
    simp only [ticksToNs, Config.pcrMul, Config.nsNum, Config.nsDen]
    norm_cast
  rw [pcrToNs, hquot, uwrap64, BitVec.ofInt_natCast, BitVec.toNat_ofNat]
  omega

theorem isDiscontinuity_iff (delta : Int) : isDiscontinuity delta = true ↔ delta < 0 ∨ 500000000 < delta := by
  rw [isDiscontinuity, Bool.or_eq_true, decide_eq_true_iff, decide_eq_true_iff]
  rfl

theorem isDiscontinuity_eq_false_iff (delta : Int) :
    isDiscontinuity delta = false ↔ 0 ≤ delta ∧ delta ≤ 500000000 := by
  rw [← Bool.not_eq_true, isDiscontinuity_iff, not_or, not_lt, not_lt]

/-- The delta of a packet's PCR, which no register wraps. -/
theorem pcrDelta_pcrNs (d : Dmx) (body : List Byte) :
    pcrDelta d (BitVec.ofNat 64 (pcrNs body)) = pcrNs body - d.regs.pcrPrevNs.toNat := by
  have hle := pcrNs_le body
  rw [pcrDelta, u64, u64, BitVec.toNat_ofNat, Nat.mod_eq_of_lt (by omega)]

end Sys2Proof.Machine
end

section
/-! ## ClockTrack (43 R302 to R308) -/

namespace Sys2Proof.Machine

/-! ### The sums in 64-bit arithmetic: an i64 sum stored in a register is the sum of the registers -/

theorem uwrap64_i64_add (v : DWord) (x : Int) : uwrap64 (i64 v + x) = v + BitVec.ofInt 64 x := by
  rw [uwrap64, i64, BitVec.ofInt_add, BitVec.ofInt_toInt]

theorem bitrate_eq (dist delta : Int) : bitrate dist delta = BitVec.ofInt 64 (Int.tdiv (dist * 8000000000) delta) := by
  rw [bitrate, uwrap64, Int.mul_assoc]
  rfl

theorem frozenDelta_eq (d : Dmx) :
    d.frozenDelta = { d with
      regs := { d.regs with durationNs := d.regs.durationNs + d.regs.lastDeltaNs } } := by
  rw [Dmx.frozenDelta, uwrap64_i64_add, i64, BitVec.ofInt_toInt]

/-- A delta that is not negative gives a bitrate exactly when it is not 0 (R307). -/
theorem validDelta_eq (d : Dmx) {delta : Int} (h : 0 ≤ delta) (off : DWord) :
    d.validDelta delta off = { d with
      regs := { d.regs with
        durationNs := d.regs.durationNs + BitVec.ofInt 64 delta
        lastDeltaNs := BitVec.ofInt 64 delta
        bitrateBps :=
          if delta = 0 then d.regs.bitrateBps
          else BitVec.ofInt 64 (Int.tdiv ((off.toNat - d.regs.pcrPrevOff.toNat) * 8000000000) delta) } } := by
  rw [Dmx.validDelta, uwrap64_i64_add]
  by_cases hzero : delta = 0
  · simp [hzero, uwrap64]
  · rw [if_pos (by omega), if_neg hzero, bitrate_eq]
    rfl

/-! ### The three outcomes, with the registers each leaves -/

variable {s : State} {ns : DWord}

theorem clockTrack_of_first (h : s.dmx.pcrSeen = false) (off : DWord) :
    s.clockTrack ns off = s.setDmx { s.dmx with
      pcrSeen := true
      regs := { s.dmx.regs with pcrBaseNs := ns, pcrPrevNs := ns, pcrPrevOff := off } } := by
  simp [State.clockTrack, h, Dmx.firstPcr]

theorem clockTrack_of_valid (h : s.dmx.pcrSeen = true) (hlow : 0 ≤ pcrDelta s.dmx ns)
    (hhigh : pcrDelta s.dmx ns ≤ 500000000) (off : DWord) :
    s.clockTrack ns off = s.setDmx { s.dmx with
      regs := { s.dmx.regs with
        pcrPrevNs := ns
        pcrPrevOff := off
        durationNs := s.dmx.regs.durationNs + BitVec.ofInt 64 (pcrDelta s.dmx ns)
        lastDeltaNs := BitVec.ofInt 64 (pcrDelta s.dmx ns)
        bitrateBps :=
          if pcrDelta s.dmx ns = 0 then s.dmx.regs.bitrateBps
          else BitVec.ofInt 64
            (Int.tdiv ((off.toNat - s.dmx.regs.pcrPrevOff.toNat) * 8000000000) (pcrDelta s.dmx ns)) } } := by
  have hvalid := (isDiscontinuity_eq_false_iff _).2 ⟨hlow, hhigh⟩
  simp [State.clockTrack, h, hvalid, validDelta_eq _ hlow, Dmx.setPrev]

theorem clockTrack_of_discontinuity (h : s.dmx.pcrSeen = true)
    (hjump : pcrDelta s.dmx ns < 0 ∨ 500000000 < pcrDelta s.dmx ns) (off : DWord) :
    s.clockTrack ns off = (s.setDmx { s.dmx with
      regs := { s.dmx.regs with
        pcrPrevNs := ns
        pcrPrevOff := off
        durationNs := s.dmx.regs.durationNs + s.dmx.regs.lastDeltaNs } }).noteDiscont := by
  have hdiscont := (isDiscontinuity_iff _).2 hjump
  simp [State.clockTrack, h, hdiscont, frozenDelta_eq, Dmx.setPrev]

end Sys2Proof.Machine
end

section
/-! ## Packets with a PCR (41 R236, R238, R240) -/

namespace Sys2Proof.Machine

/-- The prologue and the section part, which come before the PCR part, leave to it the DMX state it reads and writes,
but for DMX_OFFSET, which is past the packet. -/
structure TrackerView (s u : State) : Prop where
  regs : u.dmx.regs = { s.dmx.regs with offset := s.dmx.regs.offset + 188#64 }
  pcrSeen : u.dmx.pcrSeen = s.dmx.pcrSeen
  discont : u.dmx.discont = s.dmx.discont
  idxCount : u.dmx.idxCount = s.dmx.idxCount
  keyframeModeL : u.dmx.keyframeModeL = s.dmx.keyframeModeL

theorem SectionKeeps.trackerView {s u : State} {p : Pid} (h : SectionKeeps p (s.received p) u) : TrackerView s u where
  regs := by rw [h.dmx, received_dmx]; rfl
  pcrSeen := by rw [h.dmx, received_dmx]; rfl
  discont := by rw [h.dmx, received_dmx]; rfl
  idxCount := by rw [h.dmx, received_dmx]; rfl
  keyframeModeL := by rw [h.dmx, received_dmx]; rfl

/-- The PCR part of a packet with a PCR: the clock tracker, then the record with the duration after it (R240). -/
theorem trackPcr_of_hasPcr {body : List Byte} (h : HasPcr body) (u : State) (off : DWord) :
    u.trackPcr (afDecode body) off =
      (u.clockTrack (BitVec.ofNat 64 (pcrNs body)) off).indexEmit off (BitVec.ofNat 64 (pcrNs body))
        (u.clockTrack (BitVec.ofNat 64 (pcrNs body)) off).dmx.regs.durationNs (raiOf body) := by
  obtain ⟨_, hpresent, hrai, hns⟩ := afDecode_of_hasPcr h
  rw [trackPcr_of_present hpresent, hns, hrai]

/-- Both classes with an adaptation field end in the PCR part of it. -/
theorem exec_af_completes {s : State} {hdr : TsHdr} {body : List Byte} {i : Instr}
    (hi : i = .tsAfOnly hdr body ∨ i = .tsAfPayload hdr body) (hok : (s.filter hdr.pid).ok) :
    ∃ u, SectionKeeps hdr.pid (s.received hdr.pid) u ∧
      exec i s = .next (u.trackPcr (afDecode body) s.dmx.regs.offset) := by
  have hevents := afEvents_keeps (s.received hdr.pid) (afDecode body) hdr.pid
  rcases hi with rfl | rfl
  · exact ⟨_, hevents, by simp only [exec, execTsAfOnly, State.process, sectionPart_nil, finish]⟩
  · obtain ⟨u, hu, _⟩ := sectionPart_completes
      (s := (s.received hdr.pid).afEvents (afDecode body)) (p := hdr.pid) (by simpa using received_ok hok) hdr.pusi
      (if (afDecode body).afOk then payloadFrom (afDecode body).ps body else [])
    exact ⟨u, hevents.trans (sectionPart_keeps hu),
      by simp only [exec, execTsAfPayload, State.process, hu, finish]⟩

/-- What a packet with a PCR comes to: the clock tracker and the index builder run on a state that shows them the DMX
state before the packet. -/
theorem exec_of_hasPcr {s : State} {hdr : TsHdr} {body : List Byte} {i : Instr}
    (hi : i = .tsAfOnly hdr body ∨ i = .tsAfPayload hdr body) (hok : (s.filter hdr.pid).ok) (hpcr : HasPcr body) :
    ∃ u, TrackerView s u ∧
      exec i s = .next ((u.clockTrack (BitVec.ofNat 64 (pcrNs body)) s.dmx.regs.offset).indexEmit s.dmx.regs.offset
        (BitVec.ofNat 64 (pcrNs body))
        (u.clockTrack (BitVec.ofNat 64 (pcrNs body)) s.dmx.regs.offset).dmx.regs.durationNs (raiOf body)) := by
  obtain ⟨u, hkeeps, hexec⟩ := exec_af_completes hi hok
  exact ⟨u, hkeeps.trackerView, by rw [hexec, trackPcr_of_hasPcr hpcr]⟩

end Sys2Proof.Machine
end

section
/-! ## The statements -/

namespace Sys2Proof.Proofs

open Sys2Proof.Machine

/-- Settles O17: the tracker takes its branch for a session without a PCR, and leaves the duration and the last delta,
which `Dmx.ok` holds at 0 there. -/
theorem firstPcrSetsTheBase : Obligations.FirstPcrSetsTheBase := by
  intro s hdr body i hi hok hpcr hseen
  obtain ⟨u, hu, hexec⟩ := exec_of_hasPcr hi hok hpcr
  rw [clockTrack_of_first (hu.pcrSeen.trans hseen)] at hexec
  refine ⟨_, hexec, ?_, ?_, ?_, ?_, ?_, fun hdmx => ?_⟩
  · simp
  · simp [hu.regs]
  · simp [hu.discont]
  · simp [hu.idxCount]
  · simp [hu.regs, hu.keyframeModeL]
  · obtain ⟨-, -, -, -, hfresh⟩ := hdmx
    obtain ⟨hduration, hlast, -⟩ := hfresh hseen
    simp [hu.regs, hduration, hlast]

/-- Settles O18: the tracker takes its branch for a valid delta. -/
theorem validDeltaAccumulates : Obligations.ValidDeltaAccumulates := by
  intro s hdr body i hi hok hpcr hseen delta dist hlow hhigh
  obtain ⟨u, hu, hexec⟩ := exec_of_hasPcr hi hok hpcr
  have hdelta : pcrDelta u.dmx (BitVec.ofNat 64 (pcrNs body)) = delta := by rw [pcrDelta_pcrNs, hu.regs]
  rw [← hdelta] at hlow hhigh
  rw [clockTrack_of_valid (hu.pcrSeen.trans hseen) hlow hhigh, hdelta] at hexec
  refine ⟨_, hexec, ?_, ?_, ?_⟩
  · simp [hu.regs, dist]
  · simp [hu.discont]
  · simp [hu.regs, hu.keyframeModeL]

/-- Settles O19: the tracker takes its branch for a discontinuity. -/
theorem discontinuityAppliesTheLastDelta : Obligations.DiscontinuityAppliesTheLastDelta := by
  intro s hdr body i hi hok hpcr hseen hjump
  obtain ⟨u, hu, hexec⟩ := exec_of_hasPcr hi hok hpcr
  have hdelta : pcrDelta u.dmx (BitVec.ofNat 64 (pcrNs body)) = pcrNs body - s.dmx.regs.pcrPrevNs.toNat := by
    rw [pcrDelta_pcrNs, hu.regs]
  rw [← sub_neg, ← hdelta] at hjump
  rw [clockTrack_of_discontinuity (hu.pcrSeen.trans hseen) hjump] at hexec
  refine ⟨_, hexec, ?_, ?_, ?_, ?_⟩
  · simp [hu.regs]
  · simp [hu.discont]
  · simp [State.latched, IrqEvent.bit]
  · simp [hu.regs, hu.keyframeModeL]

/-- Settles O20: the bound on the ticks gives that on the quotient. -/
theorem pcrConversionAndDeltaBounds : Obligations.PcrConversionAndDeltaBounds := by
  refine ⟨fun base ext => ⟨pcrToNs_toNat base ext, pcrTicks_le base ext, ?_⟩, ?_, ?_, ?_, ?_⟩
  · have hticks := pcrTicks_le base ext
    omega
  · exact (isDiscontinuity_eq_false_iff 0).2 (by decide)
  · exact (isDiscontinuity_eq_false_iff 500000000).2 (by decide)
  · exact (isDiscontinuity_iff 500000001).2 (.inr (by decide))
  · exact (isDiscontinuity_iff (-1)).2 (.inl (by decide))

end Sys2Proof.Proofs
end

/-! PROOFS. The index builder (44_index_builder.md): the layer of facts about the take step and about what a full latch
holds back; then the statement of R331. -/

section
/-! ## The take step and the full latch (44 R331) -/

namespace Sys2Proof.Machine

variable {s : State}

theorem State.takeRecord_of_some {r : IdxRecord} (h : s.dmx.idxL = some r) :
    s.takeRecord =
      { s with dmx := { s.dmx with idxL := none }, env := { s.env with idxOut := s.env.idxOut ++ [r] } } := by
  simp only [State.takeRecord, h]

theorem State.takeRecord_of_none (h : s.dmx.idxL = none) : s.takeRecord = s := by
  simp only [State.takeRecord, h]

theorem step_take (h : s.nextAction = some .take) : step s = .next s.popped.takeRecord :=
  step_of_nextAction h

/-- Without a stop request a full latch holds DMX in every phase: outside RUN there is no step to hold. -/
theorem State.dmxStep_of_idxFull_of_not_stopReq (hstop : s.dmx.stopReq = false) (hfull : s.dmx.idxFull = true)
    (ans : PortAns) : s.dmxStep ans = .next s := by
  by_cases hrun : s.dmx.phase = .run
  · exact State.dmxStep_of_idxFull hrun hstop hfull ans
  · exact State.dmxStep_of_not_run hrun ans

theorem exec_dmxStart_of_idxFull (h : s.dmx.idxFull = true) :
    exec .dmxStart s = .next (s.reject 0x01#8 .busy) :=
  if_pos (.inr h)

end Sys2Proof.Machine
end

section
/-! ## The statement -/

namespace Sys2Proof.Proofs

open Sys2Proof.Machine

/-- Settles O38: the take step looks at the latch alone and never at the phase; a full latch stands after the stop request
and before the read in the step selection, and in the guard of DMX_START. -/
theorem takeStepDeliversTheRecord : Obligations.TakeStepDeliversTheRecord := by
  refine fun s => ⟨fun htake => ⟨fun r hlatch => ?_, fun hlatch => ?_⟩, fun hlatch => ⟨fun ans hact hstop => ?_, ?_⟩⟩
  · rw [step_take htake, State.takeRecord_of_some (s := s.popped) hlatch]
    rfl
  · rw [step_take htake, State.takeRecord_of_none (s := s.popped) hlatch]
  · rw [step_dmx hact]
    exact State.dmxStep_of_idxFull_of_not_stopReq (s := s.popped) hstop (s.dmx.idxFull_iff.2 hlatch) ans
  · exact exec_dmxStart_of_idxFull (s.dmx.idxFull_iff.2 hlatch)

end Sys2Proof.Proofs
end

/-! PROOFS. The delivery scheduler (45_delivery_scheduler.md): the layer of facts about a channel's step selection and
what the scheduled step makes of it, about the steps of the phases, about the check point, and about what a channel's step
and a DMX step leave of each other; then the statements of R351, R353, R359, R372, R374 and R377. -/

section
/-! ## The step selection of a channel (45 R351), and its place in the state; its cancel step is
`Channel.step_of_stopReq` -/

namespace Sys2Proof.Machine

variable {s : State} {c : Nat} {k k1 : Channel} {ans : PortAns} {chunk : List Byte}

/-! ### The channel -/

theorem Channel.step_of_not_running (hphase : k.phase ∈ [DlvPhase.idle, .done]) (n : Nat) (now : DWord)
    (ans : PortAns) : k.step n now ans = .hold := by
  simp only [List.mem_cons, List.not_mem_nil, or_false] at hphase
  rcases hphase with hidle | hdone
  · simp [Channel.step, hidle, DlvPhase.running]
  · simp [Channel.step, hdone, DlvPhase.running]

theorem Channel.step_of_fill (hphase : k.phase = .fill) (hstop : k.stopReq = false) (n : Nat) (now : DWord)
    (ans : PortAns) : k.step n now ans = k.fillStep n ans := by
  simp [Channel.step, hphase, hstop]

theorem Channel.step_of_tsread (hphase : k.phase = .tsread) (hstop : k.stopReq = false) (n : Nat) (now : DWord)
    (ans : PortAns) : k.step n now ans = k.tsreadStep now ans := by
  simp [Channel.step, hphase, hstop]

theorem Channel.step_of_wait (hphase : k.phase = .wait) (hstop : k.stopReq = false) (n : Nat) (now : DWord)
    (ans : PortAns) : k.step n now ans = k.waitStep now := by
  simp [Channel.step, hphase, hstop]

theorem Channel.step_of_write (hphase : k.phase = .write) (hstop : k.stopReq = false) (n : Nat) (now : DWord)
    (ans : PortAns) : k.step n now ans = k.writeStep ans := by
  simp [Channel.step, hphase, hstop]

/-- The phases that call a port primitive hold while it is unanswered (00_scope.md R9). -/
theorem Channel.step_of_unanswered (hphase : k.phase ∈ [DlvPhase.fill, .tsread, .write]) (hstop : k.stopReq = false)
    (n : Nat) (now : DWord) : k.step n now .unanswered = .hold := by
  simp only [List.mem_cons, List.not_mem_nil, or_false] at hphase
  rcases hphase with hfill | htsread | hwrite
  · exact Channel.step_of_fill hfill hstop n now _
  · exact Channel.step_of_tsread htsread hstop n now _
  · exact Channel.step_of_write hwrite hstop n now _

/-! ### The state -/

theorem State.dlvStep_of_no_channel (hk : s.ch[c]? = none) : s.dlvStep c ans = .next s := by
  simp only [State.dlvStep, hk]

theorem State.dlvStep_of_hold (hk : s.ch[c]? = some k) (h : k.step s.hw.raBufSize s.env.wallNs ans = .hold) :
    s.dlvStep c ans = .next s := by
  simp only [State.dlvStep, hk, State.now, h]

theorem State.dlvStep_of_badAnswer (hk : s.ch[c]? = some k)
    (h : k.step s.hw.raBufSize s.env.wallNs ans = .badAnswer) : s.dlvStep c ans = .refused .envAnswer := by
  simp only [State.dlvStep, hk, State.now, h]

theorem State.dlvStep_of_go (hk : s.ch[c]? = some k) (h : k.step s.hw.raBufSize s.env.wallNs ans = .go k1 none) :
    s.dlvStep c ans = .next (s.setCh c k1) := by
  simp only [State.dlvStep, hk, State.now, h]

theorem State.dlvStep_of_sent (hk : s.ch[c]? = some k)
    (h : k.step s.hw.raBufSize s.env.wallNs ans = .go k1 (some chunk)) :
    s.dlvStep c ans = .next ((s.setCh c k1).setEnv { s.env with chOut := s.env.chOut ++ [(c, chunk)] }) := by
  simp only [State.dlvStep, hk, State.now, h]

theorem State.setCh_getElem?_self (hk : s.ch[c]? = some k) (k1 : Channel) : (s.setCh c k1).ch[c]? = some k1 := by
  obtain ⟨hc, -⟩ := List.getElem?_eq_some_iff.1 hk
  exact List.getElem?_set_self hc

/-! ### The scheduled step -/

theorem step_dlv (hact : s.nextAction = some (.dlv c ans)) : step s = s.popped.dlvStep c ans :=
  step_of_nextAction hact

theorem step_dlv_of_hold (hact : s.nextAction = some (.dlv c ans)) (hk : s.ch[c]? = some k)
    (h : k.step s.hw.raBufSize s.env.wallNs ans = .hold) : step s = .next s.popped := by
  rw [step_dlv hact]
  exact State.dlvStep_of_hold (s := s.popped) hk h

theorem step_dlv_of_go (hact : s.nextAction = some (.dlv c ans)) (hk : s.ch[c]? = some k)
    (h : k.step s.hw.raBufSize s.env.wallNs ans = .go k1 none) :
    step s = .next { s.popped with ch := s.ch.set c k1 } := by
  rw [step_dlv hact]
  exact State.dlvStep_of_go (s := s.popped) hk h

theorem step_dlv_of_sent (hact : s.nextAction = some (.dlv c ans)) (hk : s.ch[c]? = some k)
    (h : k.step s.hw.raBufSize s.env.wallNs ans = .go k1 (some chunk)) :
    step s = .next { s.popped with
      env := { s.popped.env with chOut := s.env.chOut ++ [(c, chunk)] }
      ch := s.ch.set c k1 } := by
  rw [step_dlv hact]
  exact State.dlvStep_of_sent (s := s.popped) hk h

end Sys2Proof.Machine
end

section
/-! ## The steps of FILL, WAIT and WRITE (45 R353, R372, R374), with the channel each leaves -/

namespace Sys2Proof.Machine

variable {k : Channel}

/-- A register that counts up by a number, modulo 2^64. -/
theorem uwrap64_u64_add (v : DWord) (x : Int) : uwrap64 (u64 v + x) = v + BitVec.ofInt 64 x := by
  rw [uwrap64, u64, BitVec.ofInt_add, BitVec.ofInt_natCast, BitVec.ofNat_toNat, BitVec.setWidth_eq]

theorem Channel.fillStep_bytes {n : Nat} {b : List Byte} (hpos : 1 ≤ b.length) (hroom : k.ra.length + b.length ≤ n) :
    k.fillStep n (.bytes b) =
      .go { k with ra := k.ra ++ b, phase := if 1316 ≤ k.ra.length + b.length then .tsread else .fill } none := by
  rw [Channel.fillStep, if_pos ⟨hpos, hroom⟩, List.length_append]
  rfl

theorem Channel.waitStep_of_le {now : DWord} (h : k.regs.wakeNs.toNat ≤ now.toNat) :
    k.waitStep now = .go { k with phase := .write } none :=
  if_pos h

theorem Channel.waitStep_of_lt {now : DWord} (h : now.toNat < k.regs.wakeNs.toNat) : k.waitStep now = .hold :=
  if_neg (Nat.not_le.2 h)

theorem Channel.consume_eq (k : Channel) :
    k.consume = { k with
      ra := k.ra.drop 1316
      phase := if 1316 ≤ k.ra.length - 1316 then .tsread else .fill
      regs := { k.regs with chunks := k.regs.chunks + 1#64 } } := by
  rw [Channel.consume, uwrap64_u64_add, List.length_drop]
  rfl

theorem Channel.writeOk_eq (k : Channel) :
    k.writeOk = { k with
      ra := k.ra.drop 1316
      phase := if 1316 ≤ k.ra.length - 1316 then .tsread else .fill
      regs := { k.regs with chunks := k.regs.chunks + 1#64, bytes := k.regs.bytes + 1316#64 } } := by
  rw [Channel.writeOk, Channel.consume_eq, uwrap64_u64_add]
  rfl

theorem Channel.writeFault_eq (k : Channel) :
    k.writeFault = { k with
      ra := k.ra.drop 1316
      phase := if 1316 ≤ k.ra.length - 1316 then .tsread else .fill
      wfaults := k.wfaults + 1#32
      evt := k.evt ||| 2#3
      regs := { k.regs with chunks := k.regs.chunks + 1#64 } } := by
  rw [Channel.writeFault, Channel.consume_eq]
  rfl

end Sys2Proof.Machine
end

section
/-! ## The check point (45 R355, R358, R359) -/

namespace Sys2Proof.Machine

variable {k : Channel} {ts now : DWord}

theorem wrap64_eq_bmod (x : Int) : wrap64 x = Int.bmod x (2 ^ 64) := by
  rw [wrap64, BitVec.toInt_ofInt]

theorem streamNs_eq (ts origin : DWord) :
    streamNs ts origin =
      Int.tdiv (Int.bmod (Int.bmod ((ts.toNat : Int) - origin.toNat) (2 ^ 64) * 1000) (2 ^ 64)) 27 := by
  rw [streamNs, t2ns, wrap64_eq_bmod, wrap64_eq_bmod]
  rfl

theorem checkDelay_eq (k : Channel) (ts now : DWord) :
    checkDelay k ts now =
      Int.bmod (streamNs ts k.regs.epochStream - Int.bmod ((now.toNat : Int) - k.regs.epochWall.toNat) (2 ^ 64))
        (2 ^ 64) := by
  rw [checkDelay, wrap64_eq_bmod, wrap64_eq_bmod]
  rfl

theorem capPassed_iff (k : Channel) (ts : DWord) :
    capPassed k ts = true ↔
      k.maxDurL ≠ 0#32 ∧ (k.maxDurL.toNat : Int) * 1000000000 < streamNs ts k.regs.firstTs := by
  rw [capPassed, Bool.and_eq_true, bne_iff_ne, decide_eq_true_iff]
  rfl

theorem capPassed_eq_false_iff (k : Channel) (ts : DWord) :
    capPassed k ts = false ↔
      ¬ (k.maxDurL ≠ 0#32 ∧ (k.maxDurL.toNat : Int) * 1000000000 < streamNs ts k.regs.firstTs) := by
  rw [← Bool.not_eq_true, capPassed_iff]

/-! ### The four outcomes, in the order of R359 -/

theorem Channel.check_of_capped (hcap : capPassed k ts = true) (now : DWord) :
    k.check ts now = k.terminate .durationCap :=
  if_pos hcap

theorem Channel.check_of_ahead (hcap : capPassed k ts = false) (h : 0 < checkDelay k ts now) :
    k.check ts now = { k with
      phase := .wait
      regs := { k.regs with
        lastDelay := BitVec.ofInt 64 (checkDelay k ts now)
        wakeNs := now + BitVec.ofInt 64 (checkDelay k ts now) } } := by
  simp only [Channel.check, hcap, h, if_true, if_false, Bool.false_eq_true, uwrap64_u64_add]
  rfl

theorem Channel.check_of_late (hcap : capPassed k ts = false) (h : checkDelay k ts now < -1000000000) :
    k.check ts now = { k with
      phase := .write
      resyncs := k.resyncs + 1#32
      evt := k.evt ||| 4#3
      regs := { k.regs with
        lastDelay := BitVec.ofInt 64 (checkDelay k ts now)
        epochWall := now
        epochStream := ts } } := by
  have hahead : ¬ 0 < checkDelay k ts now := by omega
  have hlate : checkDelay k ts now < -(Config.lateBoundNs : Int) := h
  simp only [Channel.check, hcap, hahead, hlate, if_true, if_false, Bool.false_eq_true]
  rfl

theorem Channel.check_of_on_time (hcap : capPassed k ts = false) (hahead : checkDelay k ts now ≤ 0)
    (hlate : -1000000000 ≤ checkDelay k ts now) :
    k.check ts now = { k with
      phase := .write
      regs := { k.regs with lastDelay := BitVec.ofInt 64 (checkDelay k ts now) } } := by
  have hlate' : ¬ checkDelay k ts now < -(Config.lateBoundNs : Int) := Int.not_lt.2 hlate
  simp only [Channel.check, hcap, Int.not_lt.2 hahead, hlate', if_false, Bool.false_eq_true]
  rfl

/-- The channel that comes to the check of a timestamp: the timestamp is noted, and neither the epoch nor the first
timestamp nor the cap has moved. -/
theorem Channel.timestamp_of_check_point (hchunk : k.regs.chunks ≠ 0#64) (hcheck : k.regs.chunks.toNat % 10 = 0)
    (ts now : DWord) :
    k.timestamp ts now =
      Channel.check { k with
        regs := { k.regs with
          curTs := ts
          prevTs := ts
          lastGoodDelta :=
            if k.regs.prevTs.toNat ≤ ts.toNat then ts - k.regs.prevTs else k.regs.lastGoodDelta } } ts now := by
  have hinterval : k.regs.chunks.toNat % Config.checkInterval = 0 := hcheck
  simp only [Channel.timestamp, hchunk, hinterval, if_true, if_false]
  rfl

/-- A whole track entry is read in TSREAD (R355). -/
theorem Channel.tsreadStep_bytes {b : List Byte} (hb : b.length = 8) (k : Channel) (now : DWord) :
    k.tsreadStep now (.bytes b) = .go (k.timestamp (BitVec.ofNat 64 (beNat b)) now) none :=
  if_pos hb

end Sys2Proof.Machine
end

section
/-! ## What a channel's step and a DMX step leave of each other (45 R377) -/

namespace Sys2Proof.Machine

variable {s t : State}

/-- A channel's step writes its own channel and the log of the chunks delivered. -/
theorem dlvStep_frame {c : Nat} {ans : PortAns} (h : s.dlvStep c ans = .next t) :
    (∀ c', c' ≠ c → t.ch[c']? = s.ch[c']?) ∧ t = { s with ch := t.ch, env := { s.env with chOut := t.env.chOut } } := by
  rcases dlvStep_cases h with rfl | ⟨k, k1, _, ⟨_, rfl⟩ | ⟨chunk, _, rfl⟩⟩
  · exact ⟨fun _ _ => rfl, rfl⟩
  · exact ⟨fun c' hc => List.getElem?_set_ne hc.symm, rfl⟩
  · exact ⟨fun c' hc => List.getElem?_set_ne hc.symm, rfl⟩

/-- A channel's step, read off the channel, the wall clock and RA_BUF_SIZE of the state. -/
theorem dlvStep_congr {s' : State} {c : Nat} {ans : PortAns} (hch : s.ch[c]? = s'.ch[c]?)
    (hwall : s.env.wallNs = s'.env.wallNs) (hra : s.hw.raBufSize = s'.hw.raBufSize)
    (h : s.dlvStep c ans = .next t) : ∃ t', s'.dlvStep c ans = .next t' ∧ t'.ch[c]? = t.ch[c]? := by
  cases hk : s.ch[c]? with
  | none =>
    rw [State.dlvStep_of_no_channel hk] at h
    cases h
    exact ⟨s', State.dlvStep_of_no_channel (hch ▸ hk), hch.symm⟩
  | some k =>
    have hk' : s'.ch[c]? = some k := hch ▸ hk
    have hsame : k.step s'.hw.raBufSize s'.env.wallNs ans = k.step s.hw.raBufSize s.env.wallNs ans := by
      rw [hwall, hra]
    cases hstep : k.step s.hw.raBufSize s.env.wallNs ans with
    | hold =>
      rw [State.dlvStep_of_hold hk hstep] at h
      cases h
      exact ⟨s', State.dlvStep_of_hold hk' (hsame.trans hstep), hch.symm⟩
    | badAnswer =>
      rw [State.dlvStep_of_badAnswer hk hstep] at h
      cases h
    | go k1 sent =>
      cases sent with
      | none =>
        rw [State.dlvStep_of_go hk hstep] at h
        cases h
        exact ⟨_, State.dlvStep_of_go hk' (hsame.trans hstep),
          (State.setCh_getElem?_self hk' k1).trans (State.setCh_getElem?_self hk k1).symm⟩
      | some chunk =>
        rw [State.dlvStep_of_sent hk hstep] at h
        cases h
        exact ⟨_, State.dlvStep_of_sent hk' (hsame.trans hstep),
          (State.setCh_getElem?_self hk' k1).trans (State.setCh_getElem?_self hk k1).symm⟩

/-- No packet class writes a channel. -/
theorem exec_packet_ch {b : List Byte} {i : Instr} (hb : decodePacket b = .ok i) (h : exec i s = .next t) :
    t.ch = s.ch := by
  have hlen : b.length = Config.pktSize := by
    by_contra hlen
    simp [decodePacket, hlen] at hb
  rw [decodePacket_eq hlen] at hb
  cases hb
  cases hclass : headerClass (headerWord b) with
  | afPayload => rw [hclass] at h; exact (exec_packet_keeps (.inl rfl) h).ch
  | payload => rw [hclass] at h; exact (exec_packet_keeps (.inr (.inl rfl)) h).ch
  | afOnly => rw [hclass] at h; exact (exec_packet_keeps (.inr (.inr rfl)) h).ch
  | afcReserved => rw [hclass] at h; cases h; exact received_ch s _
  | syncFault =>
    rw [hclass] at h
    simp only [TsClass.instr, exec, execTsSyncFault, Host.Outcome.next.injEq] at h
    subst h
    split <;> rfl

theorem dmxStep_ch {ans : PortAns} (h : s.dmxStep ans = .next t) : t.ch = s.ch := by
  rcases dmxStep_cases h with
    rfl | ⟨_, _, rfl⟩ | ⟨_, _, _, ⟨_, _, _, hb, hexec⟩ | ⟨n, _, _, rfl⟩ | ⟨_, rfl⟩⟩
  · rfl
  · rfl
  · exact exec_packet_ch hb hexec
  · rcases dmxEos_cases s n with ⟨_, heos⟩ | ⟨_, heos⟩ <;> rw [heos] <;> rfl
  · rfl

end Sys2Proof.Machine
end

section
/-! ## The statements -/

namespace Sys2Proof.Proofs

open Sys2Proof.Machine

/-- Settles O39: the branches of the step selection in their order. -/
theorem channelStepSelection : Obligations.ChannelStepSelection := by
  intro s c k ans hact hk
  refine ⟨fun hidle => ?_, fun hrun hstop => ?_, fun hport hstop hans => ?_, fun hwait hstop hwake => ?_⟩
  · exact step_dlv_of_hold hact hk (Channel.step_of_not_running hidle _ _ _)
  · exact step_dlv_of_go hact hk (Channel.step_of_stopReq (k.phase.running_iff.2 hrun) hstop _ _ _)
  · subst hans
    exact step_dlv_of_hold hact hk (Channel.step_of_unanswered hport hstop _ _)
  · refine step_dlv_of_hold hact hk ?_
    rw [Channel.step_of_wait hwait hstop, Channel.waitStep_of_lt hwake]

/-- Settles O40: the three answers to the read of FILL. -/
theorem fillAppendsOrEnds : Obligations.FillAppendsOrEnds := by
  intro s c k ans hact hk hfill hstop
  have hstep := Channel.step_of_fill hfill hstop s.hw.raBufSize s.env.wallNs
  refine ⟨fun b hans hpos hroom => ?_, fun hans => ?_, fun hans => ?_⟩ <;> subst hans
  · exact step_dlv_of_go hact hk ((hstep _).trans (Channel.fillStep_bytes hpos (by omega)))
  · exact step_dlv_of_go hact hk (hstep _)
  · exact step_dlv_of_go hact hk (hstep _)

/-- Settles O42: the check of R359 on the channel with the timestamp noted, its four outcomes in their order. -/
theorem checkPointPacesTheChannel : Obligations.CheckPointPacesTheChannel := by
  intro s c k b hact hk htsread hstop hb hchunk hcheck ts now wrap t2ns capElapsed streamElapsed wallElapsed delay
    capped k1 k2
  have hstep : step s = .next { s.popped with ch := s.ch.set c (k1.check ts now) } := by
    refine step_dlv_of_go hact hk ?_
    rw [Channel.step_of_tsread htsread hstop, Channel.tsreadStep_bytes hb,
      Channel.timestamp_of_check_point hchunk hcheck]
  have hdelay : checkDelay k1 ts now = delay := by
    rw [checkDelay_eq, streamNs_eq]
  have hcapped : capPassed k1 ts = true ↔ capped := by
    rw [capPassed_iff, streamNs_eq]
  have huncapped (h : ¬ capped) : capPassed k1 ts = false := Bool.eq_false_iff.2 (mt hcapped.1 h)
  rw [hstep]
  refine ⟨fun hcap => ?_, fun hcap hahead => ?_, fun hcap hlate => ?_, fun hcap hnow hlate => ?_⟩
  · rw [Channel.check_of_capped (hcapped.2 hcap)]
    rfl
  · rw [Channel.check_of_ahead (huncapped hcap) (by rwa [hdelay]), hdelay]
  · rw [Channel.check_of_late (huncapped hcap) (by rwa [hdelay]), hdelay]
  · rw [Channel.check_of_on_time (huncapped hcap) (by rwa [hdelay]) (by rwa [hdelay]), hdelay]

/-- Settles O43: the two sides of the comparison in WAIT. -/
theorem waitEndsAtTheWakeTime : Obligations.WaitEndsAtTheWakeTime := by
  intro s c k ans hact hk hwait hstop
  have hstep := Channel.step_of_wait hwait hstop s.hw.raBufSize s.env.wallNs ans
  exact ⟨fun hwake => step_dlv_of_go hact hk (hstep.trans (Channel.waitStep_of_le hwake)),
    fun hwake => step_dlv_of_hold hact hk (hstep.trans (Channel.waitStep_of_lt hwake))⟩

/-- Settles O44: both answers consume the chunk, and only OK sends it. -/
theorem writeConsumesOneChunk : Obligations.WriteConsumesOneChunk := by
  intro s c k ans hact hk hwrite hstop next
  have hstep := Channel.step_of_write hwrite hstop s.hw.raBufSize s.env.wallNs
  refine ⟨fun hans => ?_, fun hans => ?_⟩ <;> subst hans
  · rw [step_dlv_of_sent hact hk (hstep _), Channel.writeOk_eq]
    rfl
  · rw [step_dlv_of_go hact hk (hstep _), Channel.writeFault_eq]

/-- Settles O45: a channel's step writes its own channel alone and reads no more than its arguments; a DMX step is a
packet or an end of its session, and neither writes a channel. -/
theorem sessionsAreIndependent : Obligations.SessionsAreIndependent :=
  ⟨fun _ _ _ _ => dlvStep_frame, fun _ _ _ _ _ => dlvStep_congr, fun _ _ _ => dmxStep_ch⟩

end Sys2Proof.Proofs
end

/-! PROOFS. Exceptions and events (60_exceptions.md): the layer of facts about the bits of IRQ_STATUS, the event bits and
the channels' summaries; then the statement of R420. -/

section
/-! ## The bits of IRQ_STATUS (10_state.md R38) and the interrupt line (60 R420) -/

namespace Sys2Proof.Machine

/-- A masked word is not 0 when some bit of the word is under the mask. -/
theorem and_ne_zero_iff_exists_getLsbD {n : Nat} {v w : BitVec n} :
    v &&& w ≠ 0#n ↔ ∃ i, v.getLsbD i = true ∧ w.getLsbD i = true := by
  simp [BitVec.zero_iff_eq_false]

theorem getLsbD_fieldAt_iff {n : Nat} (v : BitVec n) (lo i : Nat) :
    (fieldAt v lo).getLsbD i = true ↔ i < 32 ∧ lo ≤ i ∧ v.getLsbD (i - lo) = true := by
  simp only [fieldAt, BitVec.getLsbD_shiftLeft, BitVec.getLsbD_setWidth, Bool.and_eq_true, decide_eq_true_eq,
    Bool.not_eq_true', decide_eq_false_iff_not, Nat.not_lt]
  exact ⟨fun ⟨⟨h32, hlo⟩, _, hv⟩ => ⟨h32, hlo, hv⟩, fun ⟨h32, hlo, hv⟩ => ⟨⟨h32, hlo⟩, by omega, hv⟩⟩

theorem getLsbD_boolBit_iff (b : Bool) (i : Nat) : (boolBit b).getLsbD i = true ↔ i = 0 ∧ b = true := by
  cases b <;> simp [boolBit, BitVec.getLsbD_one]

theorem getLsbD_flagAt_iff (b : Bool) (lo i : Nat) :
    (flagAt b lo).getLsbD i = true ↔ i < 32 ∧ i = lo ∧ b = true := by
  have hplace : lo ≤ i ∧ i - lo = 0 ↔ i = lo := by omega
  rw [flagAt, getLsbD_fieldAt_iff, getLsbD_boolBit_iff, ← and_assoc (a := lo ≤ i), hplace]

theorem Channel.summary_iff (k : Channel) :
    k.summary = true ↔ ∃ j, k.evt.getLsbD j = true ∧ k.evtEn.getLsbD j = true := by
  rw [← and_ne_zero_iff_exists_getLsbD]
  exact bne_iff_ne

/-- The summary bits of the channels from the `c`-th on: bit `16 + (c + m)` is that of the `m`-th of them. -/
theorem getLsbD_summaryBits_iff (ks : List Channel) (c i : Nat) :
    (summaryBits ks c).getLsbD i = true ↔
      i < 32 ∧ ∃ m k, i = 16 + (c + m) ∧ ks[m]? = some k ∧ k.summary = true := by
  induction ks generalizing c with
  | nil => simp [summaryBits]
  | cons k ks ih =>
    rw [summaryBits, BitVec.getLsbD_or, Bool.or_eq_true, getLsbD_flagAt_iff, ih, ← and_or_left]
    refine and_congr_right fun _ => ⟨?_, ?_⟩
    · rintro (⟨hi, hk⟩ | ⟨m, k', hi, hk', hsum⟩)
      · exact ⟨0, k, hi, rfl, hk⟩
      · exact ⟨m + 1, k', by omega, hk', hsum⟩
    · rintro ⟨_ | m, k', hi, hk', hsum⟩
      · obtain rfl : k = k' := Option.some.inj hk'
        exact .inl ⟨hi, hsum⟩
      · exact .inr ⟨m, k', by omega, hk', hsum⟩

/-- IRQ_STATUS holds the event bits in their places and the summary of channel `c` at bit `16 + c`. -/
theorem State.getLsbD_irqStatusWord_iff (s : State) (i : Nat) :
    s.irqStatusWord.getLsbD i = true ↔
      s.irqEvents.getLsbD i = true ∨
        i < 32 ∧ ∃ c k, i = 16 + c ∧ s.ch[c]? = some k ∧ k.summary = true := by
  have hevents : i < 32 ∧ 0 ≤ i ∧ s.irqEvents.getLsbD (i - 0) = true ↔ s.irqEvents.getLsbD i = true :=
    ⟨fun ⟨_, _, h⟩ => h, fun h => ⟨by have := BitVec.lt_of_getLsbD h; omega, i.zero_le, h⟩⟩
  rw [irqStatusWord, BitVec.getLsbD_or, Bool.or_eq_true, getLsbD_fieldAt_iff, hevents, getLsbD_summaryBits_iff]
  simp only [Nat.zero_add]

theorem State.irq_iff (s : State) :
    s.irq = true ↔ ∃ i, s.irqStatusWord.getLsbD i = true ∧ s.irqEnable.getLsbD i = true := by
  rw [← and_ne_zero_iff_exists_getLsbD]
  exact bne_iff_ne

end Sys2Proof.Machine
end

section
/-! ## The statement -/

namespace Sys2Proof.Proofs

open Sys2Proof.Machine

/-- Settles O48: the enabled bit of IRQ_STATUS is an event bit or a summary bit. -/
theorem irqIsTheEnabledEvents : Obligations.IrqIsTheEnabledEvents := by
  intro s
  rw [s.irq_iff]
  constructor
  · rintro ⟨i, hi, hen⟩
    rcases (s.getLsbD_irqStatusWord_iff i).1 hi with hevt | ⟨-, c, k, rfl, hk, hsum⟩
    · exact .inl ⟨i, BitVec.lt_of_getLsbD hevt, hevt, hen⟩
    · obtain ⟨j, hevt, hevtEn⟩ := k.summary_iff.1 hsum
      exact .inr ⟨c, k, hk, hen, j, BitVec.lt_of_getLsbD hevt, hevt, hevtEn⟩
  · rintro (⟨i, -, hevt, hen⟩ | ⟨c, k, hk, hen, j, -, hevt, hevtEn⟩)
    · exact ⟨i, (s.getLsbD_irqStatusWord_iff i).2 (.inl hevt), hen⟩
    · have hsum : k.summary = true := k.summary_iff.2 ⟨j, hevt, hevtEn⟩
      have h32 : 16 + c < 32 := BitVec.lt_of_getLsbD hen
      exact ⟨16 + c, (s.getLsbD_irqStatusWord_iff _).2 (.inr ⟨h32, c, k, rfl, hk, hsum⟩), hen⟩

end Sys2Proof.Proofs
end

/-! PROOFS. Reset (70_reset_and_hazards.md): the layer of facts about what the registers of the reset state read as and
about the offsets of BLK_ID and HW_CFG; then the statement of R451. -/

section
/-! ## The words of the reset state (70 R450, R451) -/

namespace Sys2Proof.Machine

theorem resetWith_channel {n : Nat} {hw : HwParams} {env : Env} {c : Nat} {k : Channel}
    (h : (State.resetWith n hw env).ch[c]? = some k) : k = .reset :=
  List.eq_of_mem_replicate (List.mem_of_getElem? h)

/-- At reset no event is latched, neither globally nor in a channel, however many channels there are. -/
theorem resetWith_irqStatusWord (n : Nat) (hw : HwParams) (env : Env) :
    (State.resetWith n hw env).irqStatusWord = 0#32 := by
  rw [BitVec.zero_iff_eq_false]
  intro i
  rw [← Bool.not_eq_true, State.getLsbD_irqStatusWord_iff]
  rintro (hevent | ⟨-, c, k, -, hk, hsummary⟩)
  · exact absurd hevent (by simp [State.resetWith])
  · obtain rfl := resetWith_channel hk
    cases hsummary

theorem Channel.readWord_reset (r : ChReg) : Channel.reset.readWord r = 0#32 := by
  cases r with
  | lo q => cases q <;> rfl
  | hi q => cases q <;> rfl
  | _ => rfl

theorem CmdStatus.word_reset :
    CmdStatus.word { rejected := false, rejOpcode := 0#8, rejReason := .none } = 0#32 := by decide

theorem Dmx.statusWord_reset : Dmx.reset.statusWord = 0#32 := by decide

theorem Dmx.fltLenWord_reset : Dmx.reset.fltLenWord = 0#32 := by decide

theorem Filter.infoWord_reset : Filter.reset.infoWord = 0#32 := by decide

/-- Only the two identity registers read anything but 0 at reset. -/
theorem resetWith_readWord_of_ne (n : Nat) (hw : HwParams) (env : Env) {r : Reg} (hblk : r ≠ .blkId)
    (hcfg : r ≠ .hwCfg) : (State.resetWith n hw env).readWord r = 0#32 := by
  cases r with
  | blkId => exact absurd rfl hblk
  | hwCfg => exact absurd rfl hcfg
  | cmdStatus => exact CmdStatus.word_reset
  | dmxStatus => exact Dmx.statusWord_reset
  | fltInfo => exact Filter.infoWord_reset
  | fltLen => exact Dmx.fltLenWord_reset
  | irqStatus => exact resetWith_irqStatusWord n hw env
  | dmxLo q => cases q <;> rfl
  | dmxHi q => cases q <;> rfl
  | ch c r =>
    cases hk : (State.resetWith n hw env).ch[c]? with
    | none => simp only [State.readWord, hk]
    | some k =>
      rw [State.readWord_ch hk, resetWith_channel hk, Channel.readWord_reset]
  | _ => rfl

theorem resetWith_readWord_hwCfg (n : Nat) (hw : HwParams) (env : Env) :
    (State.resetWith n hw env).readWord .hwCfg = hwCfgWord n :=
  congrArg hwCfgWord (List.length_replicate ..)

/-- HW_CFG.N_DLV, a field of 5 bits, holds every number of channels below 32 (10_state.md R40). -/
theorem hwCfgWord_of_lt {n : Nat} (h : n < 32) : hwCfgWord n = BitVec.ofNat 32 n ||| 0x4700#32 := by
  have hfield : (BitVec.ofNat 5 n).setWidth 32 = BitVec.ofNat 32 n := by
    apply BitVec.eq_of_toNat_eq
    simp only [BitVec.toNat_setWidth, BitVec.toNat_ofNat]
    omega
  have hcount : fieldAt (BitVec.ofNat 5 n) 0 = BitVec.ofNat 32 n := by rw [fieldAt, hfield, BitVec.shiftLeft_zero]
  have hsync : fieldAt Config.syncByte 8 = 0x4700#32 := rfl
  rw [hwCfgWord, hcount, hsync]

/-- BLK_ID and HW_CFG each stand at one offset only. -/
theorem regAt_ne_identity {n a : Nat} (hblk : a ≠ 0x000) (hcfg : a ≠ 0x014) :
    regAt n a ≠ .blkId ∧ regAt n a ≠ .hwCfg := by
  have rows : ∀ e ∈ globalMap, e.1 ≠ 0x000 → e.1 ≠ 0x014 → e.2 ≠ .blkId ∧ e.2 ≠ .hwCfg := by decide
  rcases regAt_cases n a with (hr | ⟨c, hr⟩) | hrow | ⟨c, o, r, -, -, hr, -⟩
  · rw [hr]; exact ⟨Reg.noConfusion, Reg.noConfusion⟩
  · rw [hr]; exact ⟨Reg.noConfusion, Reg.noConfusion⟩
  · exact rows _ hrow hblk hcfg
  · rw [hr]; exact ⟨Reg.noConfusion, Reg.noConfusion⟩

end Sys2Proof.Machine
end

section
/-! ## The statement -/

namespace Sys2Proof.Proofs

open Sys2Proof.Machine

/-- Settles O58: the two identity offsets have their own words; at every other offset stands a register that the reset
state reads as 0. -/
theorem registersReadTheirResetValues : Obligations.RegistersReadTheirResetValues := by
  intro n hw env a _ hn _ _
  by_cases hblk : a = 0x000
  · subst hblk
    rfl
  by_cases hcfg : a = 0x014
  · subst hcfg
    have hreg : regAt n 0x014 = .hwCfg := rfl
    rw [hreg, resetWith_readWord_hwCfg, hwCfgWord_of_lt (by omega), if_neg hblk, if_pos rfl]
  · obtain ⟨hneBlk, hneCfg⟩ := regAt_ne_identity (n := n) hblk hcfg
    rw [resetWith_readWord_of_ne n hw env hneBlk hneCfg, if_neg hblk, if_neg hcfg]

end Sys2Proof.Proofs
end

/-! PROOFS. The encoding, both ways (30_encoding.md): the layer of facts about the header word as a row of its fields and
about a packet's bytes as its header word and its body; then the statements that each of decoder and encoder undoes the
other, and the vectors of 95_test_vectors.md. -/

section
/-! ## The header word as a row of its fields (30_encoding.md R134) -/

namespace Sys2Proof

theorem boolBit_inj {a b : Bool} : boolBit a = boolBit b ↔ a = b := by
  cases a <;> cases b <;> decide

theorem boolBit_getLsbD {n : Nat} (v : BitVec n) (i : Nat) : boolBit (v.getLsbD i) = v.extractLsb' i 1 := by
  apply BitVec.eq_of_getLsbD_eq
  intro j hj
  obtain rfl : j = 0 := by omega
  cases h : v.getLsbD i <;> simp [boolBit, h]

/-- A header word, cut at all its fields. -/
theorem header_fields_split (h : Word) :
    h.extractLsb' 24 8 ++ boolBit (headerFields h).tei ++ boolBit (headerFields h).pusi ++
      boolBit (headerFields h).prio ++ (headerFields h).pid ++ (headerFields h).tsc ++ h.extractLsb' 4 2 ++
      (headerFields h).cc = h := by
  simp only [headerFields, boolBit_getLsbD]
  rw [BitVec.extractLsb'_append_extractLsb'_eq_extractLsb' (show 24 = 23 + 1 from rfl),
    BitVec.extractLsb'_append_extractLsb'_eq_extractLsb' (show 23 = 22 + 1 from rfl),
    BitVec.extractLsb'_append_extractLsb'_eq_extractLsb' (show 22 = 21 + 1 from rfl),
    BitVec.extractLsb'_append_extractLsb'_eq_extractLsb' (show 21 = 8 + 13 from rfl),
    BitVec.extractLsb'_append_extractLsb'_eq_extractLsb' (show 8 = 6 + 2 from rfl),
    BitVec.extractLsb'_append_extractLsb'_eq_extractLsb' (show 6 = 4 + 2 from rfl),
    BitVec.extractLsb'_append_extractLsb'_eq_extractLsb' (show 4 = 0 + 4 from rfl)]
  exact BitVec.extractLsb'_eq_self

theorem tsHeaderWord_eq_append (afc : BitVec 2) (f : TsHdr) :
    tsHeaderWord afc f =
      0x47#8 ++ boolBit f.tei ++ boolBit f.pusi ++ boolBit f.prio ++ f.pid ++ f.tsc ++ afc ++ f.cc := rfl

/-- A header word with SYNC_BYTE is the row of its own fields. -/
theorem tsHeaderWord_headerFields {h : Word} (hsync : h.extractLsb' 24 8 = 0x47#8) :
    tsHeaderWord (h.extractLsb' 4 2) (headerFields h) = h := by
  conv_rhs => rw [← header_fields_split h, hsync]
  exact tsHeaderWord_eq_append _ _

theorem fields_tsHeaderWord (afc : BitVec 2) (f : TsHdr) :
    (tsHeaderWord afc f).extractLsb' 24 8 = 0x47#8 ∧ (tsHeaderWord afc f).extractLsb' 4 2 = afc ∧
      headerFields (tsHeaderWord afc f) = f := by
  have h := header_fields_split (tsHeaderWord afc f)
  conv at h => rhs; rw [tsHeaderWord_eq_append]
  simp only [append_eq_append_iff, boolBit_inj] at h
  obtain ⟨⟨⟨⟨⟨⟨⟨hsync, htei⟩, hpusi⟩, hprio⟩, hpid⟩, htsc⟩, hafc⟩, hcc⟩ := h
  refine ⟨hsync, hafc, ?_⟩
  cases f
  rw [headerFields, TsHdr.mk.injEq]
  exact ⟨htei, hpusi, hprio, hpid, htsc, hcc⟩

/-- The class that R137 gives a packet with SYNC_BYTE and the given AFC. -/
def classOfAfc (afc : BitVec 2) : TsClass :=
  if afc = 3#2 then .afPayload else if afc = 1#2 then .payload else if afc = 2#2 then .afOnly else .afcReserved

theorem headerClass_of_sync {h : Word} (hsync : h.extractLsb' 24 8 = 0x47#8) :
    headerClass h = classOfAfc (h.extractLsb' 4 2) := by
  rw [headerClass_eq, if_pos hsync]
  rfl

end Sys2Proof
end

section
/-! ## A packet's bytes as its header word and its body (20_memory.md R105, 30_encoding.md R134) -/

namespace Sys2Proof

/-- The four bytes of a header word, read back. -/
theorem headerWord_toBytesBE_append (h : Word) (body : List Byte) :
    headerWord (toBytesBE 4 h.toNat ++ body) = h := by
  apply BitVec.eq_of_toNat_eq
  have hlt := h.isLt
  simp only [headerWord, toBytesBE, beNat, List.nil_append, List.cons_append, List.take_succ_cons, List.take_zero,
    List.foldl_cons, List.foldl_nil, BitVec.toNat_ofNat]
  omega

/-- The first four bytes of a packet, written back from its header word. -/
theorem toBytesBE_headerWord {b : List Byte} (hb : 4 ≤ b.length) : toBytesBE 4 (headerWord b).toNat = b.take 4 := by
  match b, hb with
  | b0 :: b1 :: b2 :: b3 :: _, _ =>
    have h0 := b0.isLt
    have h1 := b1.isLt
    have h2 := b2.isLt
    have h3 := b3.isLt
    simp only [headerWord, toBytesBE, beNat, List.nil_append, List.cons_append, List.take_succ_cons, List.take_zero,
      List.foldl_cons, List.foldl_nil, BitVec.toNat_ofNat, List.cons.injEq, and_true]
    refine ⟨?_, ?_, ?_, ?_⟩ <;> apply BitVec.eq_of_toNat_eq <;> rw [BitVec.toNat_ofNat] <;> omega

theorem decodePacket_packetBytes (afc : BitVec 2) (f : TsHdr) {body : List Byte} (hbody : body.length = 184) :
    decodePacket (packetBytes afc f body) = .ok ((classOfAfc afc).instr f (packetBytes afc f body)) := by
  obtain ⟨hsync, hafc, hfields⟩ := fields_tsHeaderWord afc f
  have hword : headerWord (packetBytes afc f body) = tsHeaderWord afc f := headerWord_toBytesBE_append _ _
  rw [decodePacket_eq (by rw [Laws.length_packetBytes, hbody]; rfl), hword, headerClass_of_sync hsync, hafc, hfields]

/-- A packet with SYNC_BYTE is the encoding of its AFC, its fields and what follows its first four bytes. -/
theorem packetBytes_of_sync {b : List Byte} (hb : 4 ≤ b.length) (hsync : byteAt b 0 = 0x47#8) :
    packetBytes ((headerWord b).extractLsb' 4 2) (headerFields (headerWord b)) (b.drop 4) = b := by
  rw [packetBytes, tsHeaderWord_headerFields ((syncByte_headerWord hb).trans hsync), toBytesBE_headerWord hb,
    List.take_append_drop]

end Sys2Proof
end

section
/-! ## Each decoder against the encoder -/

namespace Sys2Proof

theorem decodeCommand_encode {i : Instr} {w : Word} (h : encode i = .command w) : decodeCommand w = .ok i := by
  cases i <;> cases h <;> simp [decodeCommand, Laws.reservedZero_cmdWord]

theorem encode_of_decodeCommand {w : Word} {i : Instr} (h : decodeCommand w = .ok i) :
    encode i = .command w ∧ i.wf = true := by
  have hword (hzero : cmdReservedZero w = true) : Code.command (cmdWord (cmdOpcode w) (cmdChan w) (cmdPid w)) =
      .command w := by rw [← eq_cmdWord_of_reservedZero hzero]
  simp only [decodeCommand] at h
  split_ifs at h with hop hused hop hused hop hused hop hused hop hused hop hused <;> cases h
  all_goals
    simp only [Bool.and_eq_true, beq_iff_eq] at hused
    refine ⟨?_, rfl⟩
    rw [← hword hused.1]
    simp only [encode, hop, hused]

theorem decodePacket_encode {i : Instr} {b : List Byte} (hwf : i.wf = true) (h : encode i = .packet b) :
    decodePacket b = .ok i := by
  cases i with
  | tsAfPayload f body => cases h; exact decodePacket_packetBytes _ f (beq_iff_eq.1 hwf)
  | tsPayload f body => cases h; exact decodePacket_packetBytes _ f (beq_iff_eq.1 hwf)
  | tsAfOnly f body => cases h; exact decodePacket_packetBytes _ f (beq_iff_eq.1 hwf)
  | tsAfcReserved f body => cases h; exact decodePacket_packetBytes _ f (beq_iff_eq.1 hwf)
  | tsSyncFault sync rest =>
    cases h
    simp only [Instr.wf, Bool.and_eq_true, bne_iff_ne, beq_iff_eq] at hwf
    obtain ⟨hsync, hrest⟩ := hwf
    have hlen : (sync :: rest).length = Config.pktSize := by rw [List.length_cons, hrest]; rfl
    have hclass : headerClass (headerWord (sync :: rest)) = .syncFault := by
      rw [headerClass_headerWord (by rw [hlen]; decide)]
      exact if_neg hsync
    rw [decodePacket_eq hlen, hclass]
    rfl
  | nop | dmxStart | dmxStop | fltReset | dlvStart | dlvStop => cases h

theorem encode_of_decodePacket {b : List Byte} {i : Instr} (h : decodePacket b = .ok i) :
    encode i = .packet b ∧ i.wf = true := by
  have hlen : b.length = Config.pktSize := by
    by_contra hlen
    simp [decodePacket, hlen] at h
  have hb : 4 ≤ b.length := by rw [hlen]; decide
  rw [decodePacket_eq hlen] at h
  cases h
  by_cases hsync : byteAt b 0 = 0x47#8
  · have hpacket := packetBytes_of_sync hb hsync
    have hbody : (b.drop 4).length == Config.pktSize - 4 := by rw [List.length_drop, hlen]; rfl
    rw [headerClass_of_sync ((syncByte_headerWord hb).trans hsync)]
    generalize headerFields (headerWord b) = f at hpacket ⊢
    rcases afc_cases ((headerWord b).extractLsb' 4 2) with hafc | hafc | hafc | hafc <;> rw [hafc] at hpacket ⊢ <;>
      exact ⟨congrArg Code.packet hpacket, hbody⟩
  · rw [headerClass_headerWord hb, if_neg hsync]
    match b, hlen with
    | b0 :: rest, hlen =>
      have hrest : rest.length = 187 := by simpa [Config.pktSize] using hlen
      have hne : b0 ≠ Config.syncByte := hsync
      exact ⟨rfl, by simp [TsClass.instr, Instr.wf, byteAt, Config.pktSize, hrest, hne]⟩

end Sys2Proof
end

section
/-! ## The statements -/

namespace Sys2Proof.Proofs

open Sys2Proof.Machine

/-- Settles O1: an instruction is stored as a command word or as a packet, and the decoder of that form reads its fields
where the encoder put them. -/
theorem decodeOfEncodeIsIdentity : Obligations.DecodeOfEncodeIsIdentity := by
  intro i hwf
  cases h : encode i with
  | command w => exact decodeCommand_encode h
  | packet b => exact decodePacket_encode hwf h

/-- Settles O2: the fields the decoder reads, with what it checks of the others, are all of the code. -/
theorem encodeOfDecodeIsIdentity : Obligations.EncodeOfDecodeIsIdentity := by
  intro c i h
  cases c with
  | command w => exact encode_of_decodeCommand h
  | packet b => exact encode_of_decodePacket h

/-- Settles O3: the words of V1 and V2 are decoded one by one. -/
theorem vectorWordsDecode : Obligations.VectorWordsDecode :=
  ⟨by decide, by decide, by decide, by decide, by decide⟩

end Sys2Proof.Proofs
end

/-! PROOFS. The steps that are left of the whole machine (20_memory.md R110): the layer that says once which state every
step leads to (`StepForm`), from which each invariant below is read off; then the statements about a scheduled
instruction, about hardware reset and about the host's parameters and the clock. -/

section
/-! ## The forms of a step -/

namespace Sys2Proof.Machine

variable {s t : State}

/-- The whole of a step: the state that the scheduled action leads to from `s`, with the condition under which it does.
The commands are those of 40_host_commands.md, each at the offset of CMD; a packet of the four classes with a good sync
byte runs the prologue and the adaptation field's event (`v`), the section part (`u`), and the PCR part. -/
inductive StepForm (s : State) : Action → State → Prop
  | hold (a : Action) : StepForm s a s
  | hostRead (addr : BitVec 12) (r : Reg) (words : List Word) :
      StepForm s (.hostRead addr 4) ((s.snapshot r).setEnv { s.env with hostRd := words })
  | hostWrite (addr : BitVec 12) (v : Word) :
      StepForm s (.hostWrite addr 4 v) (s.writeWord v (regAt s.nDlv addr.toNat))
  | reject (w : Word) (opcode : Byte) (r : RejReason) :
      StepForm s (.hostWrite 0x004#12 4 w) (s.reject opcode r)
  | accept (w : Word) : StepForm s (.hostWrite 0x004#12 4 w) s.accept
  | dmxStart (hphase : s.dmx.phase ≠ .run) (hlatch : s.dmx.idxL = none) :
      StepForm s (.hostWrite 0x004#12 4 0x00000001#32) { s.accept with dmx := s.dmx.start, flt := [] }
  | dmxStop (w : Word) (hrun : s.dmx.phase = .run) :
      StepForm s (.hostWrite 0x004#12 4 w) (s.accept.setDmx { s.dmx with stopReq := true })
  | fltReset (p : Pid) :
      StepForm s (.hostWrite 0x004#12 4 (cmdWord 0x03#8 0#4 p))
        (s.accept.setFilter p { s.accept.filter p with invalid := false, active := false, size := 0#13, pos := 0#13 })
  | dlvStart (w : Word) (c : Nat) (k : Channel) (hk : s.ch[c]? = some k) (hidle : k.phase.running = false) :
      StepForm s (.hostWrite 0x004#12 4 w) (s.accept.setCh c k.start)
  | dlvStop (w : Word) (c : Nat) (k : Channel) (hk : s.ch[c]? = some k) (hrun : k.phase.running = true) :
      StepForm s (.hostWrite 0x004#12 4 w) (s.accept.setCh c { k with stopReq := true })
  | cancel (ans : PortAns) : StepForm s (.dmx ans) (s.terminateDmx .cancelled)
  | eos : StepForm s (.dmx (.eos 0)) (s.terminateDmx .endOfSource)
  | truncated (n : Nat) (hn : n < 188) :
      StepForm s (.dmx (.eos n))
        (((s.setDmx { s.dmx with truncBytes := BitVec.ofNat 8 n }).raise .trunc).terminateDmx .endOfSource)
  | readFault : StepForm s (.dmx .fault) (s.terminateDmx .readFault)
  | syncFault (b : List Byte) : StepForm s (.dmx (.bytes b)) (s.prologue.noteSyncFault s.dmx.regs.offset)
  | syncAbort (b : List Byte) :
      StepForm s (.dmx (.bytes b)) ((s.prologue.noteSyncFault s.dmx.regs.offset).terminateDmx .syncAbort)
  | packet (b : List Byte) (hdr : TsHdr) (af : Af) (payload : List Byte) (v u : State)
      (hv : SectionKeeps hdr.pid (s.received hdr.pid) v) (hmem : v.mem = s.mem)
      (hflt : v.flt = (s.received hdr.pid).flt) (hu : v.sectionPart hdr.pid hdr.pusi payload = .ok u) :
      StepForm s (.dmx (.bytes b)) (u.trackPcr af s.dmx.regs.offset)
  | channel (c : Nat) (ans : PortAns) (k k1 : Channel) (sent : Option (List Byte)) (out : List (Nat × List Byte))
      (hk : s.ch[c]? = some k) (hstep : k.step s.hw.raBufSize s.env.wallNs ans = .go k1 sent) :
      StepForm s (.dlv c ans) ((s.setCh c k1).setEnv { s.env with chOut := out })
  | take (out : List IdxRecord) :
      StepForm s .take { s with dmx := { s.dmx with idxL := none }, env := { s.env with idxOut := out } }
  | wall (ns : DWord) (hle : s.env.wallNs.toNat ≤ ns.toNat) :
      StepForm s (.wall ns) (s.setEnv { s.env with wallNs := ns })
  | reset : StepForm s .reset s.hardReset

/-- CMD stands at its own offset only (10_state.md R36). -/
theorem eq_of_regAt_cmd {n a : Nat} (h : regAt n a = .cmd) : a = 0x004 := by
  have rows : ∀ e ∈ globalMap, e.2 = .cmd → e.1 = 0x004 := by decide
  rcases regAt_cases n a with hr | hrow | ⟨c, o, r, -, -, hr, -⟩
  · exact absurd h hr.ne_cmd
  · exact rows _ hrow h
  · rw [hr] at h; cases h

/-- IRQ_STATUS stands at its own offset only (10_state.md R38). -/
theorem eq_of_regAt_irqStatus {n a : Nat} (h : regAt n a = .irqStatus) : a = 0x00C := by
  have rows : ∀ e ∈ globalMap, e.2 = .irqStatus → e.1 = 0x00C := by decide
  rcases regAt_cases n a with (hr | ⟨c, hr⟩) | hrow | ⟨c, o, r, -, -, hr, -⟩
  · rw [hr] at h; cases h
  · rw [hr] at h; cases h
  · exact rows _ hrow h
  · rw [hr] at h; cases h

/-- The only word of an instruction is its encoding. -/
theorem eq_of_decodeCommand {w w' : Word} {i : Instr} (h : decodeCommand w = .ok i) (henc : encode i = .command w') :
    w = w' := by
  obtain ⟨hw, -⟩ := encode_of_decodeCommand h
  exact Code.command.inj (hw.symm.trans henc)

theorem command_form {w : Word} (h : s.command w = .next t) : StepForm s (.hostWrite 0x004#12 4 w) t := by
  rcases command_cases h with ⟨i, hi, hexec⟩ | ⟨e, -, rfl⟩
  swap
  · exact .reject w _ _
  cases i with
  | nop => cases hexec; exact .accept w
  | dmxStart =>
    obtain rfl : w = 0x00000001#32 := eq_of_decodeCommand hi rfl
    simp only [exec, execDmxStart] at hexec
    split at hexec <;> cases hexec
    · exact .reject _ _ _
    next hc =>
      rw [not_or, Bool.not_eq_true, Dmx.idxFull_eq_false_iff] at hc
      exact .dmxStart hc.1 hc.2
  | dmxStop =>
    simp only [exec, execDmxStop] at hexec
    split at hexec <;> cases hexec
    · exact .dmxStop w ‹_›
    · exact .accept w
  | fltReset p =>
    obtain rfl : w = cmdWord 0x03#8 0#4 p := eq_of_decodeCommand hi rfl
    cases hexec
    exact .fltReset p
  | dlvStart c =>
    simp only [exec, execDlvStart] at hexec
    split at hexec
    · cases hexec; exact .reject w _ _
    next k hk =>
    split at hexec <;> cases hexec
    · exact .reject w _ _
    · exact .dlvStart w _ k hk (Bool.eq_false_iff.2 ‹_›)
  | dlvStop c =>
    simp only [exec, execDlvStop] at hexec
    split at hexec
    · cases hexec; exact .reject w _ _
    next k hk =>
    split at hexec <;> cases hexec
    · exact .dlvStop w _ k hk ‹_›
    · exact .accept w
  | tsAfPayload | tsPayload | tsAfOnly | tsAfcReserved | tsSyncFault =>
    exact (isHostCommand_of_decodeCommand hi).elim

theorem hostWrite_form {addr : BitVec 12} {width : Nat} {v : Word} (h : s.hostWrite addr width v = .next t) :
    StepForm s (.hostWrite addr width v) t := by
  obtain ⟨rfl, -, ⟨hcmd, h⟩ | ⟨-, rfl⟩⟩ := hostWrite_cases h
  · obtain rfl : addr = 0x004#12 := BitVec.eq_of_toNat_eq (eq_of_regAt_cmd hcmd)
    exact command_form h
  · exact .hostWrite addr v

/-- The three packet classes with operands, then the two without. -/
theorem exec_packet_form {b : List Byte} {i : Instr} (hb : decodePacket b = .ok i) (h : exec i s = .next t) :
    StepForm s (.dmx (.bytes b)) t := by
  have operands {hdr : TsHdr} {body : List Byte}
      (hi : i = .tsAfPayload hdr body ∨ i = .tsPayload hdr body ∨ i = .tsAfOnly hdr body) :
      StepForm s (.dmx (.bytes b)) t := by
    obtain ⟨af, payload, v, u, hv, hmem, hflt, hu, rfl, -⟩ := exec_packet_cases hi h
    exact .packet b hdr af payload v u hv hmem hflt hu
  cases i with
  | tsAfPayload hdr body => exact operands (.inl rfl)
  | tsPayload hdr body => exact operands (.inr (.inl rfl))
  | tsAfOnly hdr body => exact operands (.inr (.inr rfl))
  | tsAfcReserved hdr body =>
    cases h
    have hpart := sectionPart_nil (s.received hdr.pid) hdr.pid hdr.pusi
    rw [← trackPcr_of_absent (af := Af.absent) rfl (s.received hdr.pid) s.dmx.regs.offset]
    exact .packet b hdr _ [] _ _ (.refl _ _) (received_mem _ _) rfl hpart
  | tsSyncFault sync rest =>
    cases hpolicy : s.dmx.syncPolicyL with
    | false => rw [exec_tsSyncFault_of_skip hpolicy] at h; cases h; exact .syncFault b
    | true => rw [exec_tsSyncFault_of_abort hpolicy] at h; cases h; exact .syncAbort b
  | nop | dmxStart | dmxStop | fltReset | dlvStart | dlvStop =>
    obtain ⟨hcode, -⟩ := encode_of_decodePacket hb
    cases hcode

theorem dmxStep_form {ans : PortAns} (h : s.dmxStep ans = .next t) : StepForm s (.dmx ans) t := by
  rcases dmxStep_cases h with
    rfl | ⟨-, -, rfl⟩ | ⟨-, -, -, ⟨b, i, rfl, hb, hexec⟩ | ⟨n, rfl, hn, rfl⟩ | ⟨rfl, rfl⟩⟩
  · exact .hold _
  · exact .cancel ans
  · exact exec_packet_form hb hexec
  · rcases dmxEos_cases s n with ⟨rfl, heos⟩ | ⟨-, heos⟩ <;> rw [heos]
    · exact .eos
    · exact .truncated n hn
  · exact .readFault

theorem act_form {a : Action} (h : s.act a = .next t) : StepForm s a t := by
  cases a with
  | hostRead addr width =>
    obtain ⟨rfl, -, rfl⟩ := hostRead_cases h
    rw [State.snapshot_env]
    exact .hostRead addr _ _
  | hostWrite addr width v => exact hostWrite_form h
  | dmx ans => exact dmxStep_form h
  | dlv c ans =>
    rcases dlvStep_cases h with rfl | ⟨k, k1, hk, ⟨hstep, rfl⟩ | ⟨chunk, hstep, rfl⟩⟩
    · exact .hold _
    · exact .channel c ans k k1 none s.env.chOut hk hstep
    · exact .channel c ans k k1 (some chunk) _ hk hstep
  | take =>
    cases h
    cases hlatch : s.dmx.idxL with
    | none => rw [State.takeRecord_of_none hlatch]; exact .hold _
    | some r => rw [State.takeRecord_of_some hlatch]; exact .take _
  | wall ns =>
    simp only [State.act, State.wallStep] at h
    split at h <;> cases h
    exact .wall ns ‹_›
  | reset => cases h; exact .reset

/-- A step does nothing, or takes the scheduled action off the schedule and has that action's form. -/
theorem step_form (h : step s = .next t) :
    (s.nextAction = none ∧ t = s) ∨ ∃ a, s.nextAction = some a ∧ StepForm s.popped a t := by
  rcases step_cases h with hidle | ⟨a, hact, h⟩
  · exact .inl hidle
  · exact .inr ⟨a, hact, act_form h⟩

/-- What every form of a step keeps, and the schedule's move too, every step keeps. -/
theorem step_keeps {P : State → Prop} (hpopped : ∀ s, P s → P s.popped)
    (hform : ∀ s a t, StepForm s a t → P s → P t) (h : step s = .next t) (hs : P s) : P t := by
  rcases step_form h with ⟨-, rfl⟩ | ⟨a, -, hf⟩
  · exact hs
  · exact hform _ a _ hf (hpopped s hs)

end Sys2Proof.Machine
end


section
/-! ## What every step keeps of the hardware, the clock and the enables, and what it does to the event bits -/

namespace Sys2Proof.Machine

variable {s t : State} {a : Action}

/-- A read copies into shadows, which are in DMX and in the channels. -/
theorem State.snapshot_frame (s : State) (r : Reg) :
    s.snapshot r = { s with dmx := (s.snapshot r).dmx, ch := (s.snapshot r).ch } := by
  rcases s.snapshot_cases r with h | ⟨_, _, h⟩ | ⟨_, h⟩ | ⟨_, _, _, _, _, h⟩ <;> rw [h] <;> rfl

theorem State.snapshot_nDlv (s : State) (r : Reg) : (s.snapshot r).nDlv = s.nDlv := by
  rcases s.snapshot_cases r with h | ⟨_, _, h⟩ | ⟨_, h⟩ | ⟨_, _, _, _, _, h⟩ <;> simp [h]

/-- A register write stores in the two global event and enable registers, in DMX, or in one channel. -/
theorem State.writeWord_cases (s : State) (v : Word) (r : Reg) :
    s.writeWord v r = s ∨
    (r = .irqStatus ∧ s.writeWord v r = { s with irqEvents := w1c s.irqEvents (v.extractLsb' 0 10) }) ∨
    (r = .irqEnable ∧ s.writeWord v r = { s with irqEnable := v &&& irqEnableMask s.nDlv }) ∨
    (r = .dmxConfig ∧ s.writeWord v r = s.setDmx { s.dmx with config := v.extractLsb' 0 2 }) ∨
    (r = .fltSel ∧ s.writeWord v r = s.setDmx { s.dmx with fltSel := v.extractLsb' 0 13 }) ∨
    (∃ c q k, r = .ch c q ∧ s.ch[c]? = some k ∧ s.writeWord v r = s.setCh c (k.writeWord v q)) := by
  cases r with
  | irqStatus => exact .inr (.inl ⟨rfl, rfl⟩)
  | irqEnable => exact .inr (.inr (.inl ⟨rfl, rfl⟩))
  | dmxConfig => exact .inr (.inr (.inr (.inl ⟨rfl, rfl⟩)))
  | fltSel => exact .inr (.inr (.inr (.inr (.inl ⟨rfl, rfl⟩))))
  | ch c q =>
    cases hk : s.ch[c]? with
    | none => exact .inl (State.writeWord_ch_none hk v q)
    | some k => exact .inr (.inr (.inr (.inr (.inr ⟨c, q, k, rfl, hk, State.writeWord_ch hk v q⟩))))
  | _ => exact .inl rfl

theorem State.writeWord_frame (s : State) (v : Word) (r : Reg) :
    s.writeWord v r = { s with
      irqEvents := (s.writeWord v r).irqEvents
      irqEnable := (s.writeWord v r).irqEnable
      dmx := (s.writeWord v r).dmx
      ch := (s.writeWord v r).ch } := by
  rcases s.writeWord_cases v r with h | ⟨_, h⟩ | ⟨_, h⟩ | ⟨_, h⟩ | ⟨_, h⟩ | ⟨_, _, _, _, _, h⟩ <;> rw [h] <;> rfl

theorem State.writeWord_nDlv (s : State) (v : Word) (r : Reg) : (s.writeWord v r).nDlv = s.nDlv := by
  rcases s.writeWord_cases v r with h | ⟨_, h⟩ | ⟨_, h⟩ | ⟨_, h⟩ | ⟨_, h⟩ | ⟨_, _, _, _, _, h⟩ <;> rw [h]
  case inr.inr.inr.inr.inr => exact State.setCh_nDlv _ _ _
  all_goals rfl

/-- What the packet form keeps: its section path and its PCR part together. -/
theorem packetForm_keeps {p : Pid} {pusi : Bool} {payload : List Byte} {v u : State}
    (hv : SectionKeeps p (s.received p) v) (hu : v.sectionPart p pusi payload = .ok u) (af : Af) (off : DWord) :
    PacketKeeps s (u.trackPcr af off) :=
  .of_parts (hv.trans (sectionPart_keeps hu)) (trackPcr_keeps _ _ _)

theorem StepForm.hw (h : StepForm s a t) : t.hw = s.hw := by
  cases h with
  | hostRead addr r words => rw [State.snapshot_frame]; rfl
  | hostWrite addr v => rw [State.writeWord_frame]
  | packet b hdr af payload v u hv hmem hflt hu => exact (packetForm_keeps hv hu _ _).hw
  | _ => rfl

theorem StepForm.nDlv (h : StepForm s a t) : t.nDlv = s.nDlv := by
  cases h with
  | hostRead addr r words => exact s.snapshot_nDlv r
  | hostWrite addr v => exact s.writeWord_nDlv v _
  | dlvStart w c k hk hidle => exact State.setCh_nDlv _ _ _
  | dlvStop w c k hk hrun => exact State.setCh_nDlv _ _ _
  | channel c ans k k1 sent out hk hstep => exact s.setCh_nDlv c k1
  | packet b hdr af payload v u hv hmem hflt hu => exact congrArg List.length (packetForm_keeps hv hu _ _).ch
  | reset => exact List.length_replicate ..
  | _ => rfl

theorem StepForm.wallNs_le (h : StepForm s a t) : s.env.wallNs.toNat ≤ t.env.wallNs.toNat := by
  cases h with
  | wall ns hle => exact hle
  | hostWrite addr v => rw [State.writeWord_frame]
  | packet b hdr af payload v u hv hmem hflt hu => rw [(packetForm_keeps hv hu _ _).env]
  | _ => exact Nat.le_refl _

/-- IRQ_ENABLE is written by the host through its mask, and cleared by hardware reset. -/
theorem StepForm.irqEnable (h : StepForm s a t) :
    t.irqEnable = s.irqEnable ∨ t.irqEnable = 0#32 ∨ ∃ v, t.irqEnable = v &&& irqEnableMask s.nDlv := by
  cases h with
  | hostRead addr r words => rw [State.snapshot_frame]; exact .inl rfl
  | hostWrite addr v =>
    rcases s.writeWord_cases v (regAt s.nDlv addr.toNat) with
      h | ⟨_, h⟩ | ⟨_, h⟩ | ⟨_, h⟩ | ⟨_, h⟩ | ⟨_, _, _, _, _, h⟩ <;> rw [h]
    case inr.inr.inl => exact .inr (.inr ⟨v, rfl⟩)
    all_goals exact .inl rfl
  | packet b hdr af payload v u hv hmem hflt hu => exact .inl (packetForm_keeps hv hu _ _).irqEnable
  | reset => exact .inr (.inl rfl)
  | _ => exact .inl rfl

theorem StepForm.enableOk (h : StepForm s a t) (hok : s.EnableOk) : t.EnableOk := by
  rw [State.EnableOk, h.nDlv]
  rcases h.irqEnable with heq | heq | ⟨v, heq⟩ <;> rw [heq]
  · exact hok
  · exact BitVec.zero_and
  · simp [BitVec.and_assoc]

/-- An event bit goes out of IRQ_STATUS by hardware reset or by the host's write to it (60 R400). -/
theorem StepForm.irqEvents (h : StepForm s a t) :
    s.irqEvents &&& ~~~t.irqEvents = 0#10 ∨ a = .reset ∨
      ∃ v, a = .hostWrite 0x00C#12 4 v ∧ t.irqEvents = w1c s.irqEvents (v.extractLsb' 0 10) := by
  have kept : s.irqEvents &&& ~~~s.irqEvents = 0#10 := BitVec.and_not_self _
  cases h with
  | hostRead addr r words => rw [State.snapshot_frame]; exact .inl kept
  | hostWrite addr v =>
    rcases s.writeWord_cases v (regAt s.nDlv addr.toNat) with
      h | ⟨hr, h⟩ | ⟨_, h⟩ | ⟨_, h⟩ | ⟨_, h⟩ | ⟨_, _, _, _, _, h⟩ <;> rw [h]
    case inr.inl =>
      obtain rfl : addr = 0x00C#12 := BitVec.eq_of_toNat_eq (eq_of_regAt_irqStatus hr)
      exact .inr (.inr ⟨v, rfl, rfl⟩)
    all_goals exact .inl kept
  | packet b hdr af payload v u hv hmem hflt hu => exact .inl (packetForm_keeps hv hu _ _).events
  | reset => exact .inr (.inl rfl)
  | reject w opcode r => exact .inl (events_raised _ _)
  | cancel ans => exact .inl (events_raised _ _)
  | eos => exact .inl (events_raised _ _)
  | readFault => exact .inl (events_raised _ _)
  | syncFault b => exact .inl (events_raised _ _)
  | syncAbort b => exact .inl (events_trans (events_raised _ _) (events_raised _ _))
  | truncated n hn => exact .inl (events_trans (events_raised _ _) (events_raised _ _))
  | _ => exact .inl kept

end Sys2Proof.Machine
end

section
/-! ## The statements -/

namespace Sys2Proof.Proofs

open Sys2Proof.Machine

/-- Settles O6: CMD's write runs the decoded command, and DMX's selected read runs the decoded packet. -/
theorem stepRunsTheDecodedInstruction : Obligations.StepRunsTheDecodedInstruction := by
  refine fun s i rest => ⟨fun w hsched hi => ?_, fun b hsched hrun hstop hlatch hi => ?_⟩
  · obtain ⟨hact, hpopped⟩ := nextAction_of_sched hsched
    simp only [step_command hact, hpopped, State.command, hi]
  · obtain ⟨hact, hpopped⟩ := nextAction_of_sched hsched
    simp only [step_dmx_of_read hact hrun hstop hlatch, hpopped, State.dmxRead, hi]

/-- Settles O57: no form of a step writes the parameters or the number of channels, only ENV's own moves WALL_NS, and every
write of IRQ_ENABLE passes its mask. -/
theorem stepKeepsHardwareAndClock : Obligations.StepKeepsHardwareAndClock := by
  intro s t hstep
  rcases step_form hstep with ⟨-, rfl⟩ | ⟨a, -, hform⟩
  · exact ⟨Nat.le_refl _, rfl, rfl, id⟩
  · exact ⟨hform.wallNs_le, hform.hw, hform.nDlv, hform.enableOk⟩

/-- Settles O59: after reset DMX is IDLE, every channel is IDLE and the latch is empty. -/
theorem resetStopsEverySession : Obligations.ResetStopsEverySession := by
  refine ⟨fun s hact => ⟨step_of_nextAction hact, ?_⟩, fun n hw env ans c => ⟨?_, ?_, ?_⟩⟩
  · rw [State.irq, resetWith_irqStatusWord, BitVec.zero_and]
    rfl
  · exact State.dmxStep_of_not_run DmxPhase.noConfusion ans
  · cases hk : (State.resetWith n hw env).ch[c]? with
    | none => exact State.dlvStep_of_no_channel hk
    | some k =>
      obtain rfl := resetWith_channel hk
      exact State.dlvStep_of_hold hk (Channel.step_of_not_running (by decide) _ _ _)
  · exact State.takeRecord_of_none rfl

end Sys2Proof.Proofs
end

/-! PROOFS. What a step does to the delivery channels (45_delivery_scheduler.md, 10_state.md sections 6 and 7): the layer
of facts about the channel each operation leaves, and about the one channel that a step moves; then the statements about
the channel invariant, the byte count and the event bits, and the TSREAD step of R355 to R357. -/

section
/-! ## What a timestamp comes to (45 R355 to R359) -/

namespace Sys2Proof.Machine

variable {k : Channel} {ts now : DWord}

theorem Channel.timestamp_of_first (h : k.regs.chunks = 0#64) (ts now : DWord) :
    k.timestamp ts now = { k with
      epochValid := true
      phase := .write
      regs := { k.regs with curTs := ts, epochWall := now, epochStream := ts, firstTs := ts, prevTs := ts } } := by
  rw [Channel.timestamp, if_pos h]
  rfl

/-- A chunk number that is no multiple of 10 is not that of chunk 0 either. -/
theorem Channel.timestamp_of_between (h : k.regs.chunks.toNat % 10 ≠ 0) (ts now : DWord) :
    k.timestamp ts now = { k with
      phase := .write
      regs := { k.regs with
        curTs := ts
        prevTs := ts
        lastGoodDelta :=
          if k.regs.prevTs.toNat ≤ ts.toNat then ts - k.regs.prevTs else k.regs.lastGoodDelta } } := by
  have hfirst : k.regs.chunks ≠ 0#64 := fun hz => h (by rw [hz]; rfl)
  have hcheck : ¬ k.regs.chunks.toNat % Config.checkInterval = 0 := h
  simp only [Channel.timestamp, hfirst, hcheck, if_false]
  rfl

/-- `k1` is the channel `k` after a timestamp that is not chunk 0's: the registers of the track are `r`, and the chunk is
to be written, at once or later or after a resync, or the session has come to its cap. -/
inductive Channel.Paced (k : Channel) (r : DlvWide DWord) : Channel → Prop
  | write : Paced k r { k with phase := .write, regs := r }
  | wait : Paced k r { k with phase := .wait, regs := r }
  | resync : Paced k r { k with phase := .write, resyncs := k.resyncs + 1#32, evt := k.evt ||| 4#3, regs := r }
  | capped : Paced k r ({ k with regs := r }.terminate .durationCap)

/-- The registers before the timestamp have no part in it. -/
theorem Channel.Paced.of_regs {k1 : Channel} {r r1 : DlvWide DWord}
    (h : Channel.Paced { k with regs := r1 } r k1) : k.Paced r k1 := by
  cases h with
  | write => exact .write
  | wait => exact .wait
  | resync => exact .resync
  | capped => exact .capped

theorem Channel.check_paced (k : Channel) (ts now : DWord) : k.Paced (k.check ts now).regs (k.check ts now) := by
  cases hcap : capPassed k ts with
  | true => rw [Channel.check_of_capped hcap]; exact .capped
  | false =>
    by_cases hahead : 0 < checkDelay k ts now
    · rw [Channel.check_of_ahead hcap hahead]; exact .wait
    by_cases hlate : checkDelay k ts now < -1000000000
    · rw [Channel.check_of_late hcap hlate]; exact .resync
    · rw [Channel.check_of_on_time hcap (Int.not_lt.1 hahead) (Int.not_lt.1 hlate)]; exact .write

theorem Channel.timestamp_paced (h : k.regs.chunks ≠ 0#64) (ts now : DWord) :
    k.Paced (k.timestamp ts now).regs (k.timestamp ts now) := by
  by_cases hcheck : k.regs.chunks.toNat % 10 = 0
  · rw [Channel.timestamp_of_check_point h hcheck]
    exact (Channel.check_paced _ ts now).of_regs
  · rw [Channel.timestamp_of_between hcheck]
    exact .write

theorem Channel.Paced.wfaults {k1 : Channel} {r : DlvWide DWord} (h : k.Paced r k1) : k1.wfaults = k.wfaults := by
  cases h <;> rfl

theorem Channel.timestamp_wfaults (k : Channel) (ts now : DWord) : (k.timestamp ts now).wfaults = k.wfaults := by
  by_cases hfirst : k.regs.chunks = 0#64
  · rw [Channel.timestamp_of_first hfirst]
  · exact (Channel.timestamp_paced hfirst ts now).wfaults

theorem Channel.Paced.evt {k1 : Channel} {r : DlvWide DWord} (h : k.Paced r k1) : ∃ w, k1.evt = k.evt ||| w := by
  cases h with
  | write => exact ⟨0#3, BitVec.or_zero.symm⟩
  | wait => exact ⟨0#3, BitVec.or_zero.symm⟩
  | resync => exact ⟨_, rfl⟩
  | capped => exact ⟨_, rfl⟩

theorem Channel.timestamp_evt (k : Channel) (ts now : DWord) : ∃ w, (k.timestamp ts now).evt = k.evt ||| w := by
  by_cases hfirst : k.regs.chunks = 0#64
  · exact ⟨0#3, by rw [Channel.timestamp_of_first hfirst, BitVec.or_zero]⟩
  · exact (Channel.timestamp_paced hfirst ts now).evt

/-- A timestamp moves neither count of the channel. -/
theorem Channel.timestamp_counts (k : Channel) (ts now : DWord) :
    (k.timestamp ts now).regs.chunks = k.regs.chunks ∧ (k.timestamp ts now).regs.bytes = k.regs.bytes := by
  have hcheck (k : Channel) : (k.check ts now).regs.chunks = k.regs.chunks ∧
      (k.check ts now).regs.bytes = k.regs.bytes := by
    simp only [Channel.check]
    split_ifs <;> exact ⟨rfl, rfl⟩
  simp only [Channel.timestamp]
  split_ifs
  · exact ⟨rfl, rfl⟩
  · exact hcheck _
  · exact ⟨rfl, rfl⟩

end Sys2Proof.Machine
end

section
/-! ## The one channel that a step moves -/

namespace Sys2Proof.Machine

variable {s t : State} {a : Action} {c : Nat} {k k1 : Channel}

/-- How the step `a` of a machine with the given RA_BUF_SIZE and wall clock changes its channel `c` from `k` to `k1`: a
read writes a shadow, a write one of three registers, a command starts or stops the session, or the channel steps. -/
inductive ChannelForm (raBufSize : Nat) (now : DWord) (c : Nat) (k : Channel) : Action → Channel → Prop
  | read (a : Action) (shadow : DlvWide Word) : ChannelForm raBufSize now c k a { k with shadow := shadow }
  | config (a : Action) (v : Word) : ChannelForm raBufSize now c k a { k with config := v }
  | evt (addr : BitVec 12) (v : Word) (haddr : addr.toNat = 0x108 + 0x80 * c) :
      ChannelForm raBufSize now c k (.hostWrite addr 4 v) { k with evt := w1c k.evt (v.extractLsb' 0 3) }
  | evtEn (a : Action) (v : BitVec 3) : ChannelForm raBufSize now c k a { k with evtEn := v }
  | start (a : Action) : ChannelForm raBufSize now c k a k.start
  | stop (a : Action) (hrun : k.phase.running = true) : ChannelForm raBufSize now c k a { k with stopReq := true }
  | step (a : Action) (ans : PortAns) (k1 : Channel) (sent : Option (List Byte))
      (hstep : k.step raBufSize now ans = .go k1 sent) : ChannelForm raBufSize now c k a k1

/-- What a step does to the channels: nothing, or hardware reset, or it changes one. -/
inductive ChannelsForm (s : State) (a : Action) : List Channel → Prop
  | kept : ChannelsForm s a s.ch
  | reset (ha : a = .reset) : ChannelsForm s a (List.replicate s.nDlv .reset)
  | one (c : Nat) (k k1 : Channel) (hk : s.ch[c]? = some k)
      (hform : ChannelForm s.hw.raBufSize s.env.wallNs c k a k1) : ChannelsForm s a (s.ch.set c k1)

/-- DLV_EVT stands at its own offset of its channel's block only (10_state.md R74). -/
theorem eq_of_regAt_evt {n a : Nat} (h : regAt n a = .ch c .evt) : a = 0x108 + 0x80 * c := by
  have globalRows : ∀ e ∈ globalMap, ∀ c, e.2 ≠ .ch c .evt := by
    have noChannel : ∀ e ∈ globalMap, (match e.2 with | .ch _ _ => false | _ => true) = true := by decide
    intro e he c hc
    have := noChannel e he
    rw [hc] at this
    cases this
  have channelRows : ∀ e ∈ channelMap, e.2 = .evt → e.1 = 0x08 := by decide
  rcases regAt_cases n a with (hr | ⟨_, hr⟩) | hrow | ⟨c', o, r, -, rfl, hr, hrow⟩
  · rw [hr] at h; cases h
  · rw [hr] at h; cases h
  · exact absurd h (globalRows _ hrow c)
  · rw [hr] at h
    cases h
    have ho := channelRows _ hrow rfl
    simp only at ho
    omega

/-- A write to a register of the block of channel `c`. -/
theorem channelForm_writeWord {addr : BitVec 12} {n raBufSize : Nat} {now : DWord} {q : ChReg}
    (hr : regAt n addr.toNat = .ch c q) (k : Channel) (v : Word) :
    ChannelForm raBufSize now c k (.hostWrite addr 4 v) (k.writeWord v q) := by
  cases q with
  | config => exact .config _ v
  | evt => exact .evt addr v (eq_of_regAt_evt hr)
  | evtEn => exact .evtEn _ _
  | _ => exact .read _ k.shadow

theorem StepForm.channels (h : StepForm s a t) : ChannelsForm s a t.ch := by
  cases h with
  | hostRead addr r words =>
    rcases s.snapshot_cases r with h | ⟨_, _, h⟩ | ⟨_, h⟩ | ⟨c, _, k, _, hk, h⟩ <;> rw [h]
    case inr.inr.inr => exact .one c k _ hk (.read _ _)
    all_goals exact .kept
  | hostWrite addr v =>
    rcases s.writeWord_cases v (regAt s.nDlv addr.toNat) with
      h | ⟨_, h⟩ | ⟨_, h⟩ | ⟨_, h⟩ | ⟨_, h⟩ | ⟨c, q, k, hr, hk, h⟩ <;> rw [h]
    case inr.inr.inr.inr.inr => exact .one c k _ hk (channelForm_writeWord hr k v)
    all_goals exact .kept
  | dlvStart w c k hk hidle => exact .one c k _ hk (.start _)
  | dlvStop w c k hk hrun => exact .one c k _ hk (.stop _ hrun)
  | channel c ans k k1 sent out hk hstep => exact .one c k k1 hk (.step _ ans k1 sent hstep)
  | packet b hdr af payload v u hv hmem hflt hu => rw [(packetForm_keeps hv hu _ _).ch]; exact .kept
  | reset => exact .reset rfl
  | _ => exact .kept

/-- A property of a channel that holds at reset, and that every change of one channel keeps, every step keeps of all. -/
theorem ChannelsForm.forall_channels {P : Channel → Prop} {ks : List Channel} (h : ChannelsForm s a ks)
    (hreset : P .reset)
    (hform : ∀ c k k1, ChannelForm s.hw.raBufSize s.env.wallNs c k a k1 → P k → P k1)
    (hs : ∀ k ∈ s.ch, P k) : ∀ k ∈ ks, P k := by
  cases h with
  | kept => exact hs
  | reset => exact fun k hk => List.eq_of_mem_replicate hk ▸ hreset
  | one c k k1 hk hone =>
    intro k' hk'
    rcases List.mem_or_eq_of_mem_set hk' with hmem | rfl
    · exact hs k' hmem
    · exact hform c k k' hone (hs k (List.mem_of_getElem? hk))

end Sys2Proof.Machine
end

section
/-! ## The invariant of a channel (10_state.md R73, R89, 45 R350 to R374) -/

namespace Sys2Proof.Machine

variable {n : Nat} {k k1 : Channel}

theorem Channel.ok_reset (n : Nat) : Channel.reset.ok n := by
  simp [Channel.ok, Channel.reset, DlvWide.const]

theorem Channel.ok_start (n : Nat) (k : Channel) : k.start.ok n := by
  simp [Channel.ok, Channel.start, DlvWide.const]

/-- Termination empties RA, so that of the invariant only the bound of RESIDUE is left to show (60 R402). -/
theorem Channel.ok_terminate {e : Term} (he : e ≠ .none) (hres : k.residue.toNat ≤ 1315) (n : Nat) :
    (k.terminate e).ok n := by
  simp [Channel.ok, Channel.terminate, Channel.raise, DlvPhase.running, he, hres]

theorem Channel.ok.terminate {e : Term} (h : k.ok n) (he : e ≠ .none) : (k.terminate e).ok n := by
  obtain ⟨-, -, -, -, -, -, hres, -, -⟩ := h
  exact Channel.ok_terminate he hres n

/-- A channel between chunks: `ra` is what RA now holds, and the phase is FILL or TSREAD by it (45 R353, R374). -/
theorem Channel.ok_phaseFor {ra : List Byte} (hk : k.phase = phaseFor ra.length) (hra : k.ra = ra)
    (hroom : ra.length ≤ n) (hterm : k.term = .none) (hres : k.residue.toNat ≤ 1315)
    (hepoch : k.regs.chunks ≠ 0#64 → k.epochValid = true) : k.ok n := by
  subst hra
  unfold phaseFor at hk
  split at hk
  · simp_all [Channel.ok, DlvPhase.running, Config.chunkSize]
  · simp_all [Channel.ok, DlvPhase.running, Config.chunkSize]

/-- A running session has no cause of termination (10_state.md R73). -/
theorem Channel.ok.term_none (h : k.ok n) (hphase : k.phase ≠ .done) : k.term = .none := by
  obtain ⟨-, -, -, -, hterm, -⟩ := h
  exact hterm.2 hphase

/-- A channel with a whole chunk in RA goes from one of its three phases to another (45 R355, R372): what is left of the
invariant is the captured epoch. -/
theorem Channel.ok.with_chunk {p : DlvPhase} (h : k.ok n) (hk : k.phase = .tsread ∨ k.phase = .wait)
    (hstop : k.stopReq = false) (hp : k1.phase = p) (hpc : p = .wait ∨ p = .write) (hra : k1.ra = k.ra)
    (hterm : k1.term = k.term) (hstop1 : k1.stopReq = k.stopReq) (hres : k1.residue = k.residue)
    (hepoch : k1.epochValid = true) : k1.ok n := by
  obtain ⟨hchunk, -, -, hroom, hnone, -, hresidue, -, -⟩ := h
  have hlen := hchunk (by tauto)
  have hnone' : k.term = .none := hnone.2 (by rcases hk with hk | hk <;> rw [hk] <;> decide)
  rcases hpc with rfl | rfl <;>
    simp [Channel.ok, hp, hra, hterm, hstop1, hres, hepoch, hnone', hstop, hlen, hroom, hresidue, DlvPhase.running]

/-- In TSREAD the epoch is captured but before chunk 0 (45 R355). -/
theorem Channel.ok.timestamp (h : k.ok n) (hphase : k.phase = .tsread) (hstop : k.stopReq = false) (ts now : DWord) :
    (k.timestamp ts now).ok n := by
  by_cases hfirst : k.regs.chunks = 0#64
  · rw [Channel.timestamp_of_first hfirst]
    exact h.with_chunk (.inl hphase) hstop rfl (.inr rfl) rfl rfl rfl rfl rfl
  have hepoch : k.epochValid = true := by
    obtain ⟨-, -, -, -, -, -, -, -, hrun⟩ := h
    exact hrun ⟨by rw [hphase]; rfl, hfirst⟩
  have hpaced := Channel.timestamp_paced hfirst ts now
  generalize k.timestamp ts now = k1, (k.timestamp ts now).regs = r at hpaced
  cases hpaced with
  | write => exact h.with_chunk (.inl hphase) hstop rfl (.inr rfl) rfl rfl rfl rfl hepoch
  | wait => exact h.with_chunk (.inl hphase) hstop rfl (.inl rfl) rfl rfl rfl rfl hepoch
  | resync => exact h.with_chunk (.inl hphase) hstop rfl (.inr rfl) rfl rfl rfl rfl hepoch
  | capped =>
    obtain ⟨-, -, -, -, -, -, hres, -, -⟩ := h
    exact Channel.ok_terminate (k := { k with regs := r }) (e := .durationCap) (by decide) hres n

/-- Every step of a channel keeps its invariant, the cancel step and the step of each phase. -/
theorem Channel.ok.step {now : DWord} {ans : PortAns} {sent : Option (List Byte)} (h : k.ok n)
    (hstep : k.step n now ans = .go k1 sent) : k1.ok n := by
  have hok := h
  obtain ⟨hchunk, hfill, -, hroom, hnone, -, hres, hepoch, hrun⟩ := h
  rcases Channel.step_cases hstep with ⟨-, -, -, rfl⟩ | ⟨hstop, hp | hp | hp | hp⟩
  · exact hok.terminate (by decide)
  · obtain ⟨hphase, -, ⟨b, -, -, hb, rfl⟩ | rfl | rfl⟩ := hp
    · exact Channel.ok_phaseFor rfl rfl (by simpa using hb) (hok.term_none (by rw [hphase]; decide)) hres
        fun hc => hrun ⟨by rw [hphase]; rfl, hc⟩
    · have hlen := hfill hphase
      refine Channel.ok_terminate (by decide) ?_ n
      rw [BitVec.toNat_ofNat]
      omega
    · exact hok.terminate (by decide)
  · obtain ⟨hphase, -, ⟨b, -, -, rfl⟩ | rfl | rfl⟩ := hp
    · exact hok.timestamp hphase hstop _ _
    · exact hok.terminate (by decide)
    · exact hok.terminate (by decide)
  · obtain ⟨hphase, -, -, rfl⟩ := hp
    exact hok.with_chunk (.inr hphase) hstop rfl (.inr rfl) rfl rfl rfl rfl (hepoch (.inl hphase))
  · obtain ⟨hphase, hans⟩ := hp
    have hdrop : (k.ra.drop Config.chunkSize).length ≤ n := by rw [List.length_drop]; omega
    have hterm := hok.term_none (by rw [hphase]; decide)
    rcases hans with ⟨-, -, rfl⟩ | ⟨-, -, rfl⟩
    · exact Channel.ok_phaseFor rfl rfl hdrop hterm hres fun _ => hepoch (.inr hphase)
    · exact Channel.ok_phaseFor rfl rfl hdrop hterm hres fun _ => hepoch (.inr hphase)

theorem ChannelForm.ok {now : DWord} {c : Nat} {a : Action} (h : ChannelForm n now c k a k1) (hok : k.ok n) :
    k1.ok n := by
  cases h with
  | start => exact k.ok_start n
  | stop _ hrun =>
    obtain ⟨hchunk, hfill, hempty, hroom, hterm, -, hrest⟩ := hok
    exact ⟨hchunk, hfill, hempty, hroom, hterm, fun _ => hrun, hrest⟩
  | step _ ans k1 sent hstep => exact hok.step hstep
  | read | config | evt | evtEn => exact hok

/-! ### The byte count (45 R374, R375) -/

theorem Channel.bytesCounted_of_counts {k k1 : Channel} (hchunks : k1.regs.chunks = k.regs.chunks)
    (hbytes : k1.regs.bytes = k.regs.bytes) (hfaults : k1.wfaults = k.wfaults) (h : k.BytesCounted) :
    k1.BytesCounted := by
  rw [Channel.BytesCounted, hchunks, hbytes, hfaults]
  exact h

/-- The low halves of the registers add as the registers do. -/
theorem setWidth_add_low (v : DWord) (w : Word) : (v + w.setWidth 64).setWidth 32 = v.setWidth 32 + w := by
  rw [BitVec.setWidth_add _ _ (by decide), BitVec.setWidth_setWidth_of_le _ (by decide), BitVec.setWidth_eq]

theorem Channel.BytesCounted.writeOk (h : k.BytesCounted) : k.writeOk.BytesCounted := by
  have hchunks : k.writeOk.regs.chunks = k.regs.chunks + (1#32).setWidth 64 := by rw [Channel.writeOk_eq]; rfl
  have hbytes : k.writeOk.regs.bytes = k.regs.bytes + (1316#32).setWidth 64 := by rw [Channel.writeOk_eq]; rfl
  have hfaults : k.writeOk.wfaults = k.wfaults := by rw [Channel.writeOk_eq]
  rw [Channel.BytesCounted, hchunks, hbytes, hfaults, setWidth_add_low, setWidth_add_low, BitVec.mul_add, ← h,
    BitVec.mul_one]
  ac_rfl

theorem Channel.BytesCounted.writeFault (h : k.BytesCounted) : k.writeFault.BytesCounted := by
  have hchunks : k.writeFault.regs.chunks = k.regs.chunks + (1#32).setWidth 64 := by rw [Channel.writeFault_eq]; rfl
  have hbytes : k.writeFault.regs.bytes = k.regs.bytes := by rw [Channel.writeFault_eq]
  have hfaults : k.writeFault.wfaults = k.wfaults + 1#32 := by rw [Channel.writeFault_eq]
  rw [Channel.BytesCounted, hchunks, hbytes, hfaults, setWidth_add_low, BitVec.mul_add, BitVec.mul_add, ← h]
  ac_rfl

/-- Only WRITE moves a count, and both answers move the count of chunks. -/
theorem Channel.BytesCounted.step {now : DWord} {ans : PortAns} {sent : Option (List Byte)} (h : k.BytesCounted)
    (hstep : k.step n now ans = .go k1 sent) : k1.BytesCounted := by
  rcases Channel.step_cases hstep with ⟨-, -, -, rfl⟩ | ⟨-, hp | hp | hp | hp⟩
  · exact h
  · obtain ⟨-, -, ⟨_, -, -, -, rfl⟩ | rfl | rfl⟩ := hp <;> exact h
  · obtain ⟨-, -, ⟨b, -, -, rfl⟩ | rfl | rfl⟩ := hp
    · obtain ⟨hchunks, hbytes⟩ := k.timestamp_counts (trackEntry b) now
      exact Channel.bytesCounted_of_counts hchunks hbytes (k.timestamp_wfaults _ _) h
    · exact h
    · exact h
  · obtain ⟨-, -, -, rfl⟩ := hp
    exact h
  · obtain ⟨-, ⟨-, -, rfl⟩ | ⟨-, -, rfl⟩⟩ := hp
    · exact h.writeOk
    · exact h.writeFault

theorem ChannelForm.bytesCounted {now : DWord} {c : Nat} {a : Action} (h : ChannelForm n now c k a k1)
    (hk : k.BytesCounted) : k1.BytesCounted := by
  cases h with
  | start => rfl
  | step _ ans k1 sent hstep => exact hk.step hstep
  | read | config | evt | evtEn | stop => exact hk

/-! ### The event bits of a channel (10_state.md R74) -/

/-- A step of a channel only sets bits of DLV_EVT. -/
theorem Channel.step_evt {now : DWord} {ans : PortAns} {sent : Option (List Byte)}
    (hstep : k.step n now ans = .go k1 sent) : ∃ w, k1.evt = k.evt ||| w := by
  rcases Channel.step_cases hstep with ⟨-, -, -, rfl⟩ | ⟨-, hp | hp | hp | hp⟩
  · exact ⟨_, rfl⟩
  · obtain ⟨-, -, ⟨_, -, -, -, rfl⟩ | rfl | rfl⟩ := hp
    · exact ⟨0#3, BitVec.or_zero.symm⟩
    · exact ⟨_, rfl⟩
    · exact ⟨_, rfl⟩
  · obtain ⟨-, -, ⟨b, -, -, rfl⟩ | rfl | rfl⟩ := hp
    · exact k.timestamp_evt _ _
    · exact ⟨_, rfl⟩
    · exact ⟨_, rfl⟩
  · obtain ⟨-, -, -, rfl⟩ := hp
    exact ⟨0#3, BitVec.or_zero.symm⟩
  · obtain ⟨-, ⟨-, -, rfl⟩ | ⟨-, -, rfl⟩⟩ := hp
    · exact ⟨0#3, BitVec.or_zero.symm⟩
    · exact ⟨_, rfl⟩

/-- A bit that only other bits have joined is still set. -/
theorem getLsbD_of_and_not_eq_zero {m i : Nat} {v w : BitVec m} (h : v &&& ~~~w = 0#m) (hi : v.getLsbD i = true) :
    w.getLsbD i = true := by
  have hbit := congrArg (fun x => x.getLsbD i) h
  simpa [hi, BitVec.lt_of_getLsbD hi] using hbit

/-- A bit of DLV_EVT goes out by the host's write of 1 to it. -/
theorem ChannelForm.evt_cleared {now : DWord} {c j : Nat} {a : Action} (h : ChannelForm n now c k a k1)
    (hset : k.evt.getLsbD j = true) (hclear : k1.evt.getLsbD j = false) :
    ∃ addr v, a = .hostWrite addr 4 v ∧ addr.toNat = 0x108 + 0x80 * c ∧ v.getLsbD j = true := by
  cases h with
  | evt addr v haddr =>
    rw [getLsbD_w1c_extract _ _ (BitVec.lt_of_getLsbD hset), hset] at hclear
    exact ⟨addr, v, rfl, haddr, by simpa using hclear⟩
  | step _ ans k1 sent hstep =>
    obtain ⟨w, hw⟩ := Channel.step_evt hstep
    rw [hw, BitVec.getLsbD_or, hset] at hclear
    cases hclear
  | read | config | evtEn | start | stop => exact absurd (hset.symm.trans hclear) (by decide)

end Sys2Proof.Machine
end

section
/-! ## The statements -/

namespace Sys2Proof.Proofs

open Sys2Proof.Machine

/-- Settles O46: the invariant of a channel holds at reset and of a fresh session, and each step of a channel keeps it. -/
theorem stepKeepsTheChannelInvariant : Obligations.StepKeepsTheChannelInvariant := by
  refine fun s t hok hstep => step_keeps (fun _ => id) (fun s a t hform hok => ?_) hstep hok
  rw [State.ChannelsOk, hform.hw]
  exact hform.channels.forall_channels (Channel.ok_reset _) (fun _ _ _ h => h.ok) hok

/-- Settles O47: a completed write adds one chunk, and either its 1316 bytes or one fault. -/
theorem stepKeepsBytesCounted : Obligations.StepKeepsBytesCounted := by
  refine fun s t hcount hstep => step_keeps (P := fun s => ∀ k ∈ s.ch, k.BytesCounted) (fun _ => id) ?_ hstep hcount
  intro s a t hform hcount
  exact hform.channels.forall_channels rfl (fun _ _ _ h => h.bytesCounted) hcount

/-- Settles O49: of all operations on the event registers only the host's writes clear a bit, and they clear the bits
written 1. -/
theorem eventBitsStayUntilCleared : Obligations.EventBitsStayUntilCleared := by
  intro s t hstep hreset
  rcases step_form hstep with ⟨-, rfl⟩ | ⟨a, hact, hform⟩
  · refine ⟨fun i hset hclear => ?_, fun c k k' j hk hk' hset hclear => ?_⟩
    · exact absurd (hset.symm.trans hclear) (by decide)
    · obtain rfl : k = k' := Option.some.inj (hk.symm.trans hk')
      exact absurd (hset.symm.trans hclear) (by decide)
  have hne : a ≠ .reset := fun ha => hreset (ha ▸ hact)
  rw [hact]
  refine ⟨fun i hset hclear => ?_, fun c k k' j hk hk' hset hclear => ?_⟩
  · rcases hform.irqEvents with hkept | ha | ⟨v, rfl, hw⟩
    · exact absurd ((getLsbD_of_and_not_eq_zero hkept hset).symm.trans hclear) (by decide)
    · exact absurd ha hne
    · rw [hw, getLsbD_w1c_extract _ _ (BitVec.lt_of_getLsbD hset), State.popped_irqEvents, hset] at hclear
      exact ⟨v, rfl, by simpa using hclear⟩
  · have hchannels := hform.channels
    generalize t.ch = ks at hchannels hk'
    cases hchannels with
    | kept =>
      obtain rfl : k = k' := Option.some.inj (hk.symm.trans hk')
      exact absurd (hset.symm.trans hclear) (by decide)
    | reset ha => exact absurd ha hne
    | one c' k₀ k1 hk₀ hone =>
      by_cases hc : c' = c
      · subst hc
        obtain rfl : k₀ = k := Option.some.inj (hk₀.symm.trans hk)
        obtain ⟨hlt, -⟩ := List.getElem?_eq_some_iff.1 hk
        rw [State.popped_ch, List.getElem?_set_self hlt, Option.some.injEq] at hk'
        subst hk'
        obtain ⟨addr, v, rfl, haddr, hv⟩ := hone.evt_cleared hset hclear
        exact ⟨addr, v, rfl, haddr, hv⟩
      · rw [List.getElem?_set_ne hc] at hk'
        obtain rfl : k = k' := Option.some.inj (hk.symm.trans hk')
        exact absurd (hset.symm.trans hclear) (by decide)

/-- Settles O41: chunk 0 captures the epoch, and a chunk number away from the multiples of 10 has no check. -/
theorem tsreadTakesTheTimestamp : Obligations.TsreadTakesTheTimestamp := by
  intro s c k ans hact hk htsread hstop
  have hstep := Channel.step_of_tsread htsread hstop s.hw.raBufSize s.env.wallNs
  refine ⟨fun b hans hb => ⟨fun hfirst => ?_, fun hbetween => ?_⟩, fun j hans hj => ?_, fun hans => ?_⟩ <;>
    subst hans
  · refine step_dlv_of_go hact hk ?_
    rw [hstep, Channel.tsreadStep_bytes hb, Channel.timestamp_of_first hfirst]
  · refine step_dlv_of_go hact hk ?_
    rw [hstep, Channel.tsreadStep_bytes hb, Channel.timestamp_of_between hbetween]
  · exact step_dlv_of_go hact hk ((hstep _).trans (if_pos hj))
  · exact step_dlv_of_go hact hk (hstep _)

end Sys2Proof.Proofs
end

/-! PROOFS. What a step does to the DMX session (10_state.md sections 3 and 5, 43_clock_tracker.md): the layer of facts
about the part of the DMX registers that the session's invariant speaks of; then the statements about that invariant and
about DURATION_NS. -/

section
/-! ## The session registers and what a step makes of them -/

namespace Sys2Proof.Machine

variable {s t : State} {a : Action}

/-- The DMX registers that `Dmx.ok` speaks of. -/
structure DmxSession where
  phase : DmxPhase
  term : Term
  stopReq : Bool
  truncBytes : BitVec 8
  pcrSeen : Bool
  durationNs : DWord
  lastDeltaNs : DWord
  idxL : Option IdxRecord

def Dmx.session (d : Dmx) : DmxSession where
  phase := d.phase
  term := d.term
  stopReq := d.stopReq
  truncBytes := d.truncBytes
  pcrSeen := d.pcrSeen
  durationNs := d.regs.durationNs
  lastDeltaNs := d.regs.lastDeltaNs
  idxL := d.idxL

/-- How the step `a` changes the session registers: by the commands, the take step and hardware reset, by the end of the
session, or by the PCR of a packet. -/
inductive SessionForm (a : Action) (x : DmxSession) : DmxSession → Prop
  | kept : SessionForm a x x
  | start (hphase : x.phase ≠ .run) (hlatch : x.idxL = none) :
      SessionForm a x
        { phase := .run, term := .none, stopReq := false, truncBytes := 0#8, pcrSeen := false, durationNs := 0#64,
          lastDeltaNs := 0#64, idxL := x.idxL }
  | stop (hrun : x.phase = .run) : SessionForm a x { x with stopReq := true }
  | taken : SessionForm a x { x with idxL := none }
  | ended (e : Term) (he : e ≠ .none) : SessionForm a x { x with phase := .done, term := e, stopReq := false }
  | truncated (n : BitVec 8) (hn : n.toNat ≤ 187) :
      SessionForm a x { x with phase := .done, term := .endOfSource, stopReq := false, truncBytes := n }
  | firstPcr (r : IdxRecord) : SessionForm a x { x with pcrSeen := true, idxL := some r }
  | validPcr (hseen : x.pcrSeen = true) (delta : Int) (hlow : 0 ≤ delta) (hhigh : delta ≤ 500000000) (r : IdxRecord) :
      SessionForm a x { x with
        durationNs := x.durationNs + BitVec.ofInt 64 delta
        lastDeltaNs := BitVec.ofInt 64 delta
        idxL := some r }
  | jump (hseen : x.pcrSeen = true) (r : IdxRecord) :
      SessionForm a x { x with durationNs := x.durationNs + x.lastDeltaNs, idxL := some r }
  | reset (ha : a = .reset) : SessionForm a x Dmx.reset.session

theorem SectionKeeps.session {p : Pid} (h : SectionKeeps p s t) : t.dmx.session = s.dmx.session := by
  rw [h.dmx]
  rfl

/-- The PCR part of a packet, as the session registers see it (R240, 43 R302 to R306). -/
theorem trackPcr_session (s : State) (af : Af) (off : DWord) :
    SessionForm a s.dmx.session (s.trackPcr af off).dmx.session := by
  cases hpcr : af.pcrPresent with
  | false => rw [trackPcr_of_absent hpcr]; exact .kept
  | true =>
    rw [trackPcr_of_present hpcr]
    rcases clockTrack_cases s (pcrToNs af.base af.ext) off with
      ⟨hseen, -⟩ | ⟨hseen, ⟨hlow, hhigh⟩, -⟩ | ⟨hseen, hjump, -⟩
    · rw [clockTrack_of_first hseen]
      exact .firstPcr _
    · rw [clockTrack_of_valid hseen hlow hhigh]
      exact .validPcr hseen _ hlow hhigh _
    · rw [clockTrack_of_discontinuity hseen hjump]
      exact .jump hseen _

theorem StepForm.session (h : StepForm s a t) : SessionForm a s.dmx.session t.dmx.session := by
  cases h with
  | hostRead addr r words =>
    rcases s.snapshot_cases r with h | ⟨_, _, h⟩ | ⟨_, h⟩ | ⟨_, _, _, _, _, h⟩ <;> rw [h] <;> exact .kept
  | hostWrite addr v =>
    rcases s.writeWord_cases v (regAt s.nDlv addr.toNat) with
      h | ⟨_, h⟩ | ⟨_, h⟩ | ⟨_, h⟩ | ⟨_, h⟩ | ⟨_, _, _, _, _, h⟩ <;> rw [h] <;> exact .kept
  | dmxStart hphase hlatch => exact .start hphase hlatch
  | dmxStop w hrun => exact .stop hrun
  | cancel ans => exact .ended .cancelled (by decide)
  | eos => exact .ended .endOfSource (by decide)
  | truncated n hn =>
    have hbytes : (BitVec.ofNat 8 n).toNat ≤ 187 := by rw [BitVec.toNat_ofNat]; omega
    exact .truncated _ hbytes
  | readFault => exact .ended .readFault (by decide)
  | syncAbort b => exact .ended .syncAbort (by decide)
  | packet b hdr af payload v u hv hmem hflt hu =>
    have hsession : u.dmx.session = s.dmx.session := by
      rw [(hv.trans (sectionPart_keeps hu)).session, received_dmx]
      rfl
    rw [← hsession]
    exact trackPcr_session u af _
  | take out => exact .taken
  | reset => exact .reset rfl
  | _ => exact .kept

end Sys2Proof.Machine
end

section
/-! ## The invariant of the session, and its duration (10_state.md R42, R63, 43 R302, R309) -/

namespace Sys2Proof.Machine

variable {a : Action} {x y : DmxSession}

/-- `Dmx.ok`, said of the session registers alone. -/
def DmxSession.ok (x : DmxSession) : Prop :=
  (x.term = .none ↔ x.phase ≠ .done) ∧
  (x.stopReq = true → x.phase = .run) ∧
  x.truncBytes.toNat ≤ 187 ∧
  (0 ≤ x.lastDeltaNs.toInt ∧ x.lastDeltaNs.toInt ≤ 500000000) ∧
  (x.pcrSeen = false → x.durationNs = 0#64 ∧ x.lastDeltaNs = 0#64 ∧ x.idxL = none)

theorem Dmx.ok_iff_session (d : Dmx) : d.ok ↔ d.session.ok := Iff.rfl

/-- A valid delta fits its register (43 R304). -/
theorem toInt_ofInt_of_valid {delta : Int} (hlow : 0 ≤ delta) (hhigh : delta ≤ 500000000) :
    (BitVec.ofInt 64 delta).toInt = delta := by
  rw [BitVec.toInt_ofInt]
  exact Int.bmod_eq_of_le (by omega) (by omega)

/-- The duration grows by a trusted delta as long as it stays below 2^63 (43 R309). -/
theorem toInt_le_toInt_add {v w : DWord} (hlow : 0 ≤ w.toInt) (hhigh : w.toInt ≤ 500000000)
    (hroom : v.toInt + 500000000 < 2 ^ 63) : v.toInt ≤ (v + w).toInt := by
  have hv : -2 ^ 63 ≤ v.toInt := v.le_toInt
  rw [BitVec.toInt_add, Int.bmod_eq_of_le (by omega) (by omega)]
  omega

theorem DmxSession.ok_reset : Dmx.reset.session.ok := (Dmx.ok_iff_session _).1 (by decide)

theorem SessionForm.ok (h : SessionForm a x y) (hok : x.ok) : y.ok := by
  obtain ⟨hterm, hstop, htrunc, hdelta, hfresh⟩ := hok
  cases h with
  | kept => exact ⟨hterm, hstop, htrunc, hdelta, hfresh⟩
  | start hphase hlatch => exact ⟨by simp, by simp, by simp, by simp, fun _ => ⟨rfl, rfl, hlatch⟩⟩
  | stop hrun => exact ⟨hterm, fun _ => hrun, htrunc, hdelta, hfresh⟩
  | taken =>
    refine ⟨hterm, hstop, htrunc, hdelta, fun hseen => ?_⟩
    obtain ⟨hduration, hlast, -⟩ := hfresh hseen
    exact ⟨hduration, hlast, rfl⟩
  | ended e he => exact ⟨by simp [he], by simp, htrunc, hdelta, hfresh⟩
  | truncated n hn => exact ⟨by simp, by simp, hn, hdelta, hfresh⟩
  | firstPcr r => exact ⟨hterm, hstop, htrunc, hdelta, by simp⟩
  | validPcr hseen delta hlow hhigh r =>
    have hint := toInt_ofInt_of_valid hlow hhigh
    exact ⟨hterm, hstop, htrunc, by simp only [hint]; exact ⟨hlow, hhigh⟩, by simp [hseen]⟩
  | jump hseen r => exact ⟨hterm, hstop, htrunc, hdelta, by simp [hseen]⟩
  | reset => exact DmxSession.ok_reset

/-- In a running session only a PCR moves the duration, by the new trusted delta or the last one. -/
theorem SessionForm.duration_le (h : SessionForm a x y) (hok : x.ok) (hrun : x.phase = .run) (ha : a ≠ .reset)
    (hroom : x.durationNs.toInt + 500000000 < 2 ^ 63) : x.durationNs.toInt ≤ y.durationNs.toInt := by
  cases h with
  | validPcr hseen delta hlow hhigh r =>
    have hint := toInt_ofInt_of_valid hlow hhigh
    exact toInt_le_toInt_add (by rw [hint]; exact hlow) (by rw [hint]; exact hhigh) hroom
  | jump hseen r =>
    obtain ⟨-, -, -, ⟨hlow, hhigh⟩, -⟩ := hok
    exact toInt_le_toInt_add hlow hhigh hroom
  | start hphase hlatch => exact absurd hrun hphase
  | reset ha' => exact absurd ha' ha
  | _ => exact Int.le_refl _

end Sys2Proof.Machine
end

section
/-! ## The statements -/

namespace Sys2Proof.Proofs

open Sys2Proof.Machine

/-- Settles O36: every change of the session registers keeps their invariant. -/
theorem stepKeepsTheDmxInvariant : Obligations.StepKeepsTheDmxInvariant :=
  fun _ _ hok hstep => step_keeps (P := (·.dmx.ok)) (fun _ => id) (fun _ _ _ hform => hform.session.ok) hstep hok

/-- Settles O37: a session that runs is not started again, and both deltas that a PCR can add are trusted ones. -/
theorem durationNeverDecreases : Obligations.DurationNeverDecreases := by
  intro s t hok hrun hstep hreset hroom
  rcases step_form hstep with ⟨-, rfl⟩ | ⟨a, hact, hform⟩
  · exact Int.le_refl _
  · exact hform.session.duration_le hok hrun (fun ha => hreset (ha ▸ hact)) hroom

end Sys2Proof.Proofs
end

/-! PROOFS. What a step does to the filter table and its buffers, in the terms the invariants need (20_memory.md R100,
R120, 10_state.md R54, R68, 42 R265): the layer of facts about the outcome of every instruction, the canonical form of the
tables, the PIDs seen and an invalid filter; then the statements. -/

section
/-! ## No step faults where the filters meet 42 R272 (20_memory.md R120) -/

namespace Sys2Proof.Machine

variable {s : State}

/-- Where the filters meet 42 R272 every instruction completes. -/
theorem exec_completes (i : Instr) (hok : s.FiltersOk) : Completes (exec i s) := by
  cases i with
  | tsAfPayload hdr body => exact exec_packet_completes (.inl rfl) (hok hdr.pid)
  | tsPayload hdr body => exact exec_packet_completes (.inr (.inl rfl)) (hok hdr.pid)
  | tsAfOnly hdr body => exact exec_packet_completes (.inr (.inr rfl)) (hok hdr.pid)
  | tsAfcReserved hdr body => exact completes_next _
  | tsSyncFault sync rest => exact completes_next _
  | nop | dmxStart | dmxStop | fltReset | dlvStart | dlvStop =>
    refine exec_command_completes ?_ s
    trivial

/-- The outcome is a next state or a refusal. -/
def NoFault (o : Host.Outcome State Fault Refusal) : Prop := ∀ f, o ≠ .fault f

theorem noFault_next (t : State) : NoFault (.next t) := nofun

theorem noFault_refused (r : Refusal) : NoFault (.refused r) := nofun

theorem Completes.noFault {o : Host.Outcome State Fault Refusal} (h : Completes o) : NoFault o := by
  obtain ⟨t, rfl⟩ := h
  exact noFault_next t

theorem State.hostRead_noFault (s : State) (addr : BitVec 12) (width : Nat) : NoFault (s.hostRead addr width) := by
  by_cases h : width = 4 ∧ addr.toNat % 4 = 0
  · obtain ⟨rfl, ha⟩ := h
    exact (s.hostRead_completes ha).noFault
  · rw [s.hostRead_refused h]
    exact noFault_refused _

theorem State.hostWrite_noFault (s : State) (addr : BitVec 12) (width : Nat) (v : Word) :
    NoFault (s.hostWrite addr width v) := by
  by_cases h : width = 4 ∧ addr.toNat % 4 = 0
  · obtain ⟨rfl, ha⟩ := h
    exact (s.hostWrite_completes ha v).noFault
  · rw [s.hostWrite_refused v h]
    exact noFault_refused _

theorem State.dmxRead_noFault (hok : s.FiltersOk) (ans : PortAns) : NoFault (s.dmxRead ans) := by
  cases ans with
  | bytes b =>
    simp only [State.dmxRead]
    split
    · exact (exec_completes _ hok).noFault
    · exact noFault_refused _
  | eos k =>
    simp only [State.dmxRead]
    split
    · exact noFault_next _
    · exact noFault_refused _
  | unanswered => exact noFault_next _
  | fault => exact noFault_next _
  | ok => exact noFault_refused _

theorem State.dmxStep_noFault (hok : s.FiltersOk) (ans : PortAns) : NoFault (s.dmxStep ans) := by
  unfold State.dmxStep
  split_ifs
  · exact noFault_next _
  · exact noFault_next _
  · exact noFault_next _
  · exact State.dmxRead_noFault hok ans

theorem State.dlvStep_noFault (s : State) (c : Nat) (ans : PortAns) : NoFault (s.dlvStep c ans) := by
  unfold State.dlvStep
  split
  · exact noFault_next _
  · split
    · exact noFault_next _
    · exact noFault_refused _
    · exact noFault_next _
    · exact noFault_next _

theorem State.act_noFault (hok : s.FiltersOk) (a : Action) : NoFault (s.act a) := by
  cases a with
  | hostRead addr width => exact s.hostRead_noFault addr width
  | hostWrite addr width v => exact s.hostWrite_noFault addr width v
  | dmx ans => exact State.dmxStep_noFault hok ans
  | dlv c ans => exact s.dlvStep_noFault c ans
  | take => exact noFault_next _
  | wall ns =>
    simp only [State.act, State.wallStep]
    split
    · exact noFault_next _
    · exact noFault_refused _
  | reset => exact noFault_next _

end Sys2Proof.Machine
end

section
/-! ## The canonical form of the tables (20_memory.md R100, 10_state.md R68) -/

namespace Sys2Proof.Machine

variable {s t : State} {a : Action}

theorem State.TablesWf.congr (h : s.TablesWf) (hflt : t.flt = s.flt) (hmem : t.mem = s.mem) : t.TablesWf := by
  obtain ⟨hm, hf⟩ := h
  exact ⟨by rw [hmem]; exact hm, by rw [hflt]; exact hf⟩

theorem sectionPart_tablesWf {u : State} {p : Pid} {pusi : Bool} {payload : List Byte}
    (h : s.sectionPart p pusi payload = .ok u) (hwf : s.TablesWf) : u.TablesWf := by
  rcases sectionPart_cases h with ⟨-, -, hinput⟩ | rfl
  · exact State.sectionInput_wf hinput hwf
  · exact hwf

theorem StepForm.tablesWf (h : StepForm s a t) (hwf : s.TablesWf) : t.TablesWf := by
  cases h with
  | hostRead addr r words => rw [State.snapshot_frame]; exact hwf
  | hostWrite addr v => rw [State.writeWord_frame]; exact hwf
  | dmxStart hphase hlatch => exact ⟨hwf.1, rfl⟩
  | fltReset p => exact ⟨hwf.1, State.setFilter_fltWf _ _ _ hwf.2⟩
  | packet b hdr af payload v u hv hmem hflt hu =>
    have hpcr := trackPcr_keeps u af s.dmx.regs.offset
    refine State.TablesWf.congr (sectionPart_tablesWf hu ⟨?_, ?_⟩) hpcr.flt hpcr.mem
    · rw [hmem]; exact hwf.1
    · rw [hflt]; exact received_flt_wf s hdr.pid hwf.2
  | reset => exact ⟨rfl, rfl⟩
  | _ => exact hwf

end Sys2Proof.Machine
end

section
/-! ## The number of PIDs seen (10_state.md R54) -/

namespace Sys2Proof.Machine

variable {s t : State} {a : Action} {p : Pid}

/-- DMX_SEEN_PIDS and every SEEN are in `t` what they are in `s`. -/
structure SeenKept (s t : State) : Prop where
  count : t.dmx.seenPids = s.dmx.seenPids
  seen : ∀ q, (t.filter q).seen = (s.filter q).seen

theorem SeenKept.trans {u : State} (h1 : SeenKept s t) (h2 : SeenKept t u) : SeenKept s u :=
  ⟨h2.count.trans h1.count, fun q => (h2.seen q).trans (h1.seen q)⟩

theorem SeenKept.seenCounted (h : SeenKept s t) (hs : s.SeenCounted) : t.SeenCounted := by
  simp only [State.SeenCounted, h.count, h.seen]
  exact hs

theorem SectionKeeps.seenKept (h : SectionKeeps p s t) : SeenKept s t :=
  ⟨by rw [h.dmx], h.seen⟩

theorem PcrKeeps.seenKept (h : PcrKeeps s t) : SeenKept s t :=
  ⟨by rw [h.dmx], fun q => by rw [h.filter q]⟩

/-- Where no PID is seen the count is 0. -/
theorem State.seenCounted_of_flt_nil (hflt : s.flt = []) (hcount : s.dmx.seenPids = 0#14) : s.SeenCounted := by
  simp only [State.SeenCounted, State.filter_of_flt_nil hflt, hcount]
  simp [Filter.reset]

/-- The PIDs seen after a packet on `p` are those seen before, and `p`. -/
theorem received_seen_set (s : State) (p : Pid) :
    Finset.univ.filter (fun q : Pid => ((s.received p).filter q).seen = true) =
      insert p (Finset.univ.filter (fun q : Pid => (s.filter q).seen = true)) := by
  ext q
  rw [Finset.mem_insert, Finset.mem_filter, Finset.mem_filter, received_filter]
  by_cases hq : q = p <;> simp [hq]

/-- The first packet on a PID makes one more PID seen, and there are 8192 PIDs, so the register does not wrap. -/
theorem received_seenCounted (hs : s.SeenCounted) (p : Pid) : (s.received p).SeenCounted := by
  rw [State.SeenCounted, received_seen_set, received_dmx]
  rw [State.SeenCounted] at hs
  cases hseen : (s.filter p).seen with
  | true =>
    have hmem : p ∈ Finset.univ.filter (fun q : Pid => (s.filter q).seen = true) := by simp [hseen]
    rw [Finset.insert_eq_of_mem hmem, ← hs]
    simp [State.countedDmx, hseen]
  | false =>
    have hmem : p ∉ Finset.univ.filter (fun q : Pid => (s.filter q).seen = true) := by simp [hseen]
    have hcard : (insert p (Finset.univ.filter (fun q : Pid => (s.filter q).seen = true))).card ≤ 8192 :=
      (Finset.card_le_univ _).trans_eq (FinEnum.card_eq_fintypeCard.symm.trans (FinEnum.card_bitVec 13))
    have hcount : (s.countedDmx p).seenPids = s.dmx.seenPids + 1#14 := by simp [State.countedDmx, hseen]
    rw [Finset.card_insert_of_notMem hmem] at hcard ⊢
    rw [hcount, BitVec.toNat_add, ← hs] at *
    have hone : (1#14).toNat = 1 := rfl
    omega

theorem StepForm.seenCounted (h : StepForm s a t) (hs : s.SeenCounted) : t.SeenCounted := by
  cases h with
  | hostRead addr r words =>
    refine SeenKept.seenCounted (s := s) ?_ hs
    rcases s.snapshot_cases r with h | ⟨_, _, h⟩ | ⟨_, h⟩ | ⟨_, _, _, _, _, h⟩ <;> rw [h] <;> exact ⟨rfl, fun _ => rfl⟩
  | hostWrite addr v =>
    refine SeenKept.seenCounted (s := s) ?_ hs
    rcases s.writeWord_cases v (regAt s.nDlv addr.toNat) with
      h | ⟨_, h⟩ | ⟨_, h⟩ | ⟨_, h⟩ | ⟨_, h⟩ | ⟨_, _, _, _, _, h⟩ <;> rw [h] <;> exact ⟨rfl, fun _ => rfl⟩
  | dmxStart hphase hlatch => exact State.seenCounted_of_flt_nil rfl rfl
  | reset => exact State.seenCounted_of_flt_nil rfl rfl
  | fltReset p =>
    refine SeenKept.seenCounted (s := s) ⟨rfl, fun q => ?_⟩ hs
    rw [fltReset_filter s.accept p q]
    split <;> rfl
  | packet b hdr af payload v u hv hmem hflt hu =>
    have hkept := (hv.trans (sectionPart_keeps hu)).seenKept.trans (trackPcr_keeps u af s.dmx.regs.offset).seenKept
    exact hkept.seenCounted (received_seenCounted hs hdr.pid)
  | _ => exact SeenKept.seenCounted (s := s) ⟨rfl, fun _ => rfl⟩ hs

end Sys2Proof.Machine
end

section
/-! ## An invalid filter (42 R265, 60 R404) -/

namespace Sys2Proof.Machine

variable {s t : State} {a : Action} {p : Pid}

/-- The filter `g` holds what `f` holds of a section that has overflowed. -/
structure StillInvalid (f g : Filter) : Prop where
  invalid : g.invalid = true
  pos : g.pos = f.pos
  size : g.size = f.size

/-- Section input leaves an invalid filter alone, its own and, but for the codec, any other. -/
theorem sectionInput_stillInvalid {q : Pid} {pusi : Bool} {payload : List Byte}
    (hinvalid : (s.filter p).invalid = true) (h : s.sectionInput q pusi payload = .ok t) :
    StillInvalid (s.filter p) (t.filter p) := by
  by_cases hp : p = q
  · subst hp
    have hdropped : s.sectionInput p pusi payload = .ok s := by simp [State.sectionInput, hinvalid]
    obtain rfl : s = t := Except.ok.inj (hdropped.symm.trans h)
    exact ⟨hinvalid, rfl, rfl⟩
  · rw [(State.sectionInput_keeps h).others p hp]
    exact ⟨hinvalid, rfl, rfl⟩

theorem StepForm.stillInvalid (h : StepForm s a t) (hinvalid : (s.filter p).invalid = true)
    (hflt : a ≠ .hostWrite 0x004#12 4 (cmdWord 0x03#8 0#4 p)) (hstart : a ≠ .hostWrite 0x004#12 4 0x00000001#32)
    (hreset : a ≠ .reset) : StillInvalid (s.filter p) (t.filter p) := by
  have kept : StillInvalid (s.filter p) (s.filter p) := ⟨hinvalid, rfl, rfl⟩
  cases h with
  | hostRead addr r words => rw [State.snapshot_frame]; exact kept
  | hostWrite addr v => rw [State.writeWord_frame]; exact kept
  | dmxStart => exact absurd rfl hstart
  | reset => exact absurd rfl hreset
  | fltReset q =>
    have hp : p ≠ q := by rintro rfl; exact hflt rfl
    rw [fltReset_filter s.accept q p, if_neg hp]
    exact kept
  | packet b hdr af payload v u hv hmem hflt' hu =>
    have hreceived : v.filter p = if p = hdr.pid then { s.filter p with seen := true } else s.filter p := by
      rw [State.filter_congr hflt', received_filter]
    have hv' : StillInvalid (s.filter p) (v.filter p) := by
      rw [hreceived]
      split <;> exact ⟨hinvalid, rfl, rfl⟩
    rw [(trackPcr_keeps u af _).filter p]
    rcases sectionPart_cases hu with ⟨-, -, hinput⟩ | rfl
    · have hu' := sectionInput_stillInvalid hv'.invalid hinput
      exact ⟨hu'.invalid, hu'.pos.trans hv'.pos, hu'.size.trans hv'.size⟩
    · exact hv'
  | _ => exact kept

end Sys2Proof.Machine
end

section
/-! ## The statements -/

namespace Sys2Proof.Proofs

open Sys2Proof.Machine

/-- Settles O31: POS of an active filter that meets 42 R272 is inside the buffer, so the packets' section path completes;
nothing else can fault. -/
theorem sectionBuffersAreNeverOverrun : Obligations.SectionBuffersAreNeverOverrun := by
  intro s f hok
  cases hact : s.nextAction with
  | none => rw [step_of_idle hact]; exact noFault_next s f
  | some a => rw [step_of_nextAction hact]; exact State.act_noFault (s := s.popped) hok a f

/-- Settles O32: every write of the tables goes through `sparsePut`, at a key inside the bounds. -/
theorem stepKeepsTheTablesCanonical : Obligations.StepKeepsTheTablesCanonical :=
  fun _ _ hwf hstep => step_keeps (fun _ => id) (fun _ _ _ hform => hform.tablesWf) hstep hwf

/-- Settles O33: SEEN and its count change together, at the first packet of a PID, at DMX_START and at reset. -/
theorem stepKeepsSeenPidsCounted : Obligations.StepKeepsSeenPidsCounted :=
  fun _ _ hs hstep => step_keeps (fun _ => id) (fun _ _ _ hform => hform.seenCounted) hstep hs

/-- Settles O29: the section path drops what is offered to an invalid filter, and the two commands that clear it have one
word each. -/
theorem invalidFilterStaysUntilReset : Obligations.InvalidFilterStaysUntilReset := by
  intro s t p hstep hinvalid hflt hstart hreset
  rcases step_form hstep with ⟨-, rfl⟩ | ⟨a, hact, hform⟩
  · exact ⟨hinvalid, rfl, rfl⟩
  · rw [hact] at hflt hstart hreset
    have h := hform.stillInvalid hinvalid (fun ha => hflt (congrArg some ha)) (fun ha => hstart (congrArg some ha))
      (fun ha => hreset (congrArg some ha))
    exact ⟨h.invalid, h.pos, h.size⟩

end Sys2Proof.Proofs
end

/-! PROOFS. What a packet comes to (41_packet_framer.md, 42_section_reassembler.md): the layer of facts about the section
input of one payload, about the packets with a payload and about those with an adaptation field only; then the statements
of R201, R232 to R240 and R260 to R267 that are left. -/

section
/-! ## Section input, by its outcome (42 R261 to R266) -/

namespace Sys2Proof.Machine

variable {s t : State} {p : Pid}

theorem byteAt_append_right {x y : List Byte} {i : Nat} (h : x.length ≤ i) : 
    byteAt (x ++ y) i = byteAt y (i - x.length) := by
  simp [byteAt, List.getElem?_append_right h]

/-- The state of an active filter is one with a section in progress. -/
theorem InProgress.refl (h : (s.filter p).active = true) : InProgress s s p :=
  ⟨rfl, fun _ _ => rfl, by rw [← h]⟩

/-- Of the outcomes of a section only the one in which it goes on leaves its filter active. -/
theorem SectionOutcome.goes_on {held : List Byte} {size : Nat} (h : SectionOutcome s t p held size)
    (hactive : (t.filter p).active = true) : held.length < 3 ∨ (size ≤ 4096 ∧ held.length < size) := by
  obtain ⟨-, hoverflow, hcomplete⟩ := h
  by_contra hdone
  have hsome : 3 ≤ held.length := by omega
  rcases Nat.lt_or_ge 4096 size with hsize | hsize
  · rw [(hoverflow hsome hsize).1 p, if_pos rfl] at hactive
    cases hactive
  · rw [(hcomplete hsome hsize (by omega)).1 p, if_pos rfl] at hactive
    cases hactive

/-- While a section stays incomplete its buffer holds the bytes appended after those it held (42 R263, R264). -/
theorem State.append_incomplete {x : List Byte} (hok : (s.filter p).ok) (h : s.append p x = .ok t)
    (hactive : (t.filter p).active = true) :
    (t.filter p).pos.toNat = (s.filter p).pos.toNat + x.length ∧
      t.sectionBytes p ((s.filter p).pos.toNat + x.length) = s.sectionBytes p (s.filter p).pos.toNat ++ x := by
  cases hs : (s.filter p).active with
  | false =>
    rw [State.append_inactive hs] at h
    cases h
    exact absurd (hs.symm.trans hactive) (by decide)
  | true =>
    obtain ⟨t', ht', houtcome⟩ := State.append_outcome (x := x) (InProgress.refl hs) hok
    obtain rfl : t' = t := Except.ok.inj (ht'.symm.trans h)
    have hgoes := houtcome.goes_on hactive
    obtain ⟨hfilter, -, hbytes⟩ := houtcome.1 hgoes
    rw [List.length_append, State.sectionBytes_length] at hgoes hbytes hfilter
    refine ⟨?_, hbytes⟩
    rw [hfilter p, if_pos rfl, BitVec.toNat_ofNat]
    omega

/-- The section input of a packet that starts a payload, before its first section byte: the section it abandons counted. -/
def State.abandon (s : State) (p : Pid) : State := if (s.filter p).active then s.noteSecDiscard else s

theorem State.abandon_eq (s : State) (p : Pid) :
    s.abandon p =
      if (s.filter p).active = true then
        { s with dmx := { s.dmx with secDiscard := s.dmx.secDiscard + 1#32 }, irqEvents := s.irqEvents ||| 0x40#10 }
      else s := rfl

@[simp] theorem State.abandon_filter (s : State) (p q : Pid) : (s.abandon p).filter q = s.filter q := by
  unfold State.abandon
  split <;> rfl

/-- Of the DMX registers an abandoned section writes DMX_SEC_DISCARD. -/
theorem State.abandon_dmx (s : State) (p : Pid) :
    (s.abandon p).dmx = { s.dmx with
      secDiscard := if (s.filter p).active then s.dmx.secDiscard + 1#32 else s.dmx.secDiscard } := by
  rw [State.abandon_eq]
  split <;> rfl

theorem State.parsePat_filter (s : State) (d : List Byte) (size : Nat) (q : Pid) :
    (s.parsePat d size).filter q = s.filter q := by
  unfold State.parsePat
  split <;> rfl

theorem State.sectionInput_past_end {payload : List Byte} (hvalid : (s.filter p).invalid = false)
    (h : payload.length < 1 + (byteAt payload 0).toNat) :
    s.sectionInput p true payload = .ok ((s.abandon p).setFilter p (s.filter p).cleared).noteMalformed := by
  simp [State.sectionInput, State.abandon, hvalid, h]

theorem State.sectionInput_start {payload : List Byte} (hvalid : (s.filter p).invalid = false)
    (h : ¬ payload.length < 1 + (byteAt payload 0).toNat) :
    s.sectionInput p true payload =
      ((s.abandon p).setFilter p { (s.filter p).cleared with active := true }).append p (sectionOffer true payload) := by
  simp [State.sectionInput, State.abandon, sectionOffer, hvalid, h]

theorem State.sectionInput_continue (hvalid : (s.filter p).invalid = false) (hactive : (s.filter p).active = true)
    (payload : List Byte) : s.sectionInput p false payload = s.append p (sectionOffer false payload) := by
  simp [State.sectionInput, sectionOffer, hvalid, hactive]

/-- A new section on `p`, its filter's old one abandoned. -/
theorem InProgress.start (s : State) (p : Pid) :
    InProgress s (s.setFilter p { (s.filter p).cleared with active := true }) p :=
  ⟨rfl, fun q hq => s.filter_setFilter_ne hq _, by rw [State.filter_setFilter_self]; rfl⟩

/-- Section input of a packet that starts a payload meets the outcome of the offered bytes. -/
theorem State.sectionInput_start_outcome {payload : List Byte} (hvalid : (s.filter p).invalid = false)
    (h : ¬ payload.length < 1 + (byteAt payload 0).toNat) :
    ∃ t, s.sectionInput p true payload = .ok t ∧
      SectionOutcome (s.abandon p) t p (sectionOffer true payload) (sizeOf3 (sectionOffer true payload)) := by
  have hstart := InProgress.start (s.abandon p) p
  rw [State.abandon_filter] at hstart
  have hok : (((s.abandon p).setFilter p { (s.filter p).cleared with active := true }).filter p).ok := by
    simp [Filter.ok, Filter.cleared, hvalid]
  have houtcome := State.append_outcome (x := sectionOffer true payload) hstart hok
  rw [State.filter_setFilter_self] at houtcome
  rw [State.sectionInput_start hvalid h]
  exact houtcome

theorem sizeOf3_append {x : List Byte} (hx : 3 ≤ x.length) (y : List Byte) : sizeOf3 (x ++ y) = sizeOf3 x := by
  rw [sizeOf3, sizeOf3, byteAt_append_left (by omega), byteAt_append_left (by omega)]

/-- A whole section on PID 0 in one packet that starts a payload: the PAT parser runs on it, whatever follows it. -/
theorem State.sectionInput_whole_pat {sec : List Byte} (hvalid : (s.filter 0#13).invalid = false)
    (hlow : 3 ≤ sec.length) (hhigh : sec.length ≤ 4096) (hsize : sec.length = sizeOf3 sec) (rest : List Byte) :
    let u := (s.abandon 0#13).parsePat sec sec.length
    ∃ t, s.sectionInput 0#13 true (0#8 :: (sec ++ rest)) = .ok t ∧
      (∀ q, t.filter q =
        if q = 0#13 then { u.filter 0#13 with active := false, pos := 0#13, size := 0#13 } else u.filter q) ∧
      t.dmx = { u.dmx with secDone := (s.abandon 0#13).dmx.secDone + 1#32 } ∧
      t.irqEvents = u.irqEvents ||| 0x100#10 := by
  obtain ⟨t, ht, -, -, hcomplete⟩ := State.sectionInput_start_outcome (payload := 0#8 :: (sec ++ rest)) hvalid
    (by simp [byteAt])
  have hoffer : sectionOffer true (0#8 :: (sec ++ rest)) = sec ++ rest := rfl
  rw [hoffer, sizeOf3_append hlow, ← hsize, if_pos rfl, List.take_left] at hcomplete
  obtain ⟨hfilter, hstate⟩ := hcomplete (by simp; omega) hhigh (by simp)
  exact ⟨t, ht, hfilter, congrArg (·.dmx) hstate, congrArg (·.irqEvents) hstate⟩

theorem State.sectionInput_continue_outcome (hok : (s.filter p).ok) (hvalid : (s.filter p).invalid = false)
    (hactive : (s.filter p).active = true) (payload : List Byte) :
    let held := s.sectionBytes p (s.filter p).pos.toNat ++ sectionOffer false payload
    ∃ t, s.sectionInput p false payload = .ok t ∧
      SectionOutcome s t p held (if (s.filter p).size = 0#13 then sizeOf3 held else (s.filter p).size.toNat) := by
  rw [State.sectionInput_continue hvalid hactive]
  exact State.append_outcome (InProgress.refl hactive) hok

end Sys2Proof.Machine
end


section
/-! ## The adaptation field without a PCR (41 R235) -/

namespace Sys2Proof.Machine

variable {body : List Byte}

/-- A field that is too long, or too short for the PCR it announces. -/
theorem afDecode_of_malformed (h : 183 < (byteAt body 0).toNat ∨
      (1 ≤ (byteAt body 0).toNat ∧ (byteAt body 0).toNat < 7 ∧ (byteAt body 1).getLsbD 4 = true)) :
    (afDecode body).malformed = true ∧ (afDecode body).pcrPresent = false := by
  rcases afDecode_cases body with ⟨_, e⟩ | ⟨h0, _⟩ | ⟨_, h183, hflag, _⟩ | ⟨_, _, _, e⟩ | ⟨⟨h7, h183, _⟩, _⟩
  · rw [e]; exact ⟨rfl, rfl⟩
  · omega
  · rcases h with h | ⟨-, -, h⟩
    · omega
    · rw [hflag] at h; cases h
  · rw [e]; exact ⟨rfl, rfl⟩
  · omega

/-- An empty field, or one without the PCR flag. -/
theorem afDecode_of_plain (h : (byteAt body 0).toNat = 0 ∨
      (1 ≤ (byteAt body 0).toNat ∧ (byteAt body 0).toNat ≤ 183 ∧ (byteAt body 1).getLsbD 4 = false)) :
    (afDecode body).malformed = false ∧ (afDecode body).pcrPresent = false := by
  rcases afDecode_cases body with ⟨h183, _⟩ | ⟨_, e⟩ | ⟨_, _, _, e⟩ | ⟨h1, _, hflag, _⟩ | ⟨⟨h7, _, hflag⟩, _⟩
  · omega
  · rw [e]; exact ⟨rfl, rfl⟩
  · rw [e]; exact ⟨rfl, rfl⟩
  · rcases h with h | ⟨-, -, h⟩
    · omega
    · rw [hflag] at h; cases h
  · rcases h with h | ⟨-, -, h⟩
    · omega
    · rw [hflag] at h; cases h

end Sys2Proof.Machine
end

section
/-! ## A packet before its section part: counted, its PID seen, its adaptation field's event raised (41 R232 to R235) -/

namespace Sys2Proof.Machine

variable {s t u : State} {p : Pid} {pusi : Bool} {payload : List Byte}

theorem State.afEvents_of_malformed {af : Af} (h : af.malformed = true) (s : State) : s.afEvents af = s.noteMalformed :=
  if_pos h

theorem State.afEvents_of_not_malformed {af : Af} (h : af.malformed = false) (s : State) : s.afEvents af = s :=
  if_neg (by rw [h]; decide)

theorem exec_tsAfOnly (s : State) (hdr : TsHdr) (body : List Byte) :
    exec (.tsAfOnly hdr body) s =
      .next (((s.received hdr.pid).afEvents (afDecode body)).trackPcr (afDecode body) s.dmx.regs.offset) := by
  simp only [exec, execTsAfOnly, State.process, sectionPart_nil, finish]

theorem afEvents_received_filter (s : State) (p : Pid) (af : Af) (q : Pid) :
    ((s.received p).afEvents af).filter q = if q = p then { s.filter q with seen := true } else s.filter q := by
  rw [afEvents_filter, received_filter]

/-- Of the DMX registers the adaptation field's event counts one more. -/
theorem afEvents_received_dmx (s : State) (p : Pid) (af : Af) :
    ((s.received p).afEvents af).dmx =
      { s.countedDmx p with malformed := ((s.received p).afEvents af).dmx.malformed } := by
  rcases afEvents_cases (s.received p) af with ⟨_, h⟩ | ⟨_, h⟩ <;> rw [h]
  · rw [State.noteMalformed_dmx, received_dmx]
  · rw [received_dmx]

/-- The instruction `i` is a packet with header fields `hdr` and the given payload (41 R236, R237). -/
def PayloadClass (i : Instr) (hdr : TsHdr) (body payload : List Byte) : Prop :=
  (i = .tsPayload hdr body ∧ payload = body) ∨
  (i = .tsAfPayload hdr body ∧
    payload = if (byteAt body 0).toNat ≤ 183 then body.drop (1 + (byteAt body 0).toNat) else [])

/-- Both classes with a payload process it the same way, one without an adaptation field. -/
theorem PayloadClass.exec_eq {i : Instr} {hdr : TsHdr} {body : List Byte} (h : PayloadClass i hdr body payload)
    (s : State) :
    ∃ af, (¬ (i = .tsAfPayload hdr body ∧ HasPcr body) → af.pcrPresent = false) ∧
      exec i s = finish (((s.received hdr.pid).afEvents af).process hdr.pid hdr.pusi payload af
        s.dmx.regs.offset) := by
  rcases h with ⟨rfl, rfl⟩ | ⟨rfl, rfl⟩
  · exact ⟨Af.absent, fun _ => rfl, rfl⟩
  · refine ⟨afDecode body, fun hpcr => afDecode_of_not_hasPcr fun h => hpcr ⟨rfl, h⟩, ?_⟩
    rw [← afDecode_payload]
    rfl

/-- A packet with a payload and without a PCR or a malformed adaptation field. -/
def PlainPayload (i : Instr) (hdr : TsHdr) (body payload : List Byte) : Prop :=
  (i = .tsPayload hdr body ∧ payload = body) ∨
  (i = .tsAfPayload hdr body ∧ (byteAt body 0).toNat ≤ 183 ∧
    ((byteAt body 0).toNat = 0 ∨ (byteAt body 1).getLsbD 4 = false) ∧
    payload = body.drop (1 + (byteAt body 0).toNat))

/-- Such a packet comes to the section part of its payload on the counted state. -/
theorem PlainPayload.exec_eq {i : Instr} {hdr : TsHdr} {body : List Byte} (h : PlainPayload i hdr body payload)
    (hpart : (s.received hdr.pid).sectionPart hdr.pid hdr.pusi payload = .ok t) : exec i s = .next t := by
  rcases h with ⟨rfl, rfl⟩ | ⟨rfl, hlen, hflag, hpayload⟩
  · simp only [exec, execTsPayload, State.process, hpart, finish, trackPcr_of_absent (af := Af.absent) rfl]
  · obtain ⟨hmalformed, hpcr⟩ := afDecode_of_plain (body := body)
      (or_iff_not_imp_left.2 fun h0 => ⟨Nat.pos_of_ne_zero h0, hlen, hflag.resolve_left h0⟩)
    have hfrom := afDecode_payload body
    rw [if_pos hlen, ← hpayload] at hfrom
    simp only [exec, execTsAfPayload, State.process, State.afEvents_of_not_malformed hmalformed, hfrom, hpart, finish,
      trackPcr_of_absent hpcr]

theorem finish_process (hpart : s.sectionPart p pusi payload = .ok u) (af : Af) (off : DWord) :
    finish (s.process p pusi payload af off) = .next (u.trackPcr af off) := by
  simp only [State.process, hpart, finish]

/-! ### Dropped payloads (42 R260, R261, R265) -/

/-- A packet on `p` has its payload dropped: no section PID, an invalid filter, or the rest of a section that is not in
progress. -/
def DropsPayload (s : State) (p : Pid) (pusi : Bool) : Prop :=
  (p ≠ 0#13 ∧ ¬ (s.dmx.pmtValid = true ∧ p = s.dmx.pmtPid)) ∨ (s.filter p).invalid = true ∨
    (pusi = false ∧ (s.filter p).active = false)

theorem DropsPayload.sectionPart (h : DropsPayload s p pusi) (payload : List Byte) :
    s.sectionPart p pusi payload = .ok s := by
  unfold State.sectionPart
  split
  swap
  · rfl
  next hinput =>
  rcases h with ⟨hzero, hpmt⟩ | hinvalid | ⟨rfl, hinactive⟩
  · rcases (isSectionPid_iff s p).1 hinput.2 with hp | hp
    · exact absurd hp hzero
    · exact absurd hp hpmt
  · simp [State.sectionInput, hinvalid]
  · exact State.sectionInput_of_inactive hinactive payload

/-- What comes before the section part has no say in whether the payload is dropped. -/
theorem DropsPayload.received (h : DropsPayload s p pusi) (af : Af) :
    DropsPayload ((s.received p).afEvents af) p pusi := by
  rw [DropsPayload, afEvents_received_dmx, afEvents_received_filter, if_pos rfl]
  exact h

/-! ### What a packet changes -/

/-- The DMX registers after a packet with a good sync byte: what its three parts write, and otherwise what it found. -/
theorem packet_dmx (hsec : SectionKeeps p (s.received p) u) (hpcr : PcrKeeps u t) :
    t.dmx = { s.countedDmx p with
      pmtValid := t.dmx.pmtValid
      pmtPid := t.dmx.pmtPid
      pcrPidValid := t.dmx.pcrPidValid
      pcrPid := t.dmx.pcrPid
      secOvf := t.dmx.secOvf
      unkStype := t.dmx.unkStype
      secDone := t.dmx.secDone
      secDiscard := t.dmx.secDiscard
      malformed := t.dmx.malformed
      pcrSeen := t.dmx.pcrSeen
      discont := t.dmx.discont
      idxCount := t.dmx.idxCount
      idxL := t.dmx.idxL
      regs := { (s.countedDmx p).regs with
        pcrBaseNs := t.dmx.regs.pcrBaseNs
        pcrPrevNs := t.dmx.regs.pcrPrevNs
        durationNs := t.dmx.regs.durationNs
        lastDeltaNs := t.dmx.regs.lastDeltaNs
        bitrateBps := t.dmx.regs.bitrateBps
        pcrPrevOff := t.dmx.regs.pcrPrevOff } } := by
  rw [hpcr.dmx, hsec.dmx, received_dmx]

/-- The section part stores only where the section input of its payload would. -/
theorem sectionPart_mem_frame (h : s.sectionPart p pusi payload = .ok u) {a : Nat}
    (ha : ¬ (dataAddr p (offerStart pusi (s.filter p)) ≤ a ∧
      a < dataAddr p (offerStart pusi (s.filter p)) + (sectionOffer pusi payload).length)) :
    u.mem.read a = s.mem.read a := by
  rcases sectionPart_cases h with ⟨-, -, hinput⟩ | rfl
  · exact (State.sectionInput_mem_frame hinput).1 a ha
  · rfl

theorem PcrKeeps.state_eq (h : PcrKeeps s t) : t = { s with irqEvents := t.irqEvents, dmx := t.dmx } := by
  cases t
  rw [State.mk.injEq]
  exact ⟨h.hw, h.cmdStatus, rfl, h.irqEnable, rfl, h.flt, h.mem, h.ch, h.env⟩

/-- The PCR part of a packet that is only counted, with what its tracker and its record write. -/
theorem PcrKeeps.received_eq {count : Word} {ns off : DWord} (h : PcrKeeps (s.received p) t)
    (hseen : t.dmx.pcrSeen = true) (hcount : t.dmx.idxCount = count) (hprev : t.dmx.regs.pcrPrevNs = ns) (hoff : t.dmx.regs.pcrPrevOff = off) :
    t = { s with
      flt := t.flt
      irqEvents := t.irqEvents
      dmx := { s.countedDmx p with
        pcrSeen := true
        discont := t.dmx.discont
        idxCount := count
        idxL := t.dmx.idxL
        regs := { (s.countedDmx p).regs with
          pcrBaseNs := t.dmx.regs.pcrBaseNs
          pcrPrevNs := ns
          durationNs := t.dmx.regs.durationNs
          lastDeltaNs := t.dmx.regs.lastDeltaNs
          bitrateBps := t.dmx.regs.bitrateBps
          pcrPrevOff := off } } } := by
  have hdmx := h.dmx
  rw [received_dmx, hseen, hcount, hprev, hoff] at hdmx
  rw [← hdmx]
  simpa [← h.flt] using h.state_eq

/-- What the clock tracker writes whatever the PCR's delta is (43 R302, R308). -/
theorem clockTrack_dmx (s : State) (ns off : DWord) :
    (s.clockTrack ns off).dmx.pcrSeen = true ∧ (s.clockTrack ns off).dmx.idxCount = s.dmx.idxCount ∧
      (s.clockTrack ns off).dmx.regs.pcrPrevNs = ns ∧ (s.clockTrack ns off).dmx.regs.pcrPrevOff = off := by
  rcases clockTrack_cases s ns off with ⟨hseen, -⟩ | ⟨hseen, ⟨hlow, hhigh⟩, -⟩ | ⟨hseen, hjump, -⟩
  · rw [clockTrack_of_first hseen]; exact ⟨rfl, rfl, rfl, rfl⟩
  · rw [clockTrack_of_valid hseen hlow hhigh]; exact ⟨hseen, rfl, rfl, rfl⟩
  · rw [clockTrack_of_discontinuity hseen hjump]; exact ⟨hseen, rfl, rfl, rfl⟩

end Sys2Proof.Machine
end


section
/-! ## The statements -/

namespace Sys2Proof.Proofs

open Sys2Proof.Machine

/-- Settles O8: the two conditions of the refusal, and `Dmx.start` with an empty latch. -/
theorem dmxStartBeginsAFreshSession : Obligations.DmxStartBeginsAFreshSession := by
  refine fun s => ⟨fun hphase hlatch => ⟨{ s.accept with dmx := s.dmx.start, flt := [] }, ?_, fun p => ?_, ?_⟩,
    fun hbusy => ?_⟩
  · have hfree : ¬ (s.dmx.phase = .run ∨ s.dmx.idxFull = true) := by
      rw [Dmx.idxFull_iff, hlatch]
      simpa using hphase
    exact if_neg hfree
  · exact State.filter_of_flt_nil rfl p
  · rw [← hlatch]
    rfl
  · exact if_pos (hbusy.imp_right s.dmx.idxFull_iff.2)

/-- Settles O15: without a PCR the packet is its prologue and the event of its adaptation field. -/
theorem afOnlyWithoutPcr : Obligations.AfOnlyWithoutPcr := by
  refine fun s hdr body => ⟨fun hbad => ?_, fun hplain => ?_⟩
  · obtain ⟨hmalformed, hpcr⟩ := afDecode_of_malformed hbad
    rw [exec_tsAfOnly, trackPcr_of_absent hpcr, State.afEvents_of_malformed hmalformed]
    refine ⟨_, rfl, received_filter s hdr.pid, ?_⟩
    conv_lhs => rw [received_eq]
    rfl
  · obtain ⟨hmalformed, hpcr⟩ := afDecode_of_plain hplain
    rw [exec_tsAfOnly, trackPcr_of_absent hpcr, State.afEvents_of_not_malformed hmalformed]
    exact ⟨_, rfl, received_filter s hdr.pid, received_eq s hdr.pid⟩

/-- Settles O16: the clock tracker and the index builder run on the counted state. -/
theorem afOnlyWithPcrFrame : Obligations.AfOnlyWithPcrFrame := by
  intro s hdr body hpcr
  obtain ⟨hmalformed, -, -, -⟩ := afDecode_of_hasPcr hpcr
  have hkeeps := trackPcr_keeps (s.received hdr.pid) (afDecode body) s.dmx.regs.offset
  rw [exec_tsAfOnly, State.afEvents_of_not_malformed hmalformed]
  rw [trackPcr_of_hasPcr hpcr] at hkeeps ⊢
  obtain ⟨hseen, hcount, hprev, hoff⟩ :=
    clockTrack_dmx (s.received hdr.pid) (BitVec.ofNat 64 (pcrNs body)) s.dmx.regs.offset
  refine ⟨_, rfl, fun q => (hkeeps.filter q).trans (received_filter s hdr.pid q), ?_, ?_⟩
  · exact hkeeps.received_eq hseen (congrArg (· + 1#32) (hcount.trans (by rw [received_dmx]; rfl))) hprev hoff
  · rw [← received_irqEvents s hdr.pid]
    exact hkeeps.irqEvents

/-- Settles O22: a dropped payload leaves the prologue alone. -/
theorem droppedPayloadsChangeNothing : Obligations.DroppedPayloadsChangeNothing := by
  intro s hdr body hdrop
  have hpart := (DropsPayload.received hdrop Af.absent).sectionPart body
  refine ⟨s.received hdr.pid, ?_, received_filter s hdr.pid, received_eq s hdr.pid⟩
  exact finish_process hpart Af.absent s.dmx.regs.offset

/-- Settles O21: the frames of the three parts of a packet, one after the other. -/
theorem payloadPacketsComplete : Obligations.PayloadPacketsComplete := by
  intro s hdr body i payload hclass hok
  obtain ⟨af, haf, hexec⟩ := PayloadClass.exec_eq hclass s
  have hwfilter := afEvents_received_filter s hdr.pid af
  have hwok : (((s.received hdr.pid).afEvents af).filter hdr.pid).ok := by
    rw [afEvents_filter]
    exact received_ok hok
  obtain ⟨u, hpart, huok⟩ := sectionPart_completes hwok hdr.pusi payload
  have hsec := (afEvents_keeps (s.received hdr.pid) af hdr.pid).trans (sectionPart_keeps hpart)
  have hpcr := trackPcr_keeps u af s.dmx.regs.offset
  have hkeeps := PacketKeeps.of_parts hsec hpcr
  have hdmx := packet_dmx hsec hpcr
  refine ⟨u.trackPcr af s.dmx.regs.offset, hexec.trans (finish_process hpart af _), ?_, ?_, hkeeps.hw,
    hkeeps.cmdStatus, hkeeps.irqEnable, hkeeps.ch, hkeeps.env, fun q hq => ?_, hkeeps.events, congrArg (·.regs.offset) hdmx,
    congrArg (·.pktCount) hdmx, congrArg (·.seenPids) hdmx, congrArg (·.phase) hdmx, congrArg (·.term) hdmx,
    congrArg (·.stopReq) hdmx, hkeeps.truncBytes, congrArg (·.syncFaults) hdmx, congrArg (·.regs.faultOff) hdmx,
    hkeeps.shadow, hkeeps.config, hkeeps.fltSel, hkeeps.fltLenPos, hkeeps.fltLenSize, hkeeps.syncPolicyL,
    hkeeps.keyframeModeL, fun hplain => ?_, fun a ha => ?_, fun hdrop => ?_⟩
  · rwa [hpcr.filter]
  · rw [hpcr.filter, hsec.seen, received_filter, if_pos rfl]
  · rw [hpcr.filter, hsec.others q hq, received_filter, if_neg hq]
  · rw [trackPcr_of_absent (haf hplain)]
    have hview := hsec.trackerView
    refine ⟨hview.regs, hview.pcrSeen, hview.discont, hview.idxCount, ?_⟩
    rw [hsec.dmx, received_dmx]
    rfl
  · rw [hpcr.mem, sectionPart_mem_frame hpart (by rwa [hwfilter, if_pos rfl]), afEvents_mem, received_mem]
  · obtain rfl : (s.received hdr.pid).afEvents af = u :=
      Except.ok.inj (((DropsPayload.received hdrop af).sectionPart payload).symm.trans hpart)
    have hdropped := afEvents_received_dmx s hdr.pid af
    refine ⟨by rw [hpcr.mem, afEvents_mem, received_mem], fun q => ?_, ?_⟩
    · rw [hpcr.filter, hwfilter]
      split <;> rfl
    · rw [hpcr.dmx, hdropped]
      exact ⟨rfl, rfl, rfl, rfl, rfl, rfl, rfl, rfl⟩

/-- Settles O23: the section part runs on the counted state, and of a whole section it is the third clause of
SectionOutcome, with the PAT parser's statement. -/
theorem wholePatPacketIsParsed : Obligations.WholePatPacketIsParsed := by
  refine ⟨fun s hdr body payload i hclass hpayload hpid hok => ?_,
    fun s hdr sec rest hzero hpusi hvalid hlow hhigh hsize => ?_⟩
  · obtain ⟨t, ht, -⟩ := State.sectionInput_completes (received_ok hok) hdr.pusi payload
    have hsection : (s.received hdr.pid).isSectionPid hdr.pid = true := by
      rwa [isSectionPid_iff, received_dmx]
    refine ⟨s.received hdr.pid, t, received_filter s hdr.pid, received_eq s hdr.pid, ht, PlainPayload.exec_eq hclass ?_⟩
    rwa [State.sectionPart, if_pos ⟨hpayload, hsection⟩]
  · obtain ⟨t, ht, hfilter, hdmx, hevents⟩ := (s.received 0#13).sectionInput_whole_pat (sec := sec)
      (by rw [received_filter, if_pos rfl]; exact hvalid) hlow (by omega) hsize rest
    have hparser := ((s.received 0#13).abandon 0#13).parsePat_parser sec sec.length
    obtain ⟨hfirst, hnone⟩ := patTakesTheFirstNonzeroProgram ((s.received 0#13).abandon 0#13) sec sec.length
    refine ⟨t, PlainPayload.exec_eq (.inl ⟨rfl, rfl⟩) ?_, ?_, fun q hq => ?_, ?_, ?_, ?_, fun n hfit hprog hbefore => ?_,
      fun hall => ?_⟩
    · rw [hzero, hpusi, State.sectionPart, if_pos ⟨List.cons_ne_nil _ _, (isSectionPid_iff _ _).2 (.inl rfl)⟩]
      exact ht
    · rw [hfilter, if_pos rfl, State.parsePat_filter, State.abandon_filter, received_filter, if_pos rfl]
    · rw [hfilter, if_neg hq, State.parsePat_filter, State.abandon_filter, received_filter, if_neg hq]
    · rw [hdmx, State.abandon_dmx, received_dmx]
      rfl
    · rw [State.latched, hevents, BitVec.getLsbD_or]
      simp [IrqEvent.bit]
    · rw [hdmx, hparser.secDiscard, State.abandon_dmx, received_dmx, received_filter, if_pos rfl]
      rfl
    · rw [hdmx, hfirst n hfit hprog hbefore]
      exact ⟨rfl, rfl⟩
    · rw [hdmx, hnone hall, State.abandon_dmx, received_dmx]
      exact ⟨rfl, rfl⟩

/-- Settles O27: Append's bytes stand in the buffer in order, and SectionInput is a pointer field past the payload or an
Append on a filter with a section in progress. -/
theorem bufferHoldsTheAppendedBytes : Obligations.BufferHoldsTheAppendedBytes := by
  refine ⟨fun s t p x hok happend hactive => ?_, ?_⟩
  · obtain ⟨hpos, hbytes⟩ := State.append_incomplete hok happend hactive
    refine ⟨hpos, fun j hj => ?_⟩
    rw [hpos] at hj
    rw [← t.byteAt_sectionBytes p hj, hbytes]
    by_cases hold : j < (s.filter p).pos.toNat
    · rw [if_pos hold, byteAt_append_left (by simpa using hold), s.byteAt_sectionBytes p hold]
    · rw [if_neg hold, byteAt_append_right (by simpa using hold), State.sectionBytes_length]
  intro s p pusi payload f hok hvalid hcase s0 pastEnd held size
  cases pusi with
  | true =>
    have hs0 : s0 = s.abandon p := by
      rw [State.abandon_eq]
      simp [s0, f]
    have hheld : held = sectionOffer true payload := rfl
    have hsize : size = sizeOf3 (sectionOffer true payload) := if_pos (.inl rfl)
    rw [hs0, hheld, hsize]
    by_cases h : payload.length < 1 + (byteAt payload 0).toNat
    · refine ⟨_, State.sectionInput_past_end hvalid h, fun _ => ⟨fun q => ?_, ?_⟩, fun hend => absurd ⟨rfl, h⟩ hend⟩
      · rw [State.noteMalformed_filter, State.filter_setFilter, State.abandon_filter]
        rfl
      · unfold State.abandon
        split <;> rfl
    · obtain ⟨t, ht, houtcome⟩ := State.sectionInput_start_outcome hvalid h
      exact ⟨t, ht, fun hend => absurd hend.2 h, fun _ => houtcome⟩
  | false =>
    have hactive : f.active = true := by simpa using hcase
    have hs0 : s0 = s := if_neg (by simp)
    have hsize : size = if f.size = 0#13 then sizeOf3 held else f.size.toNat := by simp [size]
    obtain ⟨t, ht, houtcome⟩ := State.sectionInput_continue_outcome hok hvalid hactive payload
    rw [hs0, hsize]
    exact ⟨t, ht, fun hend => absurd hend.1 (by decide), fun _ => houtcome⟩

end Sys2Proof.Proofs
end

/-! PROOFS. The registers (10_state.md, 40_host_commands.md section 3): the layer of facts about the words of the status
registers and the writable bits of IRQ_ENABLE; then the statements of what a read returns and what a write stores, and that
the reset state meets every invariant. -/

section
/-! ## The words of the status registers (10_state.md R35 to R77) -/

namespace Sys2Proof.Machine

/-- A field at bit 0 is the word with zeros above it. -/
theorem fieldAt_eq_of_zeros_append (m : Nat) {n : Nat} {v : BitVec n} {w : Word} (h : fieldAt (0#m ++ v) 0 = w) :
    fieldAt v 0 = w := by
  rwa [fieldAt_append, fieldAt_zero_field, BitVec.zero_or] at h

theorem or_left_comm_word (x y z : Word) : x ||| (y ||| z) = y ||| (x ||| z) := by ac_rfl

theorem CmdStatus.word_eq (c : CmdStatus) :
    c.word = 0#12 ++ c.rejReason.code ++ c.rejOpcode ++ 0#7 ++ boolBit c.rejected := by
  rw [← fieldAt_zero (_ ++ _), fieldAt_append (m := 12 + 4 + 8 + 7), fieldAt_append, fieldAt_append, fieldAt_append,
    fieldAt_zero_field, fieldAt_zero_field, BitVec.zero_or, BitVec.or_zero]
  simp only [CmdStatus.word, flagAt, Nat.reduceAdd, BitVec.or_comm, BitVec.or_assoc]

theorem hwCfgWord_eq (n : Nat) : hwCfgWord n = 0#16 ++ 0x47#8 ++ 0#3 ++ BitVec.ofNat 5 n := by
  rw [← fieldAt_zero (_ ++ _), fieldAt_append (m := 16 + 8 + 3), fieldAt_append, fieldAt_append,
    fieldAt_zero_field, fieldAt_zero_field, BitVec.zero_or, BitVec.or_zero]
  exact BitVec.or_comm _ _

theorem Dmx.statusWord_eq (d : Dmx) :
    d.statusWord = 0#8 ++ d.truncBytes ++ 0#3 ++ boolBit d.stopReq ++ boolBit d.idxL.isSome ++ boolBit d.pcrSeen
      ++ boolBit d.pcrPidValid ++ boolBit d.pmtValid ++ d.term.code ++ 0#2 ++ d.phase.code := by
  rw [← fieldAt_zero (_ ++ _), fieldAt_append (m := 8 + 8 + 3 + 1 + 1 + 1 + 1 + 1 + 4 + 2), fieldAt_append,
    fieldAt_append, fieldAt_append, fieldAt_append, fieldAt_append, fieldAt_append, fieldAt_append, fieldAt_append, fieldAt_append,
    fieldAt_zero_field, fieldAt_zero_field, fieldAt_zero_field, BitVec.zero_or, BitVec.or_zero, BitVec.or_zero]
  simp only [Dmx.statusWord, Dmx.idxFull, flagAt, Nat.reduceAdd, BitVec.or_comm, or_left_comm_word, BitVec.or_assoc]

theorem Channel.statusWord_eq (k : Channel) :
    k.statusWord =
      0#5 ++ k.residue ++ 0#6 ++ boolBit k.epochValid ++ boolBit k.stopReq ++ k.term.code ++ 0#1 ++ k.phase.code := by
  rw [← fieldAt_zero (_ ++ _), fieldAt_append (m := 5 + 11 + 6 + 1 + 1 + 4 + 1), fieldAt_append, fieldAt_append,
    fieldAt_append, fieldAt_append, fieldAt_append, fieldAt_append, fieldAt_zero_field, fieldAt_zero_field,
    fieldAt_zero_field, BitVec.zero_or, BitVec.or_zero, BitVec.or_zero]
  simp only [Channel.statusWord, flagAt, Nat.reduceAdd, BitVec.or_comm, or_left_comm_word, BitVec.or_assoc]

/-! ### Reads that copy nothing -/

/-- A host read at offset `a` returns `w` and copies nothing into a shadow. -/
structure ReadsAs (s : State) (a : BitVec 12) (w : Word) : Prop where
  aligned : a.toNat % 4 = 0
  word : s.readWord (regAt s.nDlv a.toNat) = w
  kept : ∀ t : State, t.snapshot (regAt s.nDlv a.toNat) = t

variable {s : State} {a : BitVec 12} {w : Word}

theorem ReadsAs.step (h : ReadsAs s a w) (hact : s.nextAction = some (.hostRead a 4)) :
    step s = .next { s.popped with env := { s.popped.env with hostRd := s.env.hostRd ++ [w] } } := by
  rw [step_hostRead hact h.aligned, h.word, h.kept]
  rfl

theorem regAt_of_channel {x c o : Nat} {k : Channel} {r : ChReg} (hk : s.ch[c]? = some k)
    (hx : x = 0x100 + 0x80 * c + o) (ho : o < 0x80) (hr : (channelMap.lookup o).getD .reserved = r) : regAt s.nDlv x = .ch c r := by
  obtain ⟨hc, -⟩ := List.getElem?_eq_some_iff.1 hk
  rw [hx, ← hr]
  exact regAt_channelBlock hc ho

/-- A channel's register below its 64-bit ones. -/
theorem ReadsAs.of_channel {c o : Nat} {k : Channel} {r : ChReg} (hk : s.ch[c]? = some k)
    (ha : a.toNat = 0x100 + 0x80 * c + o) (ho : o < 0x80 ∧ o % 4 = 0) (hr : (channelMap.lookup o).getD .reserved = r)
    (hkept : ∀ t : State, t.snapshot (.ch c r) = t) : ReadsAs s a (k.readWord r) := by
  have hreg := regAt_of_channel hk ha ho.1 hr
  exact ⟨by omega, by rw [hreg, State.readWord_ch hk], by rwa [hreg]⟩

/-- The words of the global registers and of those of the DMX, by their offsets, but for FLT_INFO, FLT_LEN and the
64-bit ones. -/
def State.statusWords (s : State) : List (BitVec 12 × Word) :=
  let d := s.dmx
  [(0x000#12, 0x54534301#32),
    (0x004#12, 0#32),
    (0x008#12,
      0#12 ++ s.cmdStatus.rejReason.code ++ s.cmdStatus.rejOpcode ++ 0#7 ++ boolBit s.cmdStatus.rejected),
    (0x010#12, s.irqEnable),
    (0x014#12, 0#16 ++ 0x47#8 ++ 0#3 ++ BitVec.ofNat 5 s.nDlv),
    (0x040#12, 0#30 ++ d.config),
    (0x044#12,
      0#8 ++ d.truncBytes ++ 0#3 ++ boolBit d.stopReq ++ boolBit d.idxL.isSome ++ boolBit d.pcrSeen
        ++ boolBit d.pcrPidValid ++ boolBit d.pmtValid ++ d.term.code ++ 0#2 ++ d.phase.code),
    (0x048#12, 0#19 ++ d.pmtPid),
    (0x04C#12, 0#19 ++ d.pcrPid),
    (0x050#12, d.pktCount),
    (0x054#12, d.syncFaults),
    (0x058#12, d.discont),
    (0x05C#12, d.secOvf),
    (0x060#12, d.unkStype),
    (0x064#12, d.secDone),
    (0x068#12, d.secDiscard),
    (0x06C#12, d.malformed),
    (0x070#12, d.idxCount),
    (0x074#12, 0#18 ++ d.seenPids),
    (0x078#12, 0#19 ++ d.fltSel)]

theorem State.readsAs_statusWords (s : State) : ∀ e ∈ s.statusWords, ReadsAs s e.1 e.2 := by
  simp only [State.statusWords, List.forall_mem_cons, List.not_mem_nil, false_imp_iff, implies_true, and_true]
  refine ⟨?_, ?_, ⟨rfl, s.cmdStatus.word_eq, fun _ => rfl⟩, ?_, ⟨rfl, hwCfgWord_eq s.nDlv, fun _ => rfl⟩,
    ⟨rfl, fieldAt_eq_of_zeros_append 30 (fieldAt_zero _), fun _ => rfl⟩, ⟨rfl, s.dmx.statusWord_eq, fun _ => rfl⟩,
    ⟨rfl, fieldAt_eq_of_zeros_append 19 (fieldAt_zero _), fun _ => rfl⟩,
    ⟨rfl, fieldAt_eq_of_zeros_append 19 (fieldAt_zero _), fun _ => rfl⟩, ?_, ?_, ?_, ?_, ?_, ?_, ?_, ?_, ?_,
    ⟨rfl, fieldAt_eq_of_zeros_append 18 (fieldAt_zero _), fun _ => rfl⟩,
    ⟨rfl, fieldAt_eq_of_zeros_append 19 (fieldAt_zero _), fun _ => rfl⟩⟩
  all_goals exact ⟨rfl, rfl, fun _ => rfl⟩

/-- The words of a channel's registers below its 64-bit ones, by their offsets from B(c). -/
def Channel.statusWords (k : Channel) : List (Nat × Word) :=
  [(0x00, k.config),
    (0x04,
      0#5 ++ k.residue ++ 0#6 ++ boolBit k.epochValid ++ boolBit k.stopReq ++ k.term.code ++ 0#1 ++ k.phase.code),
    (0x08, 0#29 ++ k.evt),
    (0x0C, 0#29 ++ k.evtEn),
    (0x10, k.wfaults),
    (0x14, k.resyncs)]

theorem readsAs_channelWords {c : Nat} {k : Channel} (hk : s.ch[c]? = some k) :
    ∀ e ∈ k.statusWords, a.toNat = 0x100 + 0x80 * c + e.1 → ReadsAs s a e.2 := by
  simp only [Channel.statusWords, List.forall_mem_cons, List.not_mem_nil, false_imp_iff, implies_true, and_true]
  refine ⟨fun ha => .of_channel (r := .config) hk ha (by decide) rfl fun _ => rfl, fun ha => ?_, fun ha => ?_, fun ha => ?_,
    fun ha => .of_channel (r := .wfaults) hk ha (by decide) rfl fun _ => rfl,
    fun ha => .of_channel (r := .resyncs) hk ha (by decide) rfl fun _ => rfl⟩
  · rw [← k.statusWord_eq]
    exact .of_channel (r := .status) hk ha (by decide) rfl fun _ => rfl
  · rw [← fieldAt_eq_of_zeros_append 29 (fieldAt_zero (0#29 ++ k.evt))]
    exact .of_channel (r := .evt) hk ha (by decide) rfl fun _ => rfl
  · rw [← fieldAt_eq_of_zeros_append 29 (fieldAt_zero (0#29 ++ k.evtEn))]
    exact .of_channel (r := .evtEn) hk ha (by decide) rfl fun _ => rfl

/-! ### The writable bits of IRQ_ENABLE (10_state.md R39) -/

theorem getLsbD_irqEnableMask {i : Nat} (n : Nat) (hi : i < 32) :
    (irqEnableMask n).getLsbD i = (decide (i < 10) || decide (16 ≤ i ∧ i < 16 + n)) := by
  have hlow : (0x3FF#32).getLsbD i = decide (i < 10) := by
    rw [show 0x3FF#32 = BitVec.ofNat 32 (2 ^ 10 - 1) from rfl, BitVec.getLsbD_ofNat, Nat.testBit_two_pow_sub_one]
    simp [hi]
  rw [irqEnableMask, BitVec.getLsbD_or, hlow, BitVec.getLsbD_shiftLeft, BitVec.getLsbD_ofNat,
    Nat.testBit_two_pow_sub_one]
  congr 1
  rw [Bool.eq_iff_iff]
  simp only [Bool.and_eq_true, Bool.not_eq_true', decide_eq_true_eq, decide_eq_false_iff_not]
  omega

/-! ### A write to a channel's register -/

theorem step_hostWrite_channel {c o : Nat} {k : Channel} {v : Word} {r : ChReg}
    (hact : s.nextAction = some (.hostWrite a 4 v)) (hk : s.ch[c]? = some k) (ha : a.toNat = 0x100 + 0x80 * c + o)
    (ho : o < 0x80 ∧ o % 4 = 0) (hr : (channelMap.lookup o).getD .reserved = r) :
    step s = .next { s.popped with ch := s.ch.set c (k.writeWord v r) } := by
  have hreg := regAt_of_channel hk ha ho.1 hr
  rw [step_hostWrite hact (by omega) (by rw [hreg]; exact Reg.noConfusion), hreg, State.writeWord_ch (s := s.popped) hk]
  rfl

end Sys2Proof.Machine
end

section
/-! ## The statements -/

namespace Sys2Proof.Proofs

open Sys2Proof.Machine

/-- Settles O52: each register of the map, read by its word. -/
theorem statusReadsShowTheirFields : Obligations.StatusReadsShowTheirFields := by
  refine ⟨by decide, fun s => ⟨fun e he hact => ReadsAs.step (s.readsAs_statusWords e he) hact, fun hact => ?_,
    fun a c k hact hk e he ha => ReadsAs.step (readsAs_channelWords hk e he ha) hact⟩⟩
  have hread : ReadsAs s 0x00C#12 s.irqStatusWord := ⟨rfl, rfl, fun _ => rfl⟩
  refine ⟨_, hread.step hact, fun i hi => ?_⟩
  rw [s.getLsbD_irqStatusWord_iff]
  refine or_congr (iff_and_self.2 BitVec.lt_of_getLsbD) ?_
  simp only [hi, true_and, Channel.summary_iff]
  constructor
  · rintro ⟨c, k, hc, hk, j, hevt, hen⟩
    exact ⟨c, k, hc, hk, j, BitVec.lt_of_getLsbD hevt, hevt, hen⟩
  · rintro ⟨c, k, hc, hk, j, -, hevt, hen⟩
    exact ⟨c, k, hc, hk, j, hevt, hen⟩

/-- Settles O54: the write of each register, and the bits of the enable mask. -/
theorem readWriteRegistersStore : Obligations.ReadWriteRegistersStore := by
  refine fun s v _ => ⟨fun hact => ⟨v &&& irqEnableMask s.nDlv, ?_, fun i hi => ?_⟩, fun hact => ?_, fun hact => ?_,
    fun a c k hact hk => ⟨fun ha => ?_, fun ha => ?_⟩⟩
  · have hreg : regAt s.nDlv (0x010#12).toNat = .irqEnable := rfl
    rw [step_hostWrite hact rfl (by rw [hreg]; decide), hreg]
    rfl
  · rw [BitVec.getLsbD_and, getLsbD_irqEnableMask s.nDlv hi]
  · have hreg : regAt s.nDlv (0x040#12).toNat = .dmxConfig := rfl
    rw [step_hostWrite hact rfl (by rw [hreg]; decide), hreg]
    rfl
  · have hreg : regAt s.nDlv (0x078#12).toNat = .fltSel := rfl
    rw [step_hostWrite hact rfl (by rw [hreg]; decide), hreg]
    rfl
  · rw [← Nat.add_zero (0x100 + 0x80 * c)] at ha
    exact step_hostWrite_channel (r := .config) hact hk ha (by decide) rfl
  · rw [Nat.add_right_comm 0x100 0xC] at ha
    exact step_hostWrite_channel (r := .evtEn) hact hk ha (by decide) rfl

/-- Settles O60: the tables of the reset state are empty, its DMX registers and its channels are those at reset. -/
theorem invariantsHoldAtReset : Obligations.InvariantsHoldAtReset := by
  refine fun n hw env => ⟨.of_flt_nil rfl, ⟨rfl, rfl⟩, State.seenCounted_of_flt_nil rfl rfl, DmxSession.ok_reset,
    fun k hk => ?_, fun k hk => ?_, BitVec.zero_and⟩
  · rw [List.eq_of_mem_replicate hk]
    exact Channel.ok_reset _
  · rw [List.eq_of_mem_replicate hk]
    rfl

end Sys2Proof.Proofs
end
